-- ==== Sys2Proof/Word.lean ====
section
/-! DEFINITION. The word types of the block (00_scope R8: every quantity is unsigned). -/

namespace Sys2Proof

/-- A register or bus word (10_state R22). -/
abbrev Word := BitVec 32

/-- A byte of a block or of the sink. -/
abbrev Byte := BitVec 8

/-- A byte offset in the 16 MiB aperture: only bits [23:0] are decoded (20_memory R53). -/
abbrev Offset := BitVec 24

end Sys2Proof
end

