-- ==== Sys2Proof/Config.lean ====
section
/-! DEFINITION. The parameters of 00_scope R6, the constants an implementation fixes, and the free values. -/

namespace Sys2Proof

/-- The six memories (10_state R41 to R46). -/
inductive MemId where
  | blkMem | bwtOut | symMem | freqMem | bookCode | bookLen
deriving DecidableEq, Repr

namespace Config

/-- MAX_BLOCK (R6): elements of BLK_MEM and BWT_OUT. -/
def maxBlock : Nat := 900000

/-- MAX_ALPHABET (R6): elements of FREQ_MEM, BOOK_CODE and BOOK_LEN. -/
def maxAlphabet : Nat := 258

/-- MAX_CODE_LEN (R6), at its default. DESIGN CHOICE, unsafe for a block built with another value (log entry 5). -/
def maxCodeLen : Nat := 20

/-- MAX_WRITE_BITS (R6). -/
def maxWriteBits : Nat := 32

/-- CACHE_BITS (R6), at its default. DESIGN CHOICE, unsafe for a block built with another value (log entry 5). -/
def cacheBits : Nat := 64

/-- SYM_CAP (R6): elements of SYM_MEM. -/
def symCap : Nat := 900001

/-- ORIGIN_BITS (R6): every origin index is below 2^24. -/
def originBits : Nat := 24

/-- Bytes of one unit of CFG.BLOCK_SIZE: CAP = 100 000 x BLOCK_SIZE (R6, 90_conflicts C5). -/
def blockUnit : Nat := 100000

/-- BASE (R6, 20_memory R53): the host address of offset 0, which the platform fixes and the spec
leaves open (D2). It has no body, so nothing can rest on a value of it: safe (log entry 6). -/
opaque base : Nat

/-- The unspecified word a busy read returns (20_memory R59), by draw number: a free value, safe
(log entry 9). -/
opaque freeRead : Nat → Word

/-- The free length of the sink's share of an aborted command's bytes (70_reset R171), by draw
number, before it is bounded by the number of those bytes: a free value, safe (log entry 10). -/
opaque freeLength : Nat → Nat

/-- The unspecified contents an aborted command may have read from an unwritten element
(10_state R49), by draw number, memory and index: a free value, safe (log entry 11). -/
opaque freeCell : Nat → MemId → Nat → Word

end Config
end Sys2Proof
end

