-- ==== Sys2Proof/Syntax.lean ====
section
/-! DEFINITION. The commands: one constructor per row of the opcode table (30_encoding R85). -/

namespace Sys2Proof

/-- A command with its immediate (30_encoding R81, R82). The wide operands come from ARG0 and ARG1
(R84) and are no part of the word. `count` and `sym` are the assembler's numbers (R91);
WellFormed holds them to the ranges their fields can carry (log entry 16). -/
inductive Instr where
  | nop
  | bwBit (b : Bool)
  | bwBits (count : Nat)
  | bwFlush
  | bwClose
  | bwOpen
  | bwtRun
  | hcount
  | hbuild
  | hencSym (sym : Nat)
  | hencRun
deriving DecidableEq, Repr

end Sys2Proof
end

