-- ==== Sys2Proof/Machine/State.lean ====
section
/-! DEFINITION. The state of the block and of its three agents, the state after reset, and how a step can stop. -/

namespace Sys2Proof.Machine

/-- A memory: (element index, value) pairs, indices strictly rising. An element without an entry is
unwritten (10_state R49): it holds no value, and reading it is the fault UNINIT (log entries 7, 21). -/
abbrev Mem (w : Nat) := List (Nat × BitVec w)

/-- The error codes of 60_exceptions R147, in code order. Codes 8 to 15 are reserved and never
written, so they are no value of this type (log entry 17). -/
inductive ErrCode where
  | none | invalidArgument | closedWriter | encodingFailed | internalConsistency
  | busy | illegalCommand | sequence
deriving DecidableEq, Repr

/-- The pending-command latch (10_state R48): the accepted word and the ARG0 and ARG1 values then. -/
structure Pending where
  word : Word
  a0 : Word
  a1 : Word
  /-- MODEL'S OWN (log entry 14): how many of the command's bytes the sink has accepted already, before
  the command completes (20_memory R63, R66). -/
  sent : Nat := 0
deriving DecidableEq, Repr

/-- What a host access does (20_memory R55). -/
inductive BusOp where
  | read
  | write (data : Word)
deriving DecidableEq, Repr

/-- One host bus access: its offset, the enabled byte lanes, and the operation (20_memory R56). -/
structure Access where
  off : Offset
  lanes : BitVec 4
  op : BusOp
deriving DecidableEq, Repr

/-- What the outside of the block does next (00_scope R18; log entry 1). -/
inductive Event where
  /-- The host makes one bus access (20_memory R55 to R59). -/
  | access (a : Access)
  /-- The host reads STATUS until BUSY is 0 (00_scope R15). -/
  | poll
  /-- The command engine gets a turn (40_control R97). -/
  | engine
  /-- The platform asserts the reset input (70_reset R166, R168). -/
  | hardReset
  /-- The sink delays acceptance for `turns` engine turns (20_memory R60). -/
  | sinkStall (turns : Nat)
  /-- The sink accepts up to `count` further bytes of the pending command, which stays pending
  (20_memory R60, R63, R66; log entry 14). -/
  | sinkTakes (count : Nat)
deriving DecidableEq, Repr

/-- The bus response to the host's last access (20_memory R55, R57): the model's own observation
(log entry 15). -/
inductive Reply where
  | none
  | data (v : Word)
  | done
  | busError
deriving DecidableEq, Repr

/-- Everything the spec gives the block, its sink, and (last group) the model's own plain data. -/
structure State where
  /-- STATUS.ERR (R29). -/
  err : Bool
  /-- STATUS.BW_CLOSED (R30). -/
  bwClosed : Bool
  /-- STATUS.BOOK_VALID (R31). -/
  bookValid : Bool
  /-- STATUS.BWT_VALID (R32). -/
  bwtValid : Bool
  /-- ERRCODE.CODE (R33). -/
  errCode : ErrCode
  /-- ERRCODE.SRC (R33). -/
  errSrc : Bool
  /-- ERRINFO (R34). -/
  errInfo : Word
  /-- CFG.BLOCK_SIZE (R35). -/
  blockSize : BitVec 4
  /-- CFG.TIE (R35): false is AFTER, true is BEFORE. -/
  tie : Bool
  /-- ARG0 (R37). -/
  arg0 : Word
  /-- ARG1 (R37). -/
  arg1 : Word
  /-- BWT_ORIGIN (R38). -/
  bwtOrigin : Word
  /-- BWT_LEN (R38). -/
  bwtLen : Word
  /-- BOOK_N, register bits [8:0] (R39). -/
  bookN : BitVec 9
  /-- BOOK_MAXLEN, register bits [5:0] (R39). -/
  bookMaxlen : BitVec 6
  /-- BW_BYTES (R40). -/
  bwBytes : Word
  /-- The bit cache, oldest bit first (R47). BW_NBITS is its length (R40). -/
  cache : List Bool
  /-- The pending-command latch (R48). STATUS.BUSY is "not none" (R28). -/
  pend : Option Pending
  /-- BLK_MEM (R41). -/
  blkMem : Mem 8
  /-- BWT_OUT (R42). -/
  bwtOut : Mem 8
  /-- SYM_MEM (R43). -/
  symMem : Mem 9
  /-- FREQ_MEM (R44). -/
  freqMem : Mem 32
  /-- BOOK_CODE (R45). -/
  bookCode : Mem 32
  /-- BOOK_LEN (R46). -/
  bookLen : Mem 6
  /-- The bytes the sink has accepted, oldest first (20_memory R60). -/
  sink : List Byte
  /-- MODEL'S OWN (log entry 13): engine turns the sink still delays acceptance. -/
  sinkStall : Nat
  /-- MODEL'S OWN (log entry 1): what happens next, oldest first. -/
  events : List Event
  /-- MODEL'S OWN (log entry 15): the response to the host's last access. -/
  reply : Reply
  /-- MODEL'S OWN (log entry 9): the draw counter of the free values. -/
  draws : Nat
deriving DecidableEq, Repr

/-- The state after a power-on hard reset (10_state R22, R52; 70_reset R167, R168). The sink and the
last four fields have no reset value in the spec: DESIGN CHOICE (log entry 18). -/
def State.reset : State where
  err := false
  bwClosed := false
  bookValid := false
  bwtValid := false
  errCode := .none
  errSrc := false
  errInfo := 0
  blockSize := 9
  tie := false
  arg0 := 0
  arg1 := 0
  bwtOrigin := 0
  bwtLen := 0
  bookN := 0
  bookMaxlen := 0
  bwBytes := 0
  cache := []
  pend := none
  blkMem := []
  bwtOut := []
  symMem := []
  freqMem := []
  bookCode := []
  bookLen := []
  sink := []
  sinkStall := 0
  events := []
  reply := .none
  draws := 0

/-- Why the machine stops. -/
inductive Fault where
  /-- UNINIT (10_state R49, 60_exceptions R157): element `index` of `mem` was read while unwritten, by a
  host read of an idle block or by a command. Raised by `hostRead` and by the commands that read
  memory. That a host read of an unwritten element while BUSY is 1 is a free draw (20_memory R59) and not
  this fault is the model's choice (log entry 25).
  Safe: the hardware goes on with an unspecified value, so nothing false can be proved. -/
  | uninit (mem : MemId) (index : Nat)
deriving DecidableEq, Repr

/-- Why an instruction has no meaning here. -/
inductive Refusal where
  /-- Raised only by an arm of `exec` whose instruction is not modelled; no arm is. Safe. -/
  | notModelled (mnemonic : String)
deriving DecidableEq, Repr

end Sys2Proof.Machine
end

