-- ==== Sys2Proof/Machine/Ops.lean ====
section
/-! DEFINITION. The named operations: memory elements, bits and bytes, the bit-writer's primitives, error
capture and clear, and how a command ends. -/

namespace Sys2Proof.Machine

/-! ### Memory elements (00_scope R11, 10_state R49) -/

/-- The element at index `i`, or none where it is unwritten. -/
def Mem.read {w : Nat} : Mem w → Nat → Option (BitVec w)
  | [], _ => none
  | (j, v) :: m, i => if i = j then some v else Mem.read m i

/-- MemWrite: the element at index `i` holds `v` and is written; the form stays canonical. -/
def Mem.write {w : Nat} : Mem w → Nat → BitVec w → Mem w
  | [], i, v => [(i, v)]
  | (j, u) :: m, i, v =>
    if i < j then (i, v) :: (j, u) :: m
    else if i = j then (i, v) :: m
    else (j, u) :: Mem.write m i v

/-- MemWrite of the values `vs` at indices `i`, `i + 1`, … in that order. -/
def Mem.writeFrom {w : Nat} (m : Mem w) (i : Nat) : List (BitVec w) → Mem w
  | [] => m
  | v :: vs => Mem.writeFrom (Mem.write m i v) (i + 1) vs

/-- The elements 0 to n - 1 become unwritten (70_reset R171). -/
def Mem.unwrite {w : Nat} (m : Mem w) (n : Nat) : Mem w := m.filter fun c => decide (n ≤ c.1)

/-- MemRead of `count` elements from index `i`, in ascending order: their values, or the index of the
first unwritten one (10_state R49). -/
def Mem.readRange {w : Nat} (m : Mem w) (i : Nat) : Nat → Except Nat (List (BitVec w))
  | 0 => .ok []
  | k + 1 =>
    match Mem.read m i with
    | none => .error i
    | some v =>
      match Mem.readRange m (i + 1) k with
      | .error j => .error j
      | .ok vs => .ok (v :: vs)

/-- The canonical form of a memory with `size` elements: indices strictly rising and below the size.
An entry of every value is allowed, because an unlisted element holds no value. -/
def Mem.wf {w : Nat} (size : Nat) (m : Mem w) : Bool :=
  decide ((m.map Prod.fst).Pairwise (· < ·)) && m.all fun c => decide (c.1 < size)

/-- The number of elements of a memory (20_memory R54). -/
def memSize : MemId → Nat
  | .blkMem => Config.maxBlock
  | .bwtOut => Config.maxBlock
  | .symMem => Config.symCap
  | .freqMem => Config.maxAlphabet
  | .bookCode => Config.maxAlphabet
  | .bookLen => Config.maxAlphabet

/-- Element `i` of a memory as a bus word, zero-extended (20_memory R55); none where unwritten. -/
def State.readCell (s : State) : MemId → Nat → Option Word
  | .blkMem, i => (Mem.read s.blkMem i).map (BitVec.setWidth 32)
  | .bwtOut, i => (Mem.read s.bwtOut i).map (BitVec.setWidth 32)
  | .symMem, i => (Mem.read s.symMem i).map (BitVec.setWidth 32)
  | .freqMem, i => Mem.read s.freqMem i
  | .bookCode, i => Mem.read s.bookCode i
  | .bookLen, i => (Mem.read s.bookLen i).map (BitVec.setWidth 32)

/-- A host write of `d` to element `i`: the low bits are stored; a read-only memory ignores it
(20_memory R55). -/
def State.writeCell (s : State) : MemId → Nat → Word → State
  | .blkMem, i, d => { s with blkMem := Mem.write s.blkMem i (d.setWidth 8) }
  | .symMem, i, d => { s with symMem := Mem.write s.symMem i (d.setWidth 9) }
  | .freqMem, i, d => { s with freqMem := Mem.write s.freqMem i d }
  | .bwtOut, _, _ => s
  | .bookCode, _, _ => s
  | .bookLen, _, _ => s

/-- The canonical form of all six memories. -/
def State.memWf (s : State) : Bool :=
  Mem.wf Config.maxBlock s.blkMem && Mem.wf Config.maxBlock s.bwtOut && Mem.wf Config.symCap s.symMem &&
    Mem.wf Config.maxAlphabet s.freqMem && Mem.wf Config.maxAlphabet s.bookCode &&
    Mem.wf Config.maxAlphabet s.bookLen

/-! ### Bits and bytes (00_scope R8, 20_memory R61) -/

/-- Bits v[count-1], …, v[0] of `v`: the low `count` bits, highest first (41_bitwriter R111, R113). -/
def bitsMsb (v : Word) : Nat → List Bool
  | 0 => []
  | k + 1 => v.getLsbD k :: bitsMsb v k

/-- The byte of eight bits, the first of them bit 7 (41_bitwriter R109). -/
def packByte (bits : List Bool) : Byte :=
  BitVec.ofNat 8 (bits.foldl (fun acc b => 2 * acc + b.toNat) 0)

/-- The first `k` bytes of a bit sequence (41_bitwriter R109). -/
def packBytes : Nat → List Bool → List Byte
  | 0, _ => []
  | k + 1, bits => packByte (bits.take 8) :: packBytes k (bits.drop 8)

/-! ### The bit-writer's primitives (41_bitwriter R108, R109, R113) -/

/-- `Emit(byte)` and the count of it (20_memory R60, 41_bitwriter R109). -/
def emitByte (s : State) (b : Byte) : State :=
  { s with sink := s.sink ++ [b], bwBytes := s.bwBytes + 1 }

/-- `FlushWhole()` (R109): every complete byte of the cache is emitted, the partial byte kept. -/
def flushWhole (s : State) : State :=
  let k := s.cache.length / 8
  { (packBytes k s.cache).foldl emitByte s with cache := s.cache.drop (8 * k) }

/-- `AppendBit(b)` (R108): a full cache is flushed before it accepts the bit. -/
def appendBit (s : State) (b : Bool) : State :=
  let s' := if s.cache.length = Config.cacheBits then flushWhole s else s
  { s' with cache := s'.cache ++ [b] }

/-- AppendBit of each bit in order. -/
def appendBits (s : State) (bits : List Bool) : State := bits.foldl appendBit s

/-- `EmitCode(code, len)` (R113). -/
def emitCode (s : State) (code : Word) (len : Nat) : State := appendBits s (bitsMsb code len)

/-! ### Error capture and clear (60_exceptions R152, R155) -/

/-- `Capture(code, src, info)` (R152): the first error since the last clear is kept. -/
def capture (code : ErrCode) (src : Bool) (info : Word) (s : State) : State :=
  if s.err then s
  else { s with err := true, errCode := code, errSrc := src, errInfo := info }

/-- ERR_CLR (40_control R95, R155). -/
def clearError (s : State) : State :=
  { s with err := false, errCode := .none, errSrc := false, errInfo := 0 }

/-! ### How a command ends (00_scope R12, 40_control R97, R101, 60_exceptions R157) -/

/-- The end of one command: done, or it raised an error (with the one effect a rule may name), or it
read an unwritten element. -/
inductive CmdEnd where
  | done (s : State)
  | raised (code : ErrCode) (s : State)
  | uninit (mem : MemId) (index : Nat)
deriving DecidableEq, Repr

/-- What the engine makes of it (R97): a raise is captured with the command word as information; an
unwritten read is the fault UNINIT. The word is the command's encoding (log entry 4). -/
def commit (w : Word) : CmdEnd → Host.Outcome State Fault Refusal
  | .done s => .next s
  | .raised code s => .next (capture code false w s)
  | .uninit mem i => .fault (.uninit mem i)

/-- STATUS.BUSY: a command is pending (10_state R28, R48). -/
def State.busy (s : State) : Bool := s.pend.isSome

/-- The end of the engine's completion step (40_control R97): nothing is pending, BUSY is 0. -/
def State.complete (s : State) : State := { s with pend := none }

end Sys2Proof.Machine
end

