-- ==== Sys2Proof/Machine/Flags.lean ====
section
/-! DEFINITION. The status, error and configuration registers as the host reads them. -/

namespace Sys2Proof.Machine

/-- The number of an error code (60_exceptions R147). -/
def ErrCode.number : ErrCode → BitVec 4
  | .none => 0
  | .invalidArgument => 1
  | .closedWriter => 2
  | .encodingFailed => 3
  | .internalConsistency => 4
  | .busy => 5
  | .illegalCommand => 6
  | .sequence => 7

/-- STATUS (10_state R27): BWT_VALID, BOOK_VALID, BW_CLOSED, ERR, BUSY in bits 4 to 0. -/
def State.statusWord (s : State) : Word :=
  0#27 ++ BitVec.ofBool s.bwtValid ++ BitVec.ofBool s.bookValid ++ BitVec.ofBool s.bwClosed ++
    BitVec.ofBool s.err ++ BitVec.ofBool s.busy

/-- ERRCODE (10_state R33): SRC in bit 8, CODE in bits [3:0]. -/
def State.errCodeWord (s : State) : Word :=
  0#23 ++ BitVec.ofBool s.errSrc ++ 0#4 ++ s.errCode.number

/-- CFG (10_state R35): TIE in bit 8, BLOCK_SIZE in bits [3:0]. -/
def State.cfgWord (s : State) : Word :=
  0#23 ++ BitVec.ofBool s.tie ++ 0#4 ++ s.blockSize

/-- PARAM (10_state R25): MAX_ALPHABET, CACHE_BITS / 8, MAX_CODE_LEN. -/
def paramWord : Word :=
  BitVec.ofNat 16 Config.maxAlphabet ++ BitVec.ofNat 8 (Config.cacheBits / 8) ++
    BitVec.ofNat 8 Config.maxCodeLen

/-- ID (10_state R24): "bz2w". -/
def idWord : Word := 0x627A3277

/-- BW_NBITS (10_state R40): the number of bits in the cache. -/
def State.nbitsWord (s : State) : Word := BitVec.ofNat 32 s.cache.length

end Sys2Proof.Machine
end

