-- ==== Sys2Proof/WellFormed.lean ====
section
/-! DEFINITION. The immediates an instruction word can carry (30_encoding R82, R91, R94). -/

namespace Sys2Proof

/-- `count` is a 6-bit number and `sym` a 9-bit number (R82); the assembler refuses others (R94). -/
def Instr.wellFormed : Instr → Bool
  | .nop => true
  | .bwBit _ => true
  | .bwBits count => decide (count < 64)
  | .bwFlush => true
  | .bwClose => true
  | .bwOpen => true
  | .bwtRun => true
  | .hcount => true
  | .hbuild => true
  | .hencSym sym => decide (sym < 512)
  | .hencRun => true

end Sys2Proof
end

