-- ==== Sys2Proof/Decode.lean ====
section
/-! DEFINITION. The decoder, total on 32-bit words (30_encoding R86), and the encoder (R81, R85). -/

namespace Sys2Proof

/-- Why a word is illegal (30_encoding R87): a reserved opcode, or a reserved operand bit set. -/
inductive Illegal where
  | reservedOpcode (opc : BitVec 8)
  | reservedOperandBits (opc : BitVec 8)
deriving DecidableEq, Repr

/-- OPC = W[31:24] (R80). -/
def opcodeOf (w : Word) : BitVec 8 := w.extractLsb' 24 8

/-- OPD = W[23:0] (R80). -/
def operandOf (w : Word) : BitVec 24 := w.extractLsb' 0 24

/-- A command whose must-be-zero operand bits are `mbz` (R81), refused by name if any is set (R83). -/
def checkReserved {n : Nat} (opc : BitVec 8) (mbz : BitVec n) (i : Instr) : Except Illegal Instr :=
  if mbz = 0 then .ok i else .error (.reservedOperandBits opc)

/-- The decode function of R86. -/
def decode (w : Word) : Except Illegal Instr :=
  let opc := opcodeOf w
  let opd := operandOf w
  match opc.toNat with
  | 0x00 => checkReserved opc opd .nop
  | 0x01 => checkReserved opc (w.extractLsb' 1 23) (.bwBit (w.getLsbD 0))
  | 0x02 => checkReserved opc (w.extractLsb' 6 18) (.bwBits (w.extractLsb' 0 6).toNat)
  | 0x03 => checkReserved opc opd .bwFlush
  | 0x04 => checkReserved opc opd .bwClose
  | 0x05 => checkReserved opc opd .bwOpen
  | 0x10 => checkReserved opc opd .bwtRun
  | 0x20 => checkReserved opc opd .hcount
  | 0x21 => checkReserved opc opd .hbuild
  | 0x22 => checkReserved opc (w.extractLsb' 9 15) (.hencSym (w.extractLsb' 0 9).toNat)
  | 0x23 => checkReserved opc opd .hencRun
  | _ => .error (.reservedOpcode opc)

/-- Format N (R81): opcode, then 24 zero bits. -/
def encodeN (opc : BitVec 8) : Word := opc ++ 0#24

/-- Format B (R81): opcode, 23 zero bits, b. -/
def encodeB (opc : BitVec 8) (b : Bool) : Word := opc ++ (0#23 ++ BitVec.ofBool b)

/-- Format C (R81): opcode, 18 zero bits, the 6-bit count. -/
def encodeC (opc : BitVec 8) (count : Nat) : Word := opc ++ (0#18 ++ BitVec.ofNat 6 count)

/-- Format S (R81): opcode, 15 zero bits, the 9-bit symbol. -/
def encodeS (opc : BitVec 8) (sym : Nat) : Word := opc ++ (0#15 ++ BitVec.ofNat 9 sym)

/-- The word of a command (R81, R85, R91). -/
def encode : Instr → Word
  | .nop => encodeN 0x00#8
  | .bwBit b => encodeB 0x01#8 b
  | .bwBits count => encodeC 0x02#8 count
  | .bwFlush => encodeN 0x03#8
  | .bwClose => encodeN 0x04#8
  | .bwOpen => encodeN 0x05#8
  | .bwtRun => encodeN 0x10#8
  | .hcount => encodeN 0x20#8
  | .hbuild => encodeN 0x21#8
  | .hencSym sym => encodeS 0x22#8 sym
  | .hencRun => encodeN 0x23#8

/-- What the decoder reads from an instruction of `nbits` bits with value `w`. A command is one
32-bit word written whole to CMD (R80, 20_memory R56), so no byte order arises. -/
def decodeTableWord (nbits w : Nat) : Option Instr :=
  match decode (BitVec.ofNat 32 (w % 2 ^ nbits)) with
  | .ok i => some i
  | .error _ => none

end Sys2Proof
end

