-- ==== Sys2Proof/Machine/Operands.lean ====
section
/-! DEFINITION. The operand forms of 30_encoding R84 and 40_control R104. -/

namespace Sys2Proof.Machine

/-- a0: the ARG0 value latched at acceptance (10_state R48). With nothing pending there is no latch and
the register itself is read: DESIGN CHOICE, safe, no step runs a command then (log entry 3). -/
def State.a0 (s : State) : Word :=
  match s.pend with
  | some p => p.a0
  | none => s.arg0

/-- a1: the ARG1 value latched at acceptance (10_state R48); as for a0 (log entry 3). -/
def State.a1 (s : State) : Word :=
  match s.pend with
  | some p => p.a1
  | none => s.arg1

/-- CAP = 100 000 x CFG.BLOCK_SIZE bytes (00_scope R6). -/
def State.capacity (s : State) : Nat := Config.blockUnit * s.blockSize.toNat

/-- An alphabet size that R129 (43_huffman) refuses. -/
def badAlphabet (n : Nat) : Bool := decide (n < 2) || decide (Config.maxAlphabet < n)

/-- What reading a run of SYM_MEM gives: its symbols, a symbol at or above the bound, or the index of
an unwritten element. -/
inductive Scan where
  | symbols (syms : List Nat)
  | tooBig
  | unwritten (index : Nat)
deriving DecidableEq, Repr

/-- The checking loop of HCOUNT and HENC_RUN (43_huffman R130, R145): the symbols at indices `i` to
`i + count - 1`, in ascending order, stopping at the first one that is unwritten or not below
`bound` (log entry 8). -/
def scanSymbols (m : Mem 9) (bound : Nat) (i : Nat) : Nat → Scan
  | 0 => .symbols []
  | k + 1 =>
    match Mem.read m i with
    | none => .unwritten i
    | some v =>
      if bound ≤ v.toNat then .tooBig
      else
        match scanSymbols m bound (i + 1) k with
        | .symbols syms => .symbols (v.toNat :: syms)
        | .tooBig => .tooBig
        | .unwritten j => .unwritten j

end Sys2Proof.Machine
end

