-- ==== Sys2Proof/Machine/BitWriter.lean ====
section
/-! DEFINITION. The bit-writer family (41_bitwriter). -/

namespace Sys2Proof.Machine

/-- BW_BIT's rule (R110). -/
def runBwBit (b : Bool) (s : State) : CmdEnd :=
  if s.bwClosed then .raised .closedWriter s
  else .done (appendBit s b)

/-- BW_BITS's rule (R111, R112): the low `count` bits of a0, highest first. -/
def runBwBits (count : Nat) (s : State) : CmdEnd :=
  if s.bwClosed then .raised .closedWriter s
  else if Config.maxWriteBits < count then .raised .invalidArgument s
  else .done (appendBits s (bitsMsb s.a0 count))

/-- BW_FLUSH's rule (R114). -/
def runBwFlush (s : State) : CmdEnd :=
  if s.bwClosed then .raised .closedWriter s
  else .done (flushWhole s)

/-- The number of padding bits BW_CLOSE adds (R115). -/
def padBits (len : Nat) : Nat := (8 - len % 8) % 8

/-- BW_CLOSE's rule (R115): zero-pad to a byte, emit everything, close. -/
def runBwClose (s : State) : CmdEnd :=
  if s.bwClosed then .raised .closedWriter s
  else
    let padded := { s with cache := s.cache ++ List.replicate (padBits s.cache.length) false }
    .done { flushWhole padded with bwClosed := true }

/-- BW_OPEN's rule (R116). -/
def runBwOpen (s : State) : CmdEnd :=
  if s.bwClosed then .done { s with bwClosed := false, bwBytes := 0 }
  else .raised .sequence s

/-- BW_BIT. -/
def execBwBit (b : Bool) (s : State) : Host.Outcome State Fault Refusal :=
  commit (encode (.bwBit b)) (runBwBit b s)

/-- BW_BITS. -/
def execBwBits (count : Nat) (s : State) : Host.Outcome State Fault Refusal :=
  commit (encode (.bwBits count)) (runBwBits count s)

/-- BW_FLUSH. -/
def execBwFlush (s : State) : Host.Outcome State Fault Refusal :=
  commit (encode .bwFlush) (runBwFlush s)

/-- BW_CLOSE. -/
def execBwClose (s : State) : Host.Outcome State Fault Refusal :=
  commit (encode .bwClose) (runBwClose s)

/-- BW_OPEN. -/
def execBwOpen (s : State) : Host.Outcome State Fault Refusal :=
  commit (encode .bwOpen) (runBwOpen s)

end Sys2Proof.Machine
end

