-- ==== Sys2Proof/Machine/Bwt.lean ====
section
/-! DEFINITION. The Burrows-Wheeler family (42_bwt). -/

namespace Sys2Proof.Machine

/-- Rotation `i` of a block (R121): B(i), B(i + 1), …, wrapping at the end. -/
def rotation (block : List Byte) (i : Nat) : List Byte := block.drop i ++ block.take i

/-- Lexicographic order of byte sequences, bytes unsigned (00_scope R14). -/
def lexLt : List Byte → List Byte → Bool
  | a :: u, b :: v => decide (a.toNat < b.toNat) || (decide (a = b) && lexLt u v)
  | [], _ => false
  | _ :: _, [] => false

/-- The rotation order (R121): i comes before j. Equal rotations go by ascending start index. -/
def rotBefore (block : List Byte) (i j : Nat) : Bool :=
  lexLt (rotation block i) (rotation block j) ||
    (decide (rotation block i = rotation block j) && decide (i < j))

/-- The permutation P of R123: the indices 0 to n - 1 in rotation order. Any sorting method gives it
(R127); this one is insertion sort. -/
def sortRotations (block : List Byte) : List Nat :=
  (List.range block.length).insertionSort fun i j => (decide (i = j) || rotBefore block i j) = true

/-- The last byte of rotation `i` (R123). -/
def lastByte (block : List Byte) (i : Nat) : Byte :=
  block.getD ((i + block.length - 1) % block.length) 0

/-- The last column of the sorted rotations (R123). -/
def lastColumn (block : List Byte) : List Byte := (sortRotations block).map (lastByte block)

/-- The rank of rotation 0 (R123, R124). -/
def originIndex (block : List Byte) : Nat := (sortRotations block).idxOf 0

/-- BWT_RUN's rule (R122, R123, R128). -/
def runBwtRun (s : State) : CmdEnd :=
  let n := s.a0.toNat
  if n < 1 ∨ s.capacity < n then .raised .invalidArgument s
  else
    match Mem.readRange s.blkMem 0 n with
    | .error i => .uninit .blkMem i
    | .ok block =>
      .done { s with
        bwtOut := Mem.writeFrom s.bwtOut 0 (lastColumn block)
        bwtOrigin := BitVec.ofNat 32 (originIndex block)
        bwtLen := BitVec.ofNat 32 n
        bwtValid := true }

/-- BWT_RUN. -/
def execBwtRun (s : State) : Host.Outcome State Fault Refusal :=
  commit (encode .bwtRun) (runBwtRun s)

end Sys2Proof.Machine
end

