-- ==== Sys2Proof/Machine/Control.lean ====
section
/-! DEFINITION. The control family: NOP (40_control R98). -/

namespace Sys2Proof.Machine

/-- NOP's rule (R98): no operation. -/
def runNop (s : State) : CmdEnd := .done s

/-- NOP. -/
def execNop (s : State) : Host.Outcome State Fault Refusal := commit (encode .nop) (runNop s)

end Sys2Proof.Machine
end

