-- ==== Sys2Proof/Machine/Huffman.lean ====
section
/-! DEFINITION. The Huffman family (43_huffman): counting, the code builder, the encoder. -/

namespace Sys2Proof.Machine

/-! ### Tree construction (R131 to R135) -/

/-- A Huffman tree: a leaf is a symbol, an internal node has two children (00_scope R16). -/
inductive HuffTree where
  | leaf (sym : Nat)
  | node (left right : HuffTree)
deriving DecidableEq, Repr

/-- A node of the list L: its exact frequency (R141) and its tree. -/
structure HuffNode where
  freq : Nat
  tree : HuffTree
deriving DecidableEq, Repr

/-- The leaves of R131, one per symbol in ascending symbol order. -/
def huffLeaves (freqs : List Nat) : List HuffNode :=
  freqs.zipIdx.map fun c => { freq := c.1, tree := .leaf c.2 }

/-- The initial order of R132: ascending frequency, equal frequencies in ascending symbol order.
The sort is stable, and the leaves come in ascending symbol order. -/
def huffInitial (freqs : List Nat) : List HuffNode :=
  (huffLeaves freqs).insertionSort fun a b => a.freq ≤ b.freq

/-- The insertion position of R134: TIE = 0 after, TIE = 1 before all nodes of equal frequency. -/
def huffPos (tie : Bool) (z : HuffNode) (nodes : List HuffNode) : Nat :=
  if tie then nodes.countP fun e => decide (e.freq < z.freq)
  else nodes.countP fun e => decide (e.freq ≤ z.freq)

/-- The insertion of R134. -/
def huffInsert (tie : Bool) (z : HuffNode) (nodes : List HuffNode) : List HuffNode :=
  let pos := huffPos tie z nodes
  nodes.take pos ++ [z] ++ nodes.drop pos

/-- The internal node of R133. -/
def huffJoin (x y : HuffNode) : HuffNode := { freq := x.freq + y.freq, tree := .node x.tree y.tree }

/-- `steps` merges of R133, or fewer where one node is left. -/
def huffMerge (tie : Bool) : Nat → List HuffNode → List HuffNode
  | 0, nodes => nodes
  | k + 1, x :: y :: rest => huffMerge tie k (huffInsert tie (huffJoin x y) rest)
  | _ + 1, nodes => nodes

/-- The leaves of a tree with their depths (R135), `d` being the depth of its root. -/
def HuffTree.depths (d : Nat) : HuffTree → List (Nat × Nat)
  | .leaf s => [(s, d)]
  | .node l r => HuffTree.depths (d + 1) l ++ HuffTree.depths (d + 1) r

/-- The depth recorded for symbol `s`. -/
def depthOf (s : Nat) : List (Nat × Nat) → Nat
  | [] => 0
  | (t, d) :: rest => if s = t then d else depthOf s rest

/-- The leaf depths of the finished tree: N leaves take N - 1 merges (R133). -/
def huffDepths (tie : Bool) (freqs : List Nat) : List (Nat × Nat) :=
  match huffMerge tie (freqs.length - 1) (huffInitial freqs) with
  | root :: _ => root.tree.depths 0
  | [] => []

/-- The code lengths len(0), …, len(N - 1) (R135). -/
def huffLengths (tie : Bool) (freqs : List Nat) : List Nat :=
  let depths := huffDepths tie freqs
  (List.range freqs.length).map fun s => depthOf s depths

/-- maxlen (R135). -/
def maxLen (lens : List Nat) : Nat := lens.foldl max 0

/-! ### Canonical codes (R136) -/

/-- The inner loop of R136 at depth `d`, over symbols `s`, `s + 1`, … with these lengths: the running
code and the codes given so far. -/
def assignDepth (d : Nat) : List Nat → Nat → Nat × List Nat → Nat × List Nat
  | [], _, acc => acc
  | len :: lens, s, (code, codes) =>
    if len = d then assignDepth d lens (s + 1) (code + 1, codes.set s code)
    else assignDepth d lens (s + 1) (code, codes)

/-- The outer loop of R136 over depths `d`, `d + 1`, …, `k` of them. -/
def assignDepths (lens : List Nat) (d : Nat) : Nat → Nat × List Nat → Nat × List Nat
  | 0, acc => acc
  | k + 1, acc =>
    let after := assignDepth d lens 0 acc
    assignDepths lens (d + 1) k (2 * after.1, after.2)

/-- The codes C(0), …, C(N - 1) (R136): the running code starts at 0 at depth 1. -/
def canonicalCodes (lens : List Nat) : List Nat :=
  (assignDepths lens 1 (maxLen lens) (0, List.replicate lens.length 0)).2

/-! ### The commands -/

/-- The counts F(0), …, F(N - 1) of R130. -/
def countSymbols (n : Nat) (syms : List Nat) : List Nat :=
  (List.range n).map fun s => syms.count s

/-- HCOUNT's rule (R129, R130, R146). -/
def runHcount (s : State) : CmdEnd :=
  let m := s.a0.toNat
  let n := s.a1.toNat
  if badAlphabet n then .raised .invalidArgument s
  else if Config.symCap < m then .raised .invalidArgument s
  else
    match scanSymbols s.symMem n 0 m with
    | .tooBig => .raised .invalidArgument s
    | .unwritten i => .uninit .symMem i
    | .symbols syms =>
      .done { s with freqMem := Mem.writeFrom s.freqMem 0 ((countSymbols n syms).map (BitVec.ofNat 32)) }

/-- The successful end of HBUILD (R137): the book of these lengths. -/
def writeBook (n : Nat) (lens : List Nat) (s : State) : State :=
  { s with
    bookCode := Mem.writeFrom s.bookCode 0 ((canonicalCodes lens).map (BitVec.ofNat 32))
    bookLen := Mem.writeFrom s.bookLen 0 (lens.map (BitVec.ofNat 6))
    bookN := BitVec.ofNat 9 n
    bookMaxlen := BitVec.ofNat 6 (maxLen lens)
    bookValid := true }

/-- HBUILD's rule (R129, R131 to R138, R146). -/
def runHbuild (s : State) : CmdEnd :=
  let n := s.a0.toNat
  if badAlphabet n then .raised .invalidArgument s
  else
    match Mem.readRange s.freqMem 0 n with
    | .error i => .uninit .freqMem i
    | .ok freqs =>
      let lens := huffLengths s.tie (freqs.map BitVec.toNat)
      if Config.maxCodeLen < maxLen lens then .raised .encodingFailed { s with bookValid := false }
      else .done (writeBook n lens s)

/-- EmitCode of each symbol's book entry in order (R143, R145); a missing entry is UNINIT (R146). -/
def encodeSymbols : List Nat → State → CmdEnd
  | [], s => .done s
  | sym :: syms, s =>
    match Mem.read s.bookCode sym with
    | none => .uninit .bookCode sym
    | some code =>
      match Mem.read s.bookLen sym with
      | none => .uninit .bookLen sym
      | some len => encodeSymbols syms (emitCode s code len.toNat)

/-- HENC_SYM's rule (R142, R143). -/
def runHencSym (sym : Nat) (s : State) : CmdEnd :=
  if s.bwClosed then .raised .closedWriter s
  else if !s.bookValid then .raised .sequence s
  else if s.bookN.toNat ≤ sym then .raised .invalidArgument s
  else encodeSymbols [sym] s

/-- HENC_RUN's rule (R142, R144, R145): start + count is exact. -/
def runHencRun (s : State) : CmdEnd :=
  let start := s.a0.toNat
  let count := s.a1.toNat
  if s.bwClosed then .raised .closedWriter s
  else if !s.bookValid then .raised .sequence s
  else if Config.symCap < start + count then .raised .invalidArgument s
  else
    match scanSymbols s.symMem s.bookN.toNat start count with
    | .tooBig => .raised .invalidArgument s
    | .unwritten i => .uninit .symMem i
    | .symbols syms => encodeSymbols syms s

/-- HCOUNT. -/
def execHcount (s : State) : Host.Outcome State Fault Refusal :=
  commit (encode .hcount) (runHcount s)

/-- HBUILD. -/
def execHbuild (s : State) : Host.Outcome State Fault Refusal :=
  commit (encode .hbuild) (runHbuild s)

/-- HENC_SYM. -/
def execHencSym (sym : Nat) (s : State) : Host.Outcome State Fault Refusal :=
  commit (encode (.hencSym sym)) (runHencSym sym s)

/-- HENC_RUN. -/
def execHencRun (s : State) : Host.Outcome State Fault Refusal :=
  commit (encode .hencRun) (runHencRun s)

end Sys2Proof.Machine
end

