-- ==== Sys2Proof/Machine/Run.lean ====
section
/-! DEFINITION. The rule of each command, before its end is committed, and the bytes a pending one emits: what the
sink and a reset need to know before it completes. -/

namespace Sys2Proof.Machine

/-- The rule of a command (30_encoding R85), without the capture of its error. -/
def runCmd (i : Instr) (s : State) : CmdEnd :=
  match i with
  | .nop => runNop s
  | .bwBit b => runBwBit b s
  | .bwBits count => runBwBits count s
  | .bwFlush => runBwFlush s
  | .bwClose => runBwClose s
  | .bwOpen => runBwOpen s
  | .bwtRun => runBwtRun s
  | .hcount => runHcount s
  | .hbuild => runHbuild s
  | .hencSym sym => runHencSym sym s
  | .hencRun => runHencRun s

/-- The bytes by which the sink of `t` is longer than that of `s`. -/
def newBytes (s t : State) : List Byte := t.sink.drop s.sink.length

/-- The bytes the pending command emits when it completes (20_memory R60, R66): none where none is pending,
where its word is illegal, or where it raises an error or faults. -/
def pendingBytes (s : State) : List Byte :=
  match s.pend with
  | none => []
  | some p =>
    match decode p.word with
    | .error _ => []
    | .ok i =>
      match runCmd i s with
      | .done t => newBytes s t
      | .raised _ _ => []
      | .uninit _ _ => []

end Sys2Proof.Machine
end

