-- ==== Sys2Proof/Machine/Reset.lean ====
section
/-! DEFINITION. Hard reset, soft reset and the abort of a pending command (70_reset R166 to R171). -/

namespace Sys2Proof.Machine

/-- `count` elements from index `i`, each unwritten one filled by `f`. -/
def fillRange {w : Nat} (f : Nat → BitVec w) (m : Mem w) (i : Nat) : Nat → Mem w
  | 0 => m
  | k + 1 =>
    match Mem.read m i with
    | some _ => fillRange f m (i + 1) k
    | none => fillRange f (Mem.write m i (f i)) (i + 1) k

/-- The memory contents an aborted command may have worked on: what it reads and nothing has written
holds an unspecified value (10_state R49), here a free value (log entry 11). -/
def fillInputs (i : Instr) (s : State) : State :=
  let free (mem : MemId) (w k : Nat) : BitVec w := (Config.freeCell s.draws mem k).setWidth w
  let books (t : State) : State :=
    { t with
      bookCode := fillRange (free .bookCode 32) t.bookCode 0 t.bookN.toNat
      bookLen := fillRange (free .bookLen 6) t.bookLen 0 t.bookN.toNat }
  match i with
  | .nop => s
  | .bwBit _ => s
  | .bwBits _ => s
  | .bwFlush => s
  | .bwClose => s
  | .bwOpen => s
  | .bwtRun => { s with blkMem := fillRange (free .blkMem 8) s.blkMem 0 s.a0.toNat }
  | .hcount => { s with symMem := fillRange (free .symMem 9) s.symMem 0 s.a0.toNat }
  | .hbuild => { s with freqMem := fillRange (free .freqMem 32) s.freqMem 0 s.a0.toNat }
  | .hencSym _ => books s
  | .hencRun => books { s with symMem := fillRange (free .symMem 9) s.symMem s.a0.toNat s.a1.toNat }

/-- How the aborted command would have ended (R171). -/
def abortedEnd (i : Instr) (s : State) : CmdEnd :=
  match runCmd i s with
  | .uninit _ _ => runCmd i (fillInputs i s)
  | .done t => .done t
  | .raised code t => .raised code t

/-- The elements a successful command writes become unwritten (R171). -/
def unwriteTargets (i : Instr) (s : State) : State :=
  match i with
  | .nop => s
  | .bwBit _ => s
  | .bwBits _ => s
  | .bwFlush => s
  | .bwClose => s
  | .bwOpen => s
  | .bwtRun => { s with bwtOut := Mem.unwrite s.bwtOut s.a0.toNat }
  | .hcount => { s with freqMem := Mem.unwrite s.freqMem s.a1.toNat }
  | .hbuild =>
    { s with
      bookCode := Mem.unwrite s.bookCode s.a0.toNat
      bookLen := Mem.unwrite s.bookLen s.a0.toNat }
  | .hencSym _ => s
  | .hencRun => s

/-- The sink takes the first of these bytes, which an aborted command would still have emitted: how many is a
free value, from none to all (R171, log entry 10). -/
def sinkTakesSome (bytes : List Byte) (s : State) : State :=
  { s with sink := s.sink ++ bytes.take (Config.freeLength s.draws % (bytes.length + 1)) }

/-- The abort of the pending command, if there is one (R171). A command that would have raised an error
would have written and emitted nothing (40_control R101, log entry 12). -/
def abortCommand (s : State) : State :=
  match s.pend with
  | none => s
  | some p =>
    match decode p.word with
    | .error _ => s
    | .ok i =>
      match abortedEnd i s with
      | .done t =>
        { unwriteTargets i (sinkTakesSome ((newBytes s t).drop p.sent) s) with draws := s.draws + 1 }
      | .raised _ _ => { s with draws := s.draws + 1 }
      | .uninit _ _ => { s with draws := s.draws + 1 }

/-- R167: every register, flag, the cache and the latch at their reset values; memories, the sink and
the model's own fields are kept (log entry 22). -/
def resetRegisters (s : State) : State :=
  { State.reset with
    blkMem := s.blkMem
    bwtOut := s.bwtOut
    symMem := s.symMem
    freqMem := s.freqMem
    bookCode := s.bookCode
    bookLen := s.bookLen
    sink := s.sink
    sinkStall := s.sinkStall
    events := s.events
    reply := s.reply
    draws := s.draws }

/-- `SoftReset()` (R170, R171). -/
def softReset (s : State) : State := resetRegisters (abortCommand s)

/-- A hard reset (R168): as a soft one, and every memory element is unwritten. -/
def hardReset (s : State) : State :=
  { softReset s with
    blkMem := []
    bwtOut := []
    symMem := []
    freqMem := []
    bookCode := []
    bookLen := [] }

end Sys2Proof.Machine
end

