-- ==== Sys2Proof/Machine/Bus.lean ====
section
/-! DEFINITION. Host bus accesses: the address map, register and element access, and the writes that act
(20_memory R53 to R59, 40_control R95 to R100, 70_reset R178). -/

namespace Sys2Proof.Machine

/-- The sixteen registers of 10_state R22, in offset order. -/
inductive Reg where
  | id | param | ctrl | status | errcode | errinfo | cfg | cmd
  | arg0 | arg1 | bwtOrigin | bwtLen | bookN | bookMaxlen | bwNbits | bwBytes
deriving DecidableEq, Repr

/-- What an aligned offset addresses (20_memory R54). -/
inductive Target where
  | reg (r : Reg)
  | reserved
  | cell (mem : MemId) (index : Nat)
  | unmapped
deriving DecidableEq, Repr

/-- R53: host address A maps to offset A - BASE, of which bits [23:0] are decoded (log entry 6). -/
def hostOffset (address : Nat) : Offset := BitVec.ofInt 24 ((address : Int) - (Config.base : Int))

/-- The register at a byte offset below 0x1000 (10_state R22), none where reserved. -/
def regAt : Nat → Option Reg
  | 0x000 => some .id
  | 0x004 => some .param
  | 0x008 => some .ctrl
  | 0x00C => some .status
  | 0x010 => some .errcode
  | 0x014 => some .errinfo
  | 0x018 => some .cfg
  | 0x01C => some .cmd
  | 0x020 => some .arg0
  | 0x024 => some .arg1
  | 0x028 => some .bwtOrigin
  | 0x02C => some .bwtLen
  | 0x030 => some .bookN
  | 0x034 => some .bookMaxlen
  | 0x038 => some .bwNbits
  | 0x03C => some .bwBytes
  | _ => none

/-- The window offset of a memory (20_memory R54). -/
def windowBase : MemId → Nat
  | .freqMem => 0x001000
  | .bookCode => 0x002000
  | .bookLen => 0x003000
  | .blkMem => 0x400000
  | .bwtOut => 0x800000
  | .symMem => 0xC00000

/-- The memories the host may write (20_memory R54, R55). -/
def writableMem : MemId → Bool
  | .blkMem => true
  | .symMem => true
  | .freqMem => true
  | .bwtOut => false
  | .bookCode => false
  | .bookLen => false

/-- Whether a byte offset lies in a memory's window (20_memory R54, R57). -/
def inWindow (o : Nat) (mem : MemId) : Bool :=
  decide (windowBase mem ≤ o) && decide (o < windowBase mem + 4 * memSize mem)

/-- The address map of R54, with the element index of R72. -/
def targetOf (off : Offset) : Target :=
  let o := off.toNat
  if o < 0x1000 then
    match regAt o with
    | some r => .reg r
    | none => .reserved
  else
    match [MemId.freqMem, .bookCode, .bookLen, .blkMem, .bwtOut, .symMem].find? (inWindow o) with
    | some mem => .cell mem ((o - windowBase mem) / 4)
    | none => .unmapped

/-- An access with offset[1:0] not 0 or fewer than four byte lanes (20_memory R56, R57). -/
def badForm (a : Access) : Bool := decide (a.off.toNat % 4 ≠ 0) || decide (a.lanes ≠ 15)

/-- The value of a register (10_state R24 to R40); CTRL and CMD read 0. -/
def State.readReg (s : State) : Reg → Word
  | .id => idWord
  | .param => paramWord
  | .ctrl => 0
  | .status => s.statusWord
  | .errcode => s.errCodeWord
  | .errinfo => s.errInfo
  | .cfg => s.cfgWord
  | .cmd => 0
  | .arg0 => s.arg0
  | .arg1 => s.arg1
  | .bwtOrigin => s.bwtOrigin
  | .bwtLen => s.bwtLen
  | .bookN => s.bookN.setWidth 32
  | .bookMaxlen => s.bookMaxlen.setWidth 32
  | .bwNbits => s.nbitsWord
  | .bwBytes => s.bwBytes

/-- The result registers, whose reads are unspecified while a command runs (20_memory R59). -/
def resultReg : Reg → Bool
  | .bwtOrigin => true
  | .bwtLen => true
  | .bookN => true
  | .bookMaxlen => true
  | .bwNbits => true
  | .bwBytes => true
  | .id => false
  | .param => false
  | .ctrl => false
  | .status => false
  | .errcode => false
  | .errinfo => false
  | .cfg => false
  | .cmd => false
  | .arg0 => false
  | .arg1 => false

/-- A read that returns an unspecified word (R59): a free value (log entry 9). -/
def replyFree (s : State) : State :=
  { s with reply := .data (Config.freeRead s.draws), draws := s.draws + 1 }

/-- A host read (20_memory R55, R58, R59). DESIGN CHOICE, safe (log entry 25): for a read of an unwritten
element while BUSY is 1, where 10_state R49 orders the fault UNINIT and R59 a free draw, R59 decides; R49
decides the reads of an idle block. -/
def hostRead (t : Target) (s : State) : Host.Outcome State Fault Refusal :=
  match t with
  | .reg r =>
    if s.busy && resultReg r then .next (replyFree s) else .next { s with reply := .data (s.readReg r) }
  | .reserved => .next { s with reply := .data 0 }
  | .cell mem i =>
    if s.busy then .next (replyFree s)
    else
      match s.readCell mem i with
      | some v => .next { s with reply := .data v }
      | none => .fault (.uninit mem i)
  | .unmapped => .next { s with reply := .busError }

/-- The capture of a write rejected because a command is pending (70_reset R178). -/
def rejectBusy (off : Offset) (s : State) : State := capture .busy true (off.setWidth 32) s

/-- A write to CTRL (40_control R95). -/
def ctrlWrite (d : Word) (s : State) : State :=
  if d.getLsbD 0 then softReset s
  else if d.getLsbD 1 then clearError s
  else s

/-- A write to CFG (40_control R99). -/
def cfgWrite (off : Offset) (d : Word) (s : State) : State :=
  if s.busy then rejectBusy off s
  else
    let size := d.extractLsb' 0 4
    if size.toNat < 1 ∨ 9 < size.toNat then capture .invalidArgument true d s
    else { s with blockSize := size, tie := d.getLsbD 8 }

/-- A write to CMD (40_control R96): the word is accepted undecoded. -/
def cmdWrite (off : Offset) (d : Word) (s : State) : State :=
  if s.busy then rejectBusy off s
  else { s with pend := some { word := d, a0 := s.arg0, a1 := s.arg1 } }

/-- A write to ARG0 (40_control R100). -/
def arg0Write (off : Offset) (d : Word) (s : State) : State :=
  if s.busy then rejectBusy off s else { s with arg0 := d }

/-- A write to ARG1 (40_control R100). -/
def arg1Write (off : Offset) (d : Word) (s : State) : State :=
  if s.busy then rejectBusy off s else { s with arg1 := d }

/-- A write to a register (10_state R23): the read-only ones ignore it. -/
def regWrite (r : Reg) (off : Offset) (d : Word) (s : State) : State :=
  match r with
  | .ctrl => ctrlWrite d s
  | .cfg => cfgWrite off d s
  | .cmd => cmdWrite off d s
  | .arg0 => arg0Write off d s
  | .arg1 => arg1Write off d s
  | .id => s
  | .param => s
  | .status => s
  | .errcode => s
  | .errinfo => s
  | .bwtOrigin => s
  | .bwtLen => s
  | .bookN => s
  | .bookMaxlen => s
  | .bwNbits => s
  | .bwBytes => s

/-- A write to a memory element (20_memory R55, 70_reset R178). -/
def cellWrite (mem : MemId) (i : Nat) (off : Offset) (d : Word) (s : State) : State :=
  if writableMem mem then
    if s.busy then rejectBusy off s else s.writeCell mem i d
  else s

/-- A host write (20_memory R55, R57, R58); a reserved offset ignores it (10_state R23). -/
def hostWrite (t : Target) (off : Offset) (d : Word) (s : State) : State :=
  match t with
  | .reg r => { regWrite r off d s with reply := .done }
  | .reserved => { s with reply := .done }
  | .cell mem i => { cellWrite mem i off d s with reply := .done }
  | .unmapped => { s with reply := .busError }

/-- One host bus access (20_memory R55 to R59). A bus error changes no block state (R57)
and is decided first (log entry 20). -/
def busAccess (a : Access) (s : State) : Host.Outcome State Fault Refusal :=
  if badForm a then .next { s with reply := .busError }
  else
    match a.op with
    | .read => hostRead (targetOf a.off) s
    | .write d => .next (hostWrite (targetOf a.off) a.off d s)

end Sys2Proof.Machine
end

