-- ==== Sys2Proof/Machine/Dispatch.lean ====
section
/-! DEFINITION. One arm per command (30_encoding R85, 40_control R97: Exec). -/

namespace Sys2Proof.Machine

def exec (i : Instr) (s : State) : Host.Outcome State Fault Refusal :=
  match i with
  | .nop => Sys2Proof.Machine.execNop s
  | .bwBit b => Sys2Proof.Machine.execBwBit b s
  | .bwBits count => Sys2Proof.Machine.execBwBits count s
  | .bwFlush => Sys2Proof.Machine.execBwFlush s
  | .bwClose => Sys2Proof.Machine.execBwClose s
  | .bwOpen => Sys2Proof.Machine.execBwOpen s
  | .bwtRun => Sys2Proof.Machine.execBwtRun s
  | .hcount => Sys2Proof.Machine.execHcount s
  | .hbuild => Sys2Proof.Machine.execHbuild s
  | .hencSym sym => Sys2Proof.Machine.execHencSym sym s
  | .hencRun => Sys2Proof.Machine.execHencRun s

end Sys2Proof.Machine
end

