-- ==== Sys2Proof/Machine/Engine.lean ====
section
/-! DEFINITION. The engine's completion step, the agents' turns, and the placing of a command
(40_control R97, 00_scope R18, 20_memory R60, R64). -/

namespace Sys2Proof.Machine

/-- Exec of a word (40_control R97): the command it decodes to, or the capture of ILLEGAL_COMMAND. -/
def execWord (w : Word) (s : State) : Host.Outcome State Fault Refusal :=
  match decode w with
  | .error _ => .next (capture .illegalCommand false w s)
  | .ok i => exec i s

/-- The command's effect with its bytes, of which the sink accepted the first `sent` before (20_memory R60,
R66): only the others are appended now, so the sink holds each byte once and in order. -/
def deliver (sent : Nat) (s t : State) : State :=
  { t with sink := s.sink ++ (newBytes s t).drop sent }

/-- The end of the step (R97): nothing is pending. While the sink delays acceptance, a command with bytes
it has not accepted stays pending with none of its effect (20_memory R60, 70_reset R182; log entry 13). -/
def finishTurn (sent : Nat) (s : State) :
    Host.Outcome State Fault Refusal → Host.Outcome State Fault Refusal
  | .next t =>
    if 0 < s.sinkStall ∧ sent < (newBytes s t).length then .next { s with sinkStall := s.sinkStall - 1 }
    else .next (deliver sent s t).complete
  | .fault r => .fault r
  | .refused r => .refused r

/-- The engine's turn (R97): enabled while a command is pending, else nothing happens. All of
the command's effect but the bytes the sink accepted before is one turn (R63, log entry 14). -/
def engineTurn (s : State) : Host.Outcome State Fault Refusal :=
  match s.pend with
  | none => .next s
  | some p => finishTurn p.sent s (execWord p.word s)

/-- The sink accepts up to `count` further bytes of the pending command before it completes
(20_memory R66; log entry 14). -/
def sinkTakes (count : Nat) (s : State) : State :=
  match s.pend with
  | none => s
  | some p =>
    let bytes := ((pendingBytes s).drop p.sent).take count
    { s with sink := s.sink ++ bytes, pend := some { p with sent := p.sent + bytes.length } }

/-- One read of STATUS in the host's poll loop (00_scope R15): while BUSY reads 1 the loop goes on, the
engine having had a turn (40_control R106; log entry 19). -/
def pollTurn (s : State) : State :=
  if s.busy then
    { s with reply := .data s.statusWord, events := .engine :: .poll :: s.events }
  else { s with reply := .data s.statusWord }

/-- One event. -/
def runEvent (e : Event) (s : State) : Host.Outcome State Fault Refusal :=
  match e with
  | .access a => busAccess a s
  | .poll => .next (pollTurn s)
  | .engine => engineTurn s
  | .hardReset => .next (hardReset s)
  | .sinkStall turns => .next { s with sinkStall := turns }
  | .sinkTakes count => .next (sinkTakes count s)

/-- What moves next (20_memory R64; log entry 1): the oldest event, or the engine where there is none. -/
def advance (s : State) : Host.Outcome State Fault Refusal :=
  match s.events with
  | [] => engineTurn s
  | e :: es => runEvent e { s with events := es }

/-- A command as accepted (40_control R96), the engine's turn next and the sink accepting (log entry 2). -/
def placeCommand (s : State) (w : Word) : State :=
  { s with
    pend := some { word := w, a0 := s.arg0, a1 := s.arg1 }
    events := .engine :: s.events
    sinkStall := 0 }

end Sys2Proof.Machine
end

