-- ==== Sys2Proof/Machine/Step.lean ====
section
/-! DEFINITION. One step of the machine, and the state in which a given command runs next. -/

namespace Sys2Proof.Machine

/-- One step: the next agent's move (20_memory R64). -/
def step (s : State) : Host.Outcome State Fault Refusal := advance s

/-- `s` with the command of value `w` accepted, so that the very next step completes it (log entry 2). -/
def State.withFetchWord (s : State) (nbits w : Nat) : State :=
  placeCommand s (BitVec.ofNat 32 (w % 2 ^ nbits))

end Sys2Proof.Machine
end

