-- ==== Sys2Proof/Machine/Host.lean ====
section
/-! DEFINITION. The host's side: the pseudo-assembly of 30_encoding R91 to R94 and the container fields
whose layout the spec gives (20_memory R74, R75, R79). The block enforces none of it (log entry 23). -/

namespace Sys2Proof.Machine

/-- One line of a host program (R91 to R93). -/
inductive HostLine where
  | wr (off : Offset) (v : Word)
  | rd (off : Offset)
  | poll
  | mem (m : MemId) (i : Nat) (v : Word)
  | cmd (i : Instr)
  | word (w : Word)
  | put (v : Word) (n : Nat)
  | bwt (n : Word)
  | count (m n : Word)
  | build (n : Word)
  | encrun (start count : Word)
  | close
  | clrerr
  | sreset
deriving DecidableEq, Repr

/-- Why the assembler refuses a line (R94). -/
inductive AsmRefusal where
  | immediate
  | memoryIndex
  | readOnlyMemory
  | illegalWord
deriving DecidableEq, Repr

/-- A host write of one word. -/
def busWrite (off : Offset) (v : Word) : Event := .access { off := off, lanes := 15, op := .write v }

/-- A host read of one word. -/
def busRead (off : Offset) : Event := .access { off := off, lanes := 15, op := .read }

/-- The CMD write of a command (R91); an immediate outside its range is refused (R94). -/
def asmCommand (i : Instr) : Except AsmRefusal (List Event) :=
  if i.wellFormed then .ok [busWrite 0x01C (encode i)] else .error .immediate

/-- `poll`, the ARG writes given, the command, and the last `poll` where the expansion has one (R93). -/
def asmRun (args : List Event) (i : Instr) (last : List Event) : Except AsmRefusal (List Event) :=
  match asmCommand i with
  | .ok es => .ok (.poll :: (args ++ es ++ last))
  | .error r => .error r

/-- The `wr` of any word to any offset (R92), but for a word to CMD that decodes to Illegal: only `.word`
emits one (R94). -/
def asmWrite (off : Offset) (v : Word) : Except AsmRefusal (List Event) :=
  if off = 0x01C then
    match decode v with
    | .ok _ => .ok [busWrite off v]
    | .error _ => .error .illegalWord
  else .ok [busWrite off v]

/-- One line as bus accesses (R91 to R94). -/
def assemble : HostLine → Except AsmRefusal (List Event)
  | .wr off v => asmWrite off v
  | .rd off => .ok [busRead off]
  | .poll => .ok [.poll]
  | .mem m i v =>
    if !writableMem m then .error .readOnlyMemory
    else if memSize m ≤ i then .error .memoryIndex
    else .ok [busWrite (BitVec.ofNat 24 (windowBase m + 4 * i)) v]
  | .cmd i => asmCommand i
  | .word w => .ok [busWrite 0x01C w]
  | .put v n => asmRun [busWrite 0x020 v] (.bwBits n) []
  | .bwt n => asmRun [busWrite 0x020 n] .bwtRun [.poll]
  | .count m n => asmRun [busWrite 0x020 m, busWrite 0x024 n] .hcount [.poll]
  | .build n => asmRun [busWrite 0x020 n] .hbuild [.poll]
  | .encrun start count => asmRun [busWrite 0x020 start, busWrite 0x024 count] .hencRun [.poll]
  | .close => asmRun [] .bwClose [.poll]
  | .clrerr => .ok [busWrite 0x008 2]
  | .sreset => .ok [busWrite 0x008 1]

/-- A host program as bus accesses, refused if any line is. -/
def assembleAll : List HostLine → Except AsmRefusal (List Event)
  | [] => .ok []
  | l :: ls =>
    match assemble l, assembleAll ls with
    | .ok es, .ok rest => .ok (es ++ rest)
    | .error r, _ => .error r
    | .ok _, .error r => .error r

/-- The stream header (20_memory R74). -/
def streamHeader (blockSize : Word) : List HostLine := [.put (0x425A6800 + 0x30 + blockSize) 32]

/-- The block header (20_memory R75): magic, block CRC, randomized flag, origin pointer. -/
def blockHeader (crc origin : Word) : List HostLine :=
  [.put 0x31415926 32, .put 0x5359 16, .put crc 32, .put 0 1, .put origin Config.originBits]

/-- The stream end (20_memory R79): magic, combined CRC, padding by BW_CLOSE. -/
def streamEnd (crc : Word) : List HostLine :=
  [.put 0x17724538 32, .put 0x5090 16, .put crc 32, .close]

end Sys2Proof.Machine
end

