-- ==== Sys2Proof/Safety.lean ====
section
/-! DEFINITION. What a safe state is, and the vocabulary the statements use: the spec's own relations, written
apart from the functions that compute them. -/

namespace Sys2Proof.Safety

open Sys2Proof.Machine

/-! ### The opcode map as the spec tabulates it (30_encoding R85) -/

/-- A row of the opcode map. -/
structure OpRow where
  mnemonic : String
  pattern : Word
  mask : Word
deriving DecidableEq, Repr

/-- The eleven rows of R85. -/
def opcodeMap : List OpRow :=
  [ ⟨"NOP", 0x00000000, 0xFFFFFFFF⟩,
    ⟨"BW_BIT", 0x01000000, 0xFFFFFFFE⟩,
    ⟨"BW_BITS", 0x02000000, 0xFFFFFFC0⟩,
    ⟨"BW_FLUSH", 0x03000000, 0xFFFFFFFF⟩,
    ⟨"BW_CLOSE", 0x04000000, 0xFFFFFFFF⟩,
    ⟨"BW_OPEN", 0x05000000, 0xFFFFFFFF⟩,
    ⟨"BWT_RUN", 0x10000000, 0xFFFFFFFF⟩,
    ⟨"HCOUNT", 0x20000000, 0xFFFFFFFF⟩,
    ⟨"HBUILD", 0x21000000, 0xFFFFFFFF⟩,
    ⟨"HENC_SYM", 0x22000000, 0xFFFFFE00⟩,
    ⟨"HENC_RUN", 0x23000000, 0xFFFFFFFF⟩ ]

/-- A word selects a row (R85). -/
def OpRow.selects (r : OpRow) (w : Word) : Prop := w &&& r.mask = r.pattern

/-- The mnemonic of a command. -/
def mnemonicOf : Instr → String
  | .nop => "NOP"
  | .bwBit _ => "BW_BIT"
  | .bwBits _ => "BW_BITS"
  | .bwFlush => "BW_FLUSH"
  | .bwClose => "BW_CLOSE"
  | .bwOpen => "BW_OPEN"
  | .bwtRun => "BWT_RUN"
  | .hcount => "HCOUNT"
  | .hbuild => "HBUILD"
  | .hencSym _ => "HENC_SYM"
  | .hencRun => "HENC_RUN"

/-- The immediate a command carries is the field of the word the format gives (R81, R82). -/
def ImmediateIs (w : Word) : Instr → Prop
  | .bwBit b => b = w.getLsbD 0
  | .bwBits count => count = w.toNat % 64
  | .hencSym sym => sym = w.toNat % 512
  | .nop => True
  | .bwFlush => True
  | .bwClose => True
  | .bwOpen => True
  | .bwtRun => True
  | .hcount => True
  | .hbuild => True
  | .hencRun => True

/-- The reserved opcodes of 30_encoding R87. -/
def ReservedOpcode (w : Word) : Prop :=
  let opc := w.toNat / 2 ^ 24
  (0x06 ≤ opc ∧ opc ≤ 0x0F) ∨ (0x11 ≤ opc ∧ opc ≤ 0x1F) ∨ (0x24 ≤ opc ∧ opc ≤ 0xFF)

/-- A must-be-zero operand bit of the word's format is set (30_encoding R81, R83): of W[23:1] in format
B, W[23:6] in format C, W[23:9] in format S, W[23:0] in format N. -/
def ReservedBitSet (w : Word) : Prop :=
  let opc := w.toNat / 2 ^ 24
  let opd := w.toNat % 2 ^ 24
  (opc = 0x01 ∧ opd / 2 ≠ 0) ∨ (opc = 0x02 ∧ opd / 64 ≠ 0) ∨ (opc = 0x22 ∧ opd / 512 ≠ 0) ∨
    (opc ∈ [0x00, 0x03, 0x04, 0x05, 0x10, 0x20, 0x21, 0x23] ∧ opd ≠ 0)

/-! ### Groups of state, for frames -/

/-- Every element of every memory reads the same, and is written or unwritten the same. -/
def SameMemories (s t : State) : Prop := ∀ mem i, t.readCell mem i = s.readCell mem i

/-- Every element of every memory but `mem` is the same. -/
def SameMemoriesBut (mem : MemId) (s t : State) : Prop :=
  ∀ m i, m ≠ mem → t.readCell m i = s.readCell m i

/-- The bit-writer and the sink are the same (10_state R30, R40, R47; 20_memory R60). -/
def SameWriter (s t : State) : Prop :=
  t.cache = s.cache ∧ t.bwClosed = s.bwClosed ∧ t.bwBytes = s.bwBytes ∧ t.sink = s.sink

/-- CFG, ARG0 and ARG1 are the same (10_state R35, R37). -/
def SameOperands (s t : State) : Prop :=
  t.blockSize = s.blockSize ∧ t.tie = s.tie ∧ t.arg0 = s.arg0 ∧ t.arg1 = s.arg1

/-- ERR, ERRCODE and ERRINFO are the same (10_state R29, R33, R34). -/
def SameErrors (s t : State) : Prop :=
  t.err = s.err ∧ t.errCode = s.errCode ∧ t.errSrc = s.errSrc ∧ t.errInfo = s.errInfo

/-- The BWT results are the same (10_state R32, R38). -/
def SameBwtResult (s t : State) : Prop :=
  t.bwtValid = s.bwtValid ∧ t.bwtOrigin = s.bwtOrigin ∧ t.bwtLen = s.bwtLen

/-- The book's registers are the same (10_state R31, R39). -/
def SameBookRegs (s t : State) : Prop :=
  t.bookValid = s.bookValid ∧ t.bookN = s.bookN ∧ t.bookMaxlen = s.bookMaxlen

/-- The pending latch is the same (10_state R48). -/
def SamePending (s t : State) : Prop := t.pend = s.pend

/-- The model's own fields are the same. -/
def SameModelFields (s t : State) : Prop :=
  t.sinkStall = s.sinkStall ∧ t.events = s.events ∧ t.reply = s.reply ∧ t.draws = s.draws

/-- Everything the spec gives the block is the same, but for the error registers. -/
def SameBlockButErrors (s t : State) : Prop :=
  SameMemories s t ∧ SameWriter s t ∧ SameOperands s t ∧ SameBwtResult s t ∧ SameBookRegs s t ∧
    SamePending s t

/-- Everything the spec gives the block is the same. -/
def SameBlock (s t : State) : Prop := SameBlockButErrors s t ∧ SameErrors s t

/-- `t` has the error registers of `s` after `Capture(code, src, info)` (60_exceptions R152). -/
def Captured (code : ErrCode) (src : Bool) (info : Word) (s t : State) : Prop :=
  t.err = true ∧
    (s.err = false → t.errCode = code ∧ t.errSrc = src ∧ t.errInfo = info) ∧
    (s.err = true → t.errCode = s.errCode ∧ t.errSrc = s.errSrc ∧ t.errInfo = s.errInfo)

/-- The command of word `w` failed with `code`: the capture is its only effect (40_control R101). -/
def OnlyCaptured (code : ErrCode) (w : Word) (s t : State) : Prop :=
  Captured code false w s t ∧ SameBlockButErrors s t ∧ SameModelFields s t

/-- Only the bit-writer and the sink may differ: the frame of the bit-writer and encoder commands. -/
def WriterOnly (s t : State) : Prop :=
  SameMemories s t ∧ SameOperands s t ∧ SameErrors s t ∧ SameBwtResult s t ∧ SameBookRegs s t ∧
    SamePending s t ∧ SameModelFields s t

/-- Only the error registers, the bus response and the draw counter may differ. -/
def ErrorsOnly (s t : State) : Prop :=
  SameBlockButErrors s t ∧ t.sinkStall = s.sinkStall ∧ t.events = s.events

/-! ### Bits (20_memory R61, 41_bitwriter R118) -/

/-- The bits of a byte, bit 7 first. -/
def byteBits (b : Byte) : List Bool :=
  [b.getLsbD 7, b.getLsbD 6, b.getLsbD 5, b.getLsbD 4, b.getLsbD 3, b.getLsbD 2, b.getLsbD 1,
    b.getLsbD 0]

/-- `unpack` (R118): each byte's bits from bit 7 to bit 0. -/
def unpack (bytes : List Byte) : List Bool := bytes.flatMap byteBits

/-- `bits` is v[count-1], …, v[0] (41_bitwriter R111, R113). -/
def BitsOf (v : Word) (count : Nat) (bits : List Bool) : Prop :=
  bits.length = count ∧ ∀ k, k < count → bits[k]? = some (v.getLsbD (count - 1 - k))

/-- From `s` to `t` the bit-writer took `bits`, in order, and lost none (R118): what it emitted and what
its cache holds are the old cache and then `bits`. A full cache was flushed before it accepted a bit
(R108), so 8 bytes left for every 64 bits that no longer fitted; BW_BYTES counted them (R109). -/
def Appended (bits : List Bool) (s t : State) : Prop :=
  ∃ out, t.sink = s.sink ++ out ∧ unpack out ++ t.cache = s.cache ++ bits ∧
    out.length = 8 * ((s.cache.length + bits.length - 1) / 64) ∧
    t.bwBytes = s.bwBytes + BitVec.ofNat 32 out.length ∧ t.bwClosed = s.bwClosed

/-- The stream since the sink held `start` (R118): what was emitted since then and the cache are `bits`,
and BW_BYTES counts what was emitted, modulo 2^32. -/
def StreamLaw (start : List Byte) (bits : List Bool) (s : State) : Prop :=
  ∃ out, s.sink = start ++ out ∧ unpack out ++ s.cache = bits ∧
    s.bwBytes = BitVec.ofNat 32 out.length

/-! ### Blocks and rotations (42_bwt R121, 00_scope R14) -/

/-- `u <_lex v` for sequences of equal length (00_scope R14). -/
def LexBefore (u v : List Byte) : Prop :=
  ∃ k, k < u.length ∧ (∀ j, j < k → u[j]? = v[j]?) ∧
    ∃ a b, u[k]? = some a ∧ v[k]? = some b ∧ a.toNat < b.toNat

/-- Element k of rotation i: B((i + k) mod n) (R121). -/
def rotElem (block : List Byte) (i k : Nat) : Option Byte := block[(i + k) % block.length]?

/-- `i ≺ j` (R121). -/
def RotationBefore (block : List Byte) (i j : Nat) : Prop :=
  (∃ k, k < block.length ∧ (∀ m, m < k → rotElem block i m = rotElem block j m) ∧
      ∃ a b, rotElem block i k = some a ∧ rotElem block j k = some b ∧ a.toNat < b.toNat) ∨
    ((∀ k, k < block.length → rotElem block i k = rotElem block j k) ∧ i < j)

/-- P lists the indices 0 to n - 1 in rotation order (42_bwt R123). -/
def SortsRotations (block : List Byte) (p : List Nat) : Prop :=
  p.Perm (List.range block.length) ∧ p.Pairwise (RotationBefore block)

/-- BLK_MEM(0..n) is written and holds `block`. -/
def BlockIs (s : State) (block : List Byte) : Prop :=
  ∀ k, k < block.length → Mem.read s.blkMem k = block[k]?

/-- The inverse of section 10 of 95_test_vectors: `rows` steps of the LF walk from row `i`, last byte
of the block first. -/
def inverseWalk (column : List Byte) : Nat → Nat → List Byte
  | 0, _ => []
  | rows + 1, i =>
    let c := column.getD i 0
    let next := (column.filter fun b => decide (b.toNat < c.toNat)).length + (column.take i).count c
    inverseWalk column rows next ++ [c]

/-- InverseBWT(L, o) (95_test_vectors, section 10): a test oracle, not a function of the block. -/
def inverseBwt (column : List Byte) (origin : Nat) : List Byte :=
  inverseWalk column column.length origin

/-! ### Books (43_huffman R131 to R139) -/

/-- FREQ_MEM(0..N) is written and holds `freqs`. -/
def FreqsAre (s : State) (freqs : List Nat) : Prop :=
  ∀ k, k < freqs.length → (Mem.read s.freqMem k).map BitVec.toNat = freqs[k]?

/-- The book's entries below BOOK_N are written with these lengths and codes (10_state R45, R46). -/
def BookIs (s : State) (lens codes : List Nat) : Prop :=
  s.bookN.toNat = lens.length ∧ s.bookN.toNat = codes.length ∧
    ∀ k, k < lens.length →
      (Mem.read s.bookLen k).map BitVec.toNat = lens[k]? ∧
      (Mem.read s.bookCode k).map BitVec.toNat = codes[k]?

/-- L is the leaves of R131 in the initial order of R132. -/
def InitialNodes (freqs : List Nat) (nodes : List HuffNode) : Prop :=
  nodes.Perm (huffLeaves freqs) ∧
    nodes.Pairwise fun a b =>
      a.freq < b.freq ∨
        a.freq = b.freq ∧ ∃ u v, a.tree = .leaf u ∧ b.tree = .leaf v ∧ u < v

/-- One merge step (R133, R134): the first two nodes are joined and the result goes after (TIE = 0) or
before (TIE = 1) all nodes of its frequency. -/
def MergeStep (tie : Bool) (nodes after : List HuffNode) : Prop :=
  ∃ x y front back,
    nodes = x :: y :: (front ++ back) ∧
    after = front ++ [{ freq := x.freq + y.freq, tree := .node x.tree y.tree }] ++ back ∧
    (∀ e ∈ front, if tie then e.freq < x.freq + y.freq else e.freq ≤ x.freq + y.freq) ∧
    (∀ e ∈ back, if tie then x.freq + y.freq ≤ e.freq else x.freq + y.freq < e.freq)

/-- Exactly `k` merge steps (R133). -/
inductive MergeRun (tie : Bool) : Nat → List HuffNode → List HuffNode → Prop where
  | stop (nodes : List HuffNode) : MergeRun tie 0 nodes nodes
  | next {k : Nat} {a b c : List HuffNode} :
      MergeStep tie a b → MergeRun tie k b c → MergeRun tie (k + 1) a c

/-- The leaf of `sym` is `d` edges below the root of the tree (R135). -/
inductive LeafDepth (sym : Nat) : HuffTree → Nat → Prop where
  | here : LeafDepth sym (.leaf sym) 0
  | left {l r : HuffTree} {d : Nat} : LeafDepth sym l d → LeafDepth sym (.node l r) (d + 1)
  | right {l r : HuffTree} {d : Nat} : LeafDepth sym r d → LeafDepth sym (.node l r) (d + 1)

/-- `lens` are the code lengths of R131 to R135 for these frequencies: N - 1 merges of the sorted leaves
give one root, and each symbol's length is its leaf's depth. -/
def TreeLengths (tie : Bool) (freqs lens : List Nat) : Prop :=
  lens.length = freqs.length ∧
    ∃ nodes root, InitialNodes freqs nodes ∧ MergeRun tie (freqs.length - 1) nodes [root] ∧
      ∀ s d, lens[s]? = some d → LeafDepth s root.tree d

/-- The value R136 gives symbol `s`: a code of each shorter length shifts the running code, and codes of
one length are consecutive in symbol order. -/
def canonicalValue (lens : List Nat) (s : Nat) : Nat :=
  let d := lens.getD s 0
  ((lens.filter fun e => decide (e < d)).map fun e => 2 ^ (d - e)).sum + (lens.take s).count d

/-- Code `a` of length `la` is a prefix of code `b` of length `lb`. -/
def CodePrefix (a la b lb : Nat) : Prop := la ≤ lb ∧ b / 2 ^ (lb - la) = a

/-! ### Invariants -/

/-- CFG.BLOCK_SIZE is in [1, 9] (10_state R35). -/
def ConfigOk (s : State) : Prop := 1 ≤ s.blockSize.toNat ∧ s.blockSize.toNat ≤ 9

/-- The memories are in canonical form: every index below the memory's size, none listed twice
(10_state R41 to R46, 20_memory R73). -/
def MemoryInv (s : State) : Prop := ConfigOk s ∧ s.memWf = true

/-- The bytes of the pending command that the sink has already (20_memory R66). -/
def takenBytes (s : State) : List Byte :=
  match s.pend with
  | none => []
  | some p => (pendingBytes s).take p.sent

/-- The cache holds at most CACHE_BITS bits, and none while the writer is closed (10_state R47,
41_bitwriter R107); and what the sink has of the pending command are that command's first bytes, the last
ones of the sink (20_memory R66). -/
def WriterInv (s : State) : Prop :=
  s.cache.length ≤ Config.cacheBits ∧ (s.bwClosed = true → s.cache = []) ∧
    (∀ p, s.pend = some p → p.sent ≤ (pendingBytes s).length) ∧ ∃ settled, s.sink = settled ++ takenBytes s

/-- ERRCODE and ERRINFO are 0 exactly while ERR is 0, and code 4 is never captured
(10_state R33, R34; 60_exceptions R150, R152). -/
def ErrorInv (s : State) : Prop :=
  (s.err = false → s.errCode = .none ∧ s.errSrc = false ∧ s.errInfo = 0) ∧
    (s.err = true → s.errCode ≠ .none) ∧ s.errCode ≠ .internalConsistency

/-- A valid BWT result has a length within the block capacity, an origin below it, and every byte of
the column written; without one both registers read 0 (10_state R32, R38). -/
def BwtInv (s : State) : Prop :=
  ConfigOk s ∧
    (s.bwtValid = true →
      1 ≤ s.bwtLen.toNat ∧ s.bwtLen.toNat ≤ Config.maxBlock ∧ s.bwtOrigin.toNat < s.bwtLen.toNat ∧
        ∀ i, i < s.bwtLen.toNat → (Mem.read s.bwtOut i).isSome = true) ∧
    (s.bwtValid = false → s.bwtLen = 0 ∧ s.bwtOrigin = 0)

/-- A valid book has 2 to 258 symbols, each with a written code and a written length in
[1, BOOK_MAXLEN], and BOOK_MAXLEN within the cap (10_state R31, R39, R45, R46; 43_huffman R146). -/
def BookInv (s : State) : Prop :=
  s.bookValid = true →
    2 ≤ s.bookN.toNat ∧ s.bookN.toNat ≤ Config.maxAlphabet ∧
      s.bookMaxlen.toNat ≤ Config.maxCodeLen ∧
      ∀ i, i < s.bookN.toNat →
        (Mem.read s.bookCode i).isSome = true ∧
        ∃ len, Mem.read s.bookLen i = some len ∧ 1 ≤ len.toNat ∧ len.toNat ≤ s.bookMaxlen.toNat

/-- Every element of every memory is unwritten (70_reset R168). -/
def AllUnwritten (s : State) : Prop := ∀ mem i, s.readCell mem i = none

/-- The register values after a reset (10_state R22, 70_reset R167). -/
def ResetValue : Reg → Word
  | .id => 0x627A3277
  | .param => 0x01020814
  | .ctrl => 0
  | .status => 0
  | .errcode => 0
  | .errinfo => 0
  | .cfg => 9
  | .cmd => 0
  | .arg0 => 0
  | .arg1 => 0
  | .bwtOrigin => 0
  | .bwtLen => 0
  | .bookN => 0
  | .bookMaxlen => 0
  | .bwNbits => 0
  | .bwBytes => 0

/-- SYM_MEM(start..start+len) is written and holds `syms`. -/
def SymbolsAre (s : State) (start : Nat) (syms : List Nat) : Prop :=
  ∀ k, k < syms.length → (Mem.read s.symMem (start + k)).map BitVec.toNat = syms[k]?

/-- In SYM_MEM(start..start+count) every element before some index is written and below `bound`, and
the one there is written and not below it. -/
def SymbolTooBig (s : State) (bound start count : Nat) : Prop :=
  ∃ k, k < count ∧
    (∀ j, j < k → ∃ v, Mem.read s.symMem (start + j) = some v ∧ v.toNat < bound) ∧
    ∃ v, Mem.read s.symMem (start + k) = some v ∧ bound ≤ v.toNat

/-- In SYM_MEM(start..start+count) every element before index `i` is written and below `bound`, and
element `i` is unwritten. -/
def SymbolUnwritten (s : State) (bound start count i : Nat) : Prop :=
  start ≤ i ∧ i < start + count ∧ Mem.read s.symMem i = none ∧
    ∀ j, start ≤ j → j < i → ∃ v, Mem.read s.symMem j = some v ∧ v.toNat < bound

/-- The book's code of symbol `x` is written, and its bits are `bits` (43_huffman R143). -/
def CodeBits (s : State) (x : Nat) (bits : List Bool) : Prop :=
  ∃ code len, Mem.read s.bookCode x = some code ∧ Mem.read s.bookLen x = some len ∧
    BitsOf code len.toNat bits

/-- The bits a command appends when it raises no error: W[0] of BW_BIT, the low bits of a0, the padding of
BW_CLOSE, a code, the codes of a run, and none for every other command (41_bitwriter R110 to R115, 43_huffman
R143, R145). -/
def BitsAppendedBy (s : State) : Instr → List Bool → Prop
  | .bwBit b, more => more = [b]
  | .bwBits count, more => BitsOf s.a0 count more
  | .bwClose, more => more = List.replicate ((8 - s.cache.length % 8) % 8) false
  | .hencSym x, more => CodeBits s x more
  | .hencRun, more =>
    ∃ syms codes, syms.length = s.a1.toNat ∧ SymbolsAre s s.a0.toNat syms ∧
      List.Forall₂ (CodeBits s) syms codes ∧ more = codes.flatten
  | .nop, more => more = []
  | .bwFlush, more => more = []
  | .bwOpen, more => more = []
  | .bwtRun, more => more = []
  | .hcount, more => more = []
  | .hbuild, more => more = []

/-- The code numbers of 60_exceptions R147. -/
def codeTable : List (ErrCode × Nat) :=
  [ (.none, 0), (.invalidArgument, 1), (.closedWriter, 2), (.encodingFailed, 3),
    (.internalConsistency, 4), (.busy, 5), (.illegalCommand, 6), (.sequence, 7) ]

/-- The register map of 10_state R22. -/
def registerMap : List (Offset × Reg) :=
  [ (0x000, .id), (0x004, .param), (0x008, .ctrl), (0x00C, .status), (0x010, .errcode), (0x014, .errinfo),
    (0x018, .cfg), (0x01C, .cmd), (0x020, .arg0), (0x024, .arg1), (0x028, .bwtOrigin), (0x02C, .bwtLen),
    (0x030, .bookN), (0x034, .bookMaxlen), (0x038, .bwNbits), (0x03C, .bwBytes) ]

/-- The error codes each command may raise (60_exceptions R148). -/
def MayRaise : Instr → List ErrCode
  | .nop => []
  | .bwBit _ => [.closedWriter]
  | .bwBits _ => [.closedWriter, .invalidArgument]
  | .bwFlush => [.closedWriter]
  | .bwClose => [.closedWriter]
  | .bwOpen => [.sequence]
  | .bwtRun => [.invalidArgument]
  | .hcount => [.invalidArgument]
  | .hbuild => [.invalidArgument, .encodingFailed]
  | .hencSym _ => [.closedWriter, .sequence, .invalidArgument]
  | .hencRun => [.closedWriter, .sequence, .invalidArgument]

/-- Element widths (10_state R41 to R46). -/
def elementWidth : MemId → Nat
  | .blkMem => 8
  | .bwtOut => 8
  | .symMem => 9
  | .freqMem => 32
  | .bookCode => 32
  | .bookLen => 6

/-- The elements a command writes when it succeeds (70_reset R171). -/
def WriteTarget (s : State) : Instr → MemId → Nat → Prop
  | .bwtRun, mem, k => mem = .bwtOut ∧ k < s.a0.toNat
  | .hcount, mem, k => mem = .freqMem ∧ k < s.a1.toNat
  | .hbuild, mem, k => (mem = .bookCode ∨ mem = .bookLen) ∧ k < s.a0.toNat
  | .nop, _, _ => False
  | .bwBit _, _, _ => False
  | .bwBits _, _, _ => False
  | .bwFlush, _, _ => False
  | .bwClose, _, _ => False
  | .bwOpen, _, _ => False
  | .hencSym _, _, _ => False
  | .hencRun, _, _ => False

/-- A host access of one whole aligned word (20_memory R56). -/
def wordAccess (off : Offset) (op : BusOp) : Access := { off := off, lanes := 15, op := op }

/-- An event that is no reset: neither the platform's, nor a well-formed write that sets CTRL.SRST. -/
def NoReset : Event → Prop
  | .hardReset => False
  | .access a => ¬ (badForm a = false ∧ targetOf a.off = .reg .ctrl ∧ ∃ d, a.op = .write d ∧ d.getLsbD 0 = true)
  | .poll => True
  | .engine => True
  | .sinkStall _ => True
  | .sinkTakes _ => True

/-- `k` engine turns with no host access between them, stopping at a fault (40_control R106). -/
def engineTurns : Nat → State → Host.Outcome State Fault Refusal
  | 0, s => .next s
  | k + 1, s =>
    match engineTurn s with
    | .next t => engineTurns k t
    | .fault r => .fault r
    | .refused r => .refused r

end Sys2Proof.Safety
end

