-- ==== Sys2Proof/Certificates/Slice0/Obligations.lean ====
section
/-! DEFINITION. The statements for the provers, from the numbered rules of spec/. Each docstring names the rules or
sections it formalises. -/

open Sys2Proof Sys2Proof.Machine Sys2Proof.Safety

/-! ### Encoding (30_encoding) -/

/-- 30_encoding sections 1 and 2, and section 2 of 95_test_vectors: words written out from the formats decode to their commands,
and words with a reserved opcode or a reserved operand bit are refused by name. -/
def Obligations.SpecWordsDecode : Prop :=
  decode 0x00000000 = .ok .nop ∧ decode 0x01000000 = .ok (.bwBit false) ∧
  decode 0x01000001 = .ok (.bwBit true) ∧ decode 0x02000018 = .ok (.bwBits 24) ∧
  decode 0x02000021 = .ok (.bwBits 33) ∧ decode 0x03000000 = .ok .bwFlush ∧
  decode 0x04000000 = .ok .bwClose ∧ decode 0x05000000 = .ok .bwOpen ∧
  decode 0x10000000 = .ok .bwtRun ∧ decode 0x20000000 = .ok .hcount ∧
  decode 0x21000000 = .ok .hbuild ∧ decode 0x22000101 = .ok (.hencSym 257) ∧
  decode 0x23000000 = .ok .hencRun ∧
  decode 0x01000002 = .error (.reservedOperandBits 0x01) ∧
  decode 0x02000040 = .error (.reservedOperandBits 0x02) ∧
  decode 0x22000200 = .error (.reservedOperandBits 0x22) ∧
  decode 0x30000000 = .error (.reservedOpcode 0x30)

/-- Every well-formed command, with every immediate its field can carry, decodes from its own word. -/
def Obligations.DecodeOfEncode : Prop :=
  ∀ i : Instr, i.wellFormed = true → decode (encode i) = .ok i

/-- R85: at most one row selects a word, and a word decodes to a command exactly when it is selected by
the row of that command's mnemonic and carries its immediate. -/
def Obligations.DecodeFollowsOpcodeMap : Prop :=
  (∀ (w : Word), ∀ r ∈ opcodeMap, ∀ q ∈ opcodeMap, r.selects w → q.selects w → r = q) ∧
  ∀ (w : Word) (i : Instr),
    decode w = .ok i ↔
      (∃ r ∈ opcodeMap, r.mnemonic = mnemonicOf i ∧ r.selects w) ∧ ImmediateIs w i

/-- What decodes is well formed, and its word is the word decoded: no other word stands for it. -/
def Obligations.EncodeOfDecode : Prop :=
  ∀ (w : Word) (i : Instr), decode w = .ok i → encode i = w ∧ i.wellFormed = true

/-- R83, R87: the illegal words are exactly those with a reserved opcode or a reserved operand bit set;
such a word completes by capturing ILLEGAL_COMMAND, and nothing else changes. -/
def Obligations.IllegalWordsOnlyCapture : Prop :=
  (∀ w : Word, (∃ e, decode w = .error e) ↔ ReservedOpcode w ∨ ReservedBitSet w) ∧
  ∀ (s : State) (p : Pending), s.pend = some p → ReservedOpcode p.word ∨ ReservedBitSet p.word →
    ∃ t, engineTurn s = .next t ∧ t.pend = none ∧ Captured .illegalCommand false p.word s t ∧
      SameMemories s t ∧ SameWriter s t ∧ SameOperands s t ∧ SameBwtResult s t ∧ SameBookRegs s t ∧
      SameModelFields s t

/-! ### The step and the engine (40_control) -/

/-- 40_control (the engine completion step), 20_memory section 4 and 00_scope sections 2 and 4: a step is the
move of the agent that is due. A host access is that access, and the platform's reset is the hard reset.
A pending word that decodes runs as that command's meaning, and afterwards nothing is pending. No meaning is a
refusal. The model's own choices in it: that the agents' order is the list of events, and that with an empty
list the engine moves (log entry 1); that an event sets the sink's delay, a count of engine turns (log entry
13); that an event makes the sink accept bytes early, which are not appended again (log entry 14); that one read
of the poll loop is an event with, while BUSY is 1, an engine turn before the next read (log entry 19); and that
State.withFetchWord places a command as an accepted one with the engine's turn next (log entry 2). -/
def Obligations.StepRunsDecodedCommand : Prop :=
  (∀ s : State, s.events = [] → step s = engineTurn s) ∧
  (∀ (s : State) (es : List Event),
    (∀ a, s.events = .access a :: es → step s = busAccess a { s with events := es }) ∧
    (s.events = .hardReset :: es → step s = .next (hardReset { s with events := es })) ∧
    (s.events = .engine :: es → step s = engineTurn { s with events := es }) ∧
    (s.events = .poll :: es →
      (s.busy = true →
        step s = .next { s with reply := .data (s.readReg .status), events := .engine :: .poll :: es }) ∧
      (s.busy = false → step s = .next { s with reply := .data (s.readReg .status), events := es })) ∧
    (∀ k, s.events = .sinkStall k :: es → step s = .next { s with events := es, sinkStall := k }) ∧
    (∀ n, s.events = .sinkTakes n :: es →
      (s.pend = none → step s = .next { s with events := es }) ∧
      ∀ p u, s.pend = some p → execWord p.word { s with events := es } = .next u →
        ∃ out, u.sink = s.sink ++ out ∧
          step s = .next { s with
            events := es
            sink := s.sink ++ (out.drop p.sent).take n
            pend := some { p with sent := p.sent + min n (out.length - p.sent) } })) ∧
  (∀ (s : State) (p : Pending) (i : Instr), s.pend = some p → decode p.word = .ok i →
    (∀ r, exec i s ≠ .refused r) ∧ (∀ r, exec i s = .fault r → engineTurn s = .fault r) ∧
    (s.sinkStall = 0 → ∀ t, exec i s = .next t →
      (p.sent = 0 → engineTurn s = .next { t with pend := none }) ∧
      ∃ out, t.sink = s.sink ++ out ∧
        engineTurn s = .next { t with pend := none, sink := s.sink ++ out.drop p.sent })) ∧
  (∀ (s : State) (w : Nat) (i : Instr), decode (BitVec.ofNat 32 w) = .ok i →
    let u : State :=
      { s with pend := some { word := BitVec.ofNat 32 w, a0 := s.arg0, a1 := s.arg1 }, sinkStall := 0 }
    (∀ t, exec i u = .next t → step (s.withFetchWord 32 w) = .next { t with pend := none }) ∧
    (∀ r, exec i u = .fault r → step (s.withFetchWord 32 w) = .fault r))

/-- 40_control (the engine completion step, enabled when a command is pending and the sink accepts its bytes),
20_memory section 3 and 70_reset section 3: an idle engine's turn changes nothing (the engine gets such turns by
log entry 1); while the sink delays, a command with bytes it has not accepted stays pending with none of its
effect. That the delay is a count which such a turn takes one from is the model's choice (log entry 13). -/
def Obligations.IdleOrStalledTurnChangesNothing : Prop :=
  (∀ s : State, s.pend = none → engineTurn s = .next s) ∧
  ∀ (s t : State) (p : Pending) (k : Nat), s.pend = some p → s.sinkStall = k + 1 →
    execWord p.word s = .next t → s.sink.length + p.sent < t.sink.length →
    engineTurn s = .next { s with sinkStall := k }

/-- 40_control, the completion guarantee (a derived rule): a pending word whose effect meets no unwritten
element completes within one engine turn more than the sink's delay, whose finiteness is the model's
choice (log entry 13). -/
def Obligations.CommandsCompleteInBoundedTurns : Prop :=
  ∀ (s u : State) (p : Pending), s.pend = some p → execWord p.word s = .next u →
    ∃ k t, k ≤ s.sinkStall + 1 ∧ engineTurns k s = .next t ∧ t.pend = none

/-- R98: NOP has no effect but the end of BUSY, closed writer and missing book or not. -/
def Obligations.NopOnlyEndsBusy : Prop :=
  encode .nop = 0x00000000 ∧ (∀ s : State, exec .nop s = .next s) ∧
  ∀ (s : State) (p : Pending), s.pend = some p → p.word = 0x00000000 →
    ∃ t, engineTurn s = .next t ∧ t.busy = false ∧ t = { s with pend := none }

/-! ### The bit-writer (41_bitwriter) -/

/-- R108, R110: BW_BIT on an open writer appends its bit; a cache below CACHE_BITS (64, 00_scope section 3)
takes it and nothing is emitted, a full one is emitted whole first. Closed, it raises CLOSED_WRITER. -/
def Obligations.BwBitAppendsOneBit : Prop :=
  (∀ b : Bool, encode (.bwBit b) = 0x01000000 ||| (BitVec.ofBool b).setWidth 32) ∧
  ∀ (s : State) (b : Bool),
    (s.bwClosed = true →
      ∃ t, exec (.bwBit b) s = .next t ∧ OnlyCaptured .closedWriter (encode (.bwBit b)) s t) ∧
    (s.bwClosed = false → s.cache.length < 64 →
      ∃ t, exec (.bwBit b) s = .next t ∧ t.cache = s.cache ++ [b] ∧ t.sink = s.sink ∧
        t.bwBytes = s.bwBytes ∧ t.bwClosed = false ∧ WriterOnly s t) ∧
    (s.bwClosed = false → s.cache.length = 64 →
      ∃ t out, exec (.bwBit b) s = .next t ∧ t.cache = [b] ∧ t.sink = s.sink ++ out ∧
        out.length = 8 ∧ unpack out = s.cache ∧ t.bwBytes = s.bwBytes + 8 ∧ t.bwClosed = false ∧
        WriterOnly s t)

/-- R109: FlushWhole emits byte j with bit 7 - t being cache bit 8j + t, counts the bytes modulo 2^32, and
keeps the bits after the last whole byte. -/
def Obligations.FlushWholeEmitsWholeBytes : Prop :=
  ∀ s : State, ∃ out, (flushWhole s).sink = s.sink ++ out ∧ out.length = s.cache.length / 8 ∧
    (∀ j t, j < out.length → t < 8 →
      (out.getD j 0).getLsbD (7 - t) = s.cache.getD (8 * j + t) false) ∧
    (flushWhole s).bwBytes.toNat = (s.bwBytes.toNat + out.length) % 2 ^ 32 ∧
    (flushWhole s).cache = s.cache.drop (8 * out.length) ∧
    (flushWhole s).bwClosed = s.bwClosed ∧ WriterOnly s (flushWhole s)

/-- R111: BW_BITS appends a0[count-1], …, a0[0]; it raises CLOSED_WRITER on a closed writer, and
otherwise INVALID_ARGUMENT for a count above 32. -/
def Obligations.BwBitsAppendsLowBits : Prop :=
  (∀ count, count < 64 → encode (.bwBits count) = 0x02000000 ||| BitVec.ofNat 32 count) ∧
  ∀ (s : State) (count : Nat),
    (s.bwClosed = true →
      ∃ t, exec (.bwBits count) s = .next t ∧ OnlyCaptured .closedWriter (encode (.bwBits count)) s t) ∧
    (s.bwClosed = false → 32 < count →
      ∃ t, exec (.bwBits count) s = .next t ∧
        OnlyCaptured .invalidArgument (encode (.bwBits count)) s t) ∧
    (s.bwClosed = false → count ≤ 32 → s.cache.length ≤ 64 →
      ∃ t bits, exec (.bwBits count) s = .next t ∧ BitsOf s.a0 count bits ∧ Appended bits s t ∧
        WriterOnly s t)

/-- R112: the bits a0[31:count] have no effect on what BW_BITS does to the writer and the sink. -/
def Obligations.BwBitsIgnoresHighBits : Prop :=
  (∀ (s t u : State) (p : Pending) (v : Word) (count : Nat), s.pend = some p →
    (∀ k, k < count → v.getLsbD k = p.a0.getLsbD k) →
    exec (.bwBits count) s = .next t →
    exec (.bwBits count) { s with pend := some { p with a0 := v } } = .next u →
    SameWriter t u) ∧
  (∀ bits, BitsOf 0xFFFFFFF5 4 bits → bits = [false, true, false, true])

/-- R114: BW_FLUSH emits every complete byte, keeps the partial byte and adds no padding. -/
def Obligations.BwFlushKeepsPartialByte : Prop :=
  encode .bwFlush = 0x03000000 ∧
  ∀ s : State,
    (s.bwClosed = true → ∃ t, exec .bwFlush s = .next t ∧ OnlyCaptured .closedWriter 0x03000000 s t) ∧
    (s.bwClosed = false →
      ∃ t out, exec .bwFlush s = .next t ∧ t.sink = s.sink ++ out ∧ out.length = s.cache.length / 8 ∧
        unpack out ++ t.cache = s.cache ∧ t.cache.length = s.cache.length % 8 ∧
        t.bwBytes = s.bwBytes + BitVec.ofNat 32 out.length ∧ t.bwClosed = false ∧ WriterOnly s t)

/-- R115: BW_CLOSE pads with zero bits to a byte boundary, emits everything and closes the writer; the
padding fits the cache. -/
def Obligations.BwClosePadsAndCloses : Prop :=
  encode .bwClose = 0x04000000 ∧
  ∀ s : State,
    (s.bwClosed = true → ∃ t, exec .bwClose s = .next t ∧ OnlyCaptured .closedWriter 0x04000000 s t) ∧
    (s.bwClosed = false →
      ∃ t out p, exec .bwClose s = .next t ∧ p = (8 - s.cache.length % 8) % 8 ∧
        (s.cache.length ≤ 64 → s.cache.length + p ≤ 64) ∧
        t.sink = s.sink ++ out ∧ unpack out = s.cache ++ List.replicate p false ∧ t.cache = [] ∧
        t.bwBytes = s.bwBytes + BitVec.ofNat 32 out.length ∧ t.bwClosed = true ∧ WriterOnly s t)

/-- R116: BW_OPEN reopens a closed writer and clears BW_BYTES; on an open one it raises SEQUENCE and the
cache is kept. -/
def Obligations.BwOpenReopens : Prop :=
  encode .bwOpen = 0x05000000 ∧
  ∀ s : State,
    (s.bwClosed = true →
      ∃ t, exec .bwOpen s = .next t ∧ t.bwClosed = false ∧ t.bwBytes = 0 ∧ t.cache = s.cache ∧
        t.sink = s.sink ∧ WriterOnly s t) ∧
    (s.bwClosed = false → ∃ t, exec .bwOpen s = .next t ∧ OnlyCaptured .sequence 0x05000000 s t)

/-- R117: the six writing commands raise CLOSED_WRITER on a closed writer whatever their arguments; the
other five never do. -/
def Obligations.ClosedWriterIsCheckedFirst : Prop :=
  (∀ (s : State) (i : Instr), s.bwClosed = true →
    (∃ b, i = .bwBit b) ∨ (∃ n, i = .bwBits n) ∨ i = .bwFlush ∨ i = .bwClose ∨ (∃ x, i = .hencSym x) ∨
      i = .hencRun →
    ∃ t, exec i s = .next t ∧ OnlyCaptured .closedWriter (encode i) s t) ∧
  ∀ (s u : State) (i : Instr), i ∈ [.bwOpen, .nop, .bwtRun, .hcount, .hbuild] →
    runCmd i s ≠ .raised .closedWriter u

/-- 41_bitwriter section 3, the stream law (a derived rule): with `bits` the bits appended since the sink
held `start`, every command but BW_OPEN keeps unpack(out) ++ cache = bits followed by the bits it appends,
which are those of its rule, and none where it raises an error. -/
def Obligations.StreamLawIsKept : Prop :=
  ∀ (s t : State) (i : Instr) (start : List Byte) (bits : List Bool),
    s.cache.length ≤ 64 → StreamLaw start bits s → i ≠ .bwOpen → exec i s = .next t →
    ∃ more, (∀ u, runCmd i s = .done u → BitsAppendedBy s i more) ∧
      (∀ code u, runCmd i s = .raised code u → more = []) ∧ StreamLaw start (bits ++ more) t

/-- 41_bitwriter section 3, the BW_BYTES law (a derived rule): after BW_CLOSE the emitted bytes are the
bits padded to a byte boundary, and BW_BYTES is their number modulo 2^32. -/
def Obligations.CloseCountsBytes : Prop :=
  ∀ (s : State) (start : List Byte) (bits : List Bool),
    s.bwClosed = false → StreamLaw start bits s →
    ∃ t out p, exec .bwClose s = .next t ∧ p < 8 ∧ t.sink = start ++ out ∧
      unpack out = bits ++ List.replicate p false ∧ t.cache = [] ∧
      t.bwBytes.toNat = ((bits.length + 7) / 8) % 2 ^ 32

/-- 20_memory sections 3 and 4 and 41_bitwriter section 3 (no silent drop, a derived rule): no step takes a
byte back from the sink, and no step but a reset loses a bit of the cache. The sink is what settled and then
the bytes it accepted early of the pending command (log entry 14), whose bits the cache still holds. -/
def Obligations.NoBitIsDropped : Prop :=
  (∀ s t : State, step s = .next t → ∃ out, t.sink = s.sink ++ out) ∧
  ∀ s t : State, WriterInv s → (∀ e es, s.events = e :: es → NoReset e) → step s = .next t →
    ∃ settled out more, s.sink = settled ++ takenBytes s ∧ t.sink = settled ++ out ++ takenBytes t ∧
      unpack out ++ t.cache = s.cache ++ more

/-! ### The Burrows-Wheeler unit (42_bwt) -/

/-- R121: the computed order is the rotation order, and it is total and strict on the indices. -/
def Obligations.RotationOrderIsStrictTotal : Prop :=
  ∀ block : List Byte,
    (∀ i j, i < block.length → j < block.length →
      (rotBefore block i j = true ↔ RotationBefore block i j)) ∧
    (∀ i, i < block.length → ¬ RotationBefore block i i) ∧
    (∀ i j k, i < block.length → j < block.length → k < block.length →
      RotationBefore block i j → RotationBefore block j k → RotationBefore block i k) ∧
    (∀ i j, i < block.length → j < block.length → i ≠ j →
      RotationBefore block i j ∨ RotationBefore block j i)

/-- R122, R123: BWT_RUN of a written block of length 1 to CAP writes the last bytes of the rotations in
the one sorted order, the rank of rotation 0 and the length; any other length raises INVALID_ARGUMENT. -/
def Obligations.BwtRunSortsRotations : Prop :=
  encode .bwtRun = 0x10000000 ∧
  (∀ s : State, s.capacity = 100000 * s.blockSize.toNat ∧ (ConfigOk s → s.capacity ≤ 900000)) ∧
  (∀ s : State, s.a0.toNat < 1 ∨ 100000 * s.blockSize.toNat < s.a0.toNat →
    ∃ t, exec .bwtRun s = .next t ∧ OnlyCaptured .invalidArgument 0x10000000 s t) ∧
  ∀ (s : State) (block : List Byte), 1 ≤ block.length → block.length ≤ 100000 * s.blockSize.toNat →
    s.a0.toNat = block.length → BlockIs s block →
    ∃ t p, exec .bwtRun s = .next t ∧ SortsRotations block p ∧
      (∀ q, SortsRotations block q → q = p) ∧
      (∀ r i, p[r]? = some i →
        Mem.read t.bwtOut r = block[(i + block.length - 1) % block.length]?) ∧
      (∀ r, block.length ≤ r → Mem.read t.bwtOut r = Mem.read s.bwtOut r) ∧
      p[t.bwtOrigin.toNat]? = some 0 ∧ t.bwtLen.toNat = block.length ∧ t.bwtValid = true ∧
      SameMemoriesBut .bwtOut s t ∧ SameWriter s t ∧ SameOperands s t ∧ SameErrors s t ∧
      SameBookRegs s t ∧ SamePending s t ∧ SameModelFields s t

/-- R124: BWT_ORIGIN is the 0-based rank of rotation 0, below the length and below 2^24 (ORIGIN_BITS is 24,
00_scope section 3), written in the same step as BWT_OUT. -/
def Obligations.OriginIsRankOfRotationZero : Prop :=
  Config.originBits = 24 ∧
  ∀ (s : State) (block : List Byte), ConfigOk s → 1 ≤ block.length →
    block.length ≤ 100000 * s.blockSize.toNat → s.a0.toNat = block.length → BlockIs s block →
    ∃ t p, exec .bwtRun s = .next t ∧ SortsRotations block p ∧
      (∀ r, r < block.length → (Mem.read t.bwtOut r).isSome = true) ∧
      p[t.bwtOrigin.toNat]? = some 0 ∧ t.bwtOrigin.toNat < block.length ∧
      t.bwtOrigin.toNat < 2 ^ Config.originBits

/-- 42_bwt, permutation law (a derived rule): every byte value occurs in the last column as often as in
the block. -/
def Obligations.LastColumnPermutesBlock : Prop :=
  ∀ block : List Byte, (lastColumn block).Perm block

/-- 42_bwt, invertibility law (a derived rule), with the oracle of section 10 of 95_test_vectors: the last
column and the origin determine the block, and the oracle recovers it. -/
def Obligations.InverseRecoversBlock : Prop :=
  ∀ block : List Byte, block ≠ [] → inverseBwt (lastColumn block) (originIndex block) = block

/-- 42_bwt, periodic blocks (a derived rule): equal rotations have the same last byte, rotation 0 comes
first among the rotations equal to it, and a block of one repeated byte is its own column with origin 0. -/
def Obligations.EqualRotationsShareLastByte : Prop :=
  (∀ (block : List Byte) (i j : Nat), i < block.length → j < block.length →
    (∀ k, k < block.length → rotElem block i k = rotElem block j k) →
    lastByte block i = lastByte block j) ∧
  (∀ (block : List Byte) (j : Nat), 0 < j → j < block.length →
    (∀ k, k < block.length → rotElem block 0 k = rotElem block j k) →
    (sortRotations block).idxOf 0 < (sortRotations block).idxOf j) ∧
  ∀ (c : Byte) (n : Nat),
    lastColumn (List.replicate (n + 1) c) = List.replicate (n + 1) c ∧
      originIndex (List.replicate (n + 1) c) = 0

/-! ### The Huffman unit (43_huffman) -/

/-- R129: HCOUNT and HBUILD refuse an alphabet size outside [2, 258] and no other. -/
def Obligations.BadAlphabetIsRefused : Prop :=
  (∀ s : State, s.a1.toNat < 2 ∨ 258 < s.a1.toNat →
    ∃ t, exec .hcount s = .next t ∧ OnlyCaptured .invalidArgument 0x20000000 s t) ∧
  (∀ s : State, s.a0.toNat < 2 ∨ 258 < s.a0.toNat →
    ∃ t, exec .hbuild s = .next t ∧ OnlyCaptured .invalidArgument 0x21000000 s t) ∧
  (∀ s u : State, 2 ≤ s.a0.toNat → s.a0.toNat ≤ 258 → runCmd .hbuild s ≠ .raised .invalidArgument u) ∧
  ∀ s u : State, 2 ≤ s.a1.toNat → s.a1.toNat ≤ 258 → s.a0.toNat = 0 →
    runCmd .hcount s ≠ .raised .invalidArgument u

/-- R130: HCOUNT writes, for each symbol below N, how often it occurs in the m symbols; it refuses a bad
N, more than SYM_CAP symbols, or a symbol at or above N, before any write. -/
def Obligations.HcountCountsSymbols : Prop :=
  encode .hcount = 0x20000000 ∧
  (∀ s : State,
    s.a1.toNat < 2 ∨ 258 < s.a1.toNat ∨ 900001 < s.a0.toNat ∨
      SymbolTooBig s s.a1.toNat 0 s.a0.toNat →
    ∃ t, exec .hcount s = .next t ∧ OnlyCaptured .invalidArgument 0x20000000 s t) ∧
  ∀ (s : State) (syms : List Nat), 2 ≤ s.a1.toNat → s.a1.toNat ≤ 258 → s.a0.toNat = syms.length →
    syms.length ≤ 900001 → SymbolsAre s 0 syms → (∀ x ∈ syms, x < s.a1.toNat) →
    ∃ t, exec .hcount s = .next t ∧
      (∀ x, x < s.a1.toNat → (Mem.read t.freqMem x).map BitVec.toNat = some (syms.count x)) ∧
      (∀ x, s.a1.toNat ≤ x → Mem.read t.freqMem x = Mem.read s.freqMem x) ∧
      SameMemoriesBut .freqMem s t ∧ SameWriter s t ∧ SameOperands s t ∧ SameErrors s t ∧
      SameBwtResult s t ∧ SameBookRegs s t ∧ SamePending s t ∧ SameModelFields s t

/-- 43_huffman section 2 (leaves, initial order, merge, tie policy, length): the computed lengths are the
leaf depths of the one tree that N - 1 merges of the sorted leaves give, under either tie policy. -/
def Obligations.LengthsAreTreeDepths : Prop :=
  ∀ (tie : Bool) (freqs lens : List Nat), 2 ≤ freqs.length →
    (TreeLengths tie freqs lens ↔ lens = huffLengths tie freqs)

/-- R137, R138: HBUILD writes the canonical book of the tree's lengths; where a length exceeds 20 it
writes no entry, clears BOOK_VALID and raises ENCODING_FAILED. -/
def Obligations.HbuildWritesBook : Prop :=
  encode .hbuild = 0x21000000 ∧
  (∀ s : State, s.a0.toNat < 2 ∨ 258 < s.a0.toNat →
    ∃ t, exec .hbuild s = .next t ∧ OnlyCaptured .invalidArgument 0x21000000 s t) ∧
  ∀ (s : State) (freqs lens : List Nat), 2 ≤ freqs.length → freqs.length ≤ 258 →
    s.a0.toNat = freqs.length → FreqsAre s freqs → lens = huffLengths s.tie freqs →
    ((∀ l ∈ lens, l ≤ 20) →
      ∃ t, exec .hbuild s = .next t ∧ t.bookValid = true ∧
        BookIs t lens (canonicalCodes lens) ∧
        (∀ l ∈ lens, l ≤ t.bookMaxlen.toNat) ∧ t.bookMaxlen.toNat ∈ lens ∧
        (∀ k, lens.length ≤ k → Mem.read t.bookLen k = Mem.read s.bookLen k ∧
          Mem.read t.bookCode k = Mem.read s.bookCode k) ∧
        (∀ m k, m ≠ .bookLen → m ≠ .bookCode → t.readCell m k = s.readCell m k) ∧
        SameWriter s t ∧ SameOperands s t ∧ SameErrors s t ∧ SameBwtResult s t ∧ SamePending s t ∧
        SameModelFields s t) ∧
    ((∃ l ∈ lens, 20 < l) →
      ∃ t, exec .hbuild s = .next t ∧ t.bookValid = false ∧ t.bookN = s.bookN ∧
        t.bookMaxlen = s.bookMaxlen ∧ Captured .encodingFailed false 0x21000000 s t ∧
        SameMemories s t ∧ SameWriter s t ∧ SameOperands s t ∧ SameBwtResult s t ∧ SamePending s t ∧
        SameModelFields s t)

/-- 43_huffman section 2, the running code, in closed form (the closed form is this model's reading of
the loop): the code of a symbol counts the codes of shorter lengths, shifted, and those of its own
length before it. -/
def Obligations.CanonicalCodesClosedForm : Prop :=
  ∀ lens : List Nat, (∀ l ∈ lens, 1 ≤ l) →
    (canonicalCodes lens).length = lens.length ∧
      ∀ s, s < lens.length → (canonicalCodes lens)[s]? = some (canonicalValue lens s)

/-- 43_huffman section 3, book law (a) (a derived rule): after a successful HBUILD the code lengths
satisfy Kraft's equality. -/
def Obligations.BookSatisfiesKraft : Prop :=
  ∀ s t : State, runCmd .hbuild s = .done t →
    ∃ lens codes, BookIs t lens codes ∧ (∀ l ∈ lens, l ≤ t.bookMaxlen.toNat) ∧
      (lens.map fun l => 2 ^ (t.bookMaxlen.toNat - l)).sum = 2 ^ t.bookMaxlen.toNat

/-- 43_huffman section 3, book law (b) (a derived rule): no code is a prefix of another symbol's code. -/
def Obligations.BookIsPrefixFree : Prop :=
  ∀ s t : State, runCmd .hbuild s = .done t →
    ∃ lens codes : List Nat, BookIs t lens codes ∧
      ∀ x y a la b lb : Nat, x ≠ y → codes[x]? = some a → lens[x]? = some la → codes[y]? = some b →
        lens[y]? = some lb → ¬ CodePrefix a la b lb

/-- 43_huffman section 3, book laws (c), (d), (e) (a derived rule): codes of one length are consecutive
in symbol order, fit their length, and every length is in [1, maxlen] with maxlen at most 20. -/
def Obligations.BookCodesAreCanonical : Prop :=
  ∀ s t : State, runCmd .hbuild s = .done t →
    ∃ lens codes, BookIs t lens codes ∧
      (∀ x y, x < y → y < lens.length → lens[x]? = lens[y]? →
        codes.getD y 0 =
          codes.getD x 0 + ((lens.take (y + 1)).drop (x + 1)).count (lens.getD y 0)) ∧
      (∀ x, x < lens.length → codes.getD x 0 < 2 ^ lens.getD x 0) ∧
      (∀ l ∈ lens, 1 ≤ l ∧ l ≤ t.bookMaxlen.toNat) ∧ t.bookMaxlen.toNat ≤ 20

/-- 43_huffman section 3, what the book does not depend on (a derived rule): two states that agree on N,
FREQ_MEM(0..N) and CFG.TIE build the same book. -/
def Obligations.BookDependsOnFrequenciesAlone : Prop :=
  ∀ s u t : State, s.a0 = u.a0 → s.tie = u.tie →
    (∀ k, k < s.a0.toNat → Mem.read s.freqMem k = Mem.read u.freqMem k) →
    runCmd .hbuild s = .done t →
    ∃ v, runCmd .hbuild u = .done v ∧ v.bookN = t.bookN ∧ v.bookMaxlen = t.bookMaxlen ∧
      ∀ k, k < s.a0.toNat →
        Mem.read v.bookCode k = Mem.read t.bookCode k ∧ Mem.read v.bookLen k = Mem.read t.bookLen k

/-- R143: HENC_SYM appends the code of its symbol; CLOSED_WRITER, then SEQUENCE, then INVALID_ARGUMENT
come first. -/
def Obligations.HencSymAppendsCode : Prop :=
  (∀ sym, sym < 512 → encode (.hencSym sym) = 0x22000000 ||| BitVec.ofNat 32 sym) ∧
  ∀ (s : State) (sym : Nat),
    (s.bwClosed = true →
      ∃ t, exec (.hencSym sym) s = .next t ∧ OnlyCaptured .closedWriter (encode (.hencSym sym)) s t) ∧
    (s.bwClosed = false → s.bookValid = false →
      ∃ t, exec (.hencSym sym) s = .next t ∧ OnlyCaptured .sequence (encode (.hencSym sym)) s t) ∧
    (s.bwClosed = false → s.bookValid = true → s.bookN.toNat ≤ sym →
      ∃ t, exec (.hencSym sym) s = .next t ∧
        OnlyCaptured .invalidArgument (encode (.hencSym sym)) s t) ∧
    (∀ bits, s.bwClosed = false → s.bookValid = true → sym < s.bookN.toNat → s.cache.length ≤ 64 →
      CodeBits s sym bits →
      ∃ t, exec (.hencSym sym) s = .next t ∧ Appended bits s t ∧ WriterOnly s t)

/-- R142, R144, R145: HENC_RUN appends the codes of the symbols of its range in order; the checks come in
order, before any bit, and start + count is exact. -/
def Obligations.HencRunAppendsCodes : Prop :=
  encode .hencRun = 0x23000000 ∧
  ∀ s : State,
    (s.bwClosed = true → ∃ t, exec .hencRun s = .next t ∧ OnlyCaptured .closedWriter 0x23000000 s t) ∧
    (s.bwClosed = false → s.bookValid = false →
      ∃ t, exec .hencRun s = .next t ∧ OnlyCaptured .sequence 0x23000000 s t) ∧
    (s.bwClosed = false → s.bookValid = true →
      900001 < s.a0.toNat + s.a1.toNat ∨ SymbolTooBig s s.bookN.toNat s.a0.toNat s.a1.toNat →
      ∃ t, exec .hencRun s = .next t ∧ OnlyCaptured .invalidArgument 0x23000000 s t) ∧
    (∀ (syms : List Nat) (codes : List (List Bool)), s.bwClosed = false → s.bookValid = true →
      s.a1.toNat = syms.length → s.a0.toNat + s.a1.toNat ≤ 900001 → SymbolsAre s s.a0.toNat syms →
      (∀ x ∈ syms, x < s.bookN.toNat) → s.cache.length ≤ 64 → List.Forall₂ (CodeBits s) syms codes →
      ∃ t, exec .hencRun s = .next t ∧ Appended codes.flatten s t ∧ WriterOnly s t)

/-! ### UNINIT (42_bwt, 43_huffman) -/

/-- 42_bwt and section 4 of 43_huffman on uninitialised inputs: a command that reaches an unwritten element
of what it reads faults with UNINIT, naming it. That elements are read in ascending order is the model's
reading of the loops (log entry 8). -/
def Obligations.UnwrittenInputsFault : Prop :=
  (∀ (s : State) (k : Nat), 1 ≤ s.a0.toNat → s.a0.toNat ≤ 100000 * s.blockSize.toNat →
    k < s.a0.toNat → Mem.read s.blkMem k = none →
    ∃ i, i ≤ k ∧ Mem.read s.blkMem i = none ∧ exec .bwtRun s = .fault (.uninit .blkMem i)) ∧
  (∀ (s : State) (k : Nat), 2 ≤ s.a0.toNat → s.a0.toNat ≤ 258 → k < s.a0.toNat →
    Mem.read s.freqMem k = none →
    ∃ i, i ≤ k ∧ Mem.read s.freqMem i = none ∧ exec .hbuild s = .fault (.uninit .freqMem i)) ∧
  (∀ (s : State) (i : Nat), 2 ≤ s.a1.toNat → s.a1.toNat ≤ 258 → s.a0.toNat ≤ 900001 →
    SymbolUnwritten s s.a1.toNat 0 s.a0.toNat i → exec .hcount s = .fault (.uninit .symMem i)) ∧
  (∀ (s : State) (i : Nat), s.bwClosed = false → s.bookValid = true →
    s.a0.toNat + s.a1.toNat ≤ 900001 → SymbolUnwritten s s.bookN.toNat s.a0.toNat s.a1.toNat i →
    exec .hencRun s = .fault (.uninit .symMem i)) ∧
  (∀ (s : State) (x : Nat), s.bwClosed = false → s.bookValid = true → x < s.bookN.toNat →
    (Mem.read s.bookCode x = none → exec (.hencSym x) s = .fault (.uninit .bookCode x)) ∧
    ((Mem.read s.bookCode x).isSome = true → Mem.read s.bookLen x = none →
      exec (.hencSym x) s = .fault (.uninit .bookLen x)))

/-! ### Errors (60_exceptions, 40_control) -/

/-- R101, R152: a command that raises an error writes the error capture and nothing else, but that
ENCODING_FAILED also clears BOOK_VALID; the first error since the last clear is kept. -/
def Obligations.FailingCommandOnlyCaptures : Prop :=
  (∀ (code : ErrCode) (src : Bool) (info : Word) (s : State),
    Captured code src info s (capture code src info s) ∧
      SameBlockButErrors s (capture code src info s) ∧ SameModelFields s (capture code src info s)) ∧
  ∀ (s u : State) (i : Instr) (code : ErrCode), runCmd i s = .raised code u →
    ∃ t, exec i s = .next t ∧ Captured code false (encode i) s t ∧ SameMemories s t ∧
      SameWriter s t ∧ SameOperands s t ∧ SameBwtResult s t ∧ SamePending s t ∧ SameModelFields s t ∧
      t.bookN = s.bookN ∧ t.bookMaxlen = s.bookMaxlen ∧
      t.bookValid = (if code = .encodingFailed then false else s.bookValid)

/-- 60_exceptions section 1 (the table of raise conditions, a derived rule, and INTERNAL_CONSISTENCY):
each command raises only the codes of its row, and none raises code 4. -/
def Obligations.RaisesAreThoseOfTheTable : Prop :=
  ∀ (s u : State) (i : Instr) (code : ErrCode), runCmd i s = .raised code u →
    code ∈ MayRaise i ∧ code ≠ .internalConsistency ∧ code ≠ .none

/-- 10_state section 9, which operation writes which flag (a derived rule): of the commands, BW_CLOSE and
BW_OPEN alone change BW_CLOSED, HBUILD alone BOOK_VALID, BWT_RUN alone sets BWT_VALID, none clears ERR;
a bus access that does not write CTRL changes no flag but BUSY and ERR, and clears neither. -/
def Obligations.OnlyListedOperationsWriteFlags : Prop :=
  (∀ (s t : State) (i : Instr), exec i s = .next t →
    (t.bwClosed ≠ s.bwClosed → i = .bwClose ∨ i = .bwOpen) ∧
    (t.bookValid ≠ s.bookValid → i = .hbuild) ∧
    (t.bwtValid ≠ s.bwtValid → i = .bwtRun ∧ t.bwtValid = true) ∧
    (s.err = true → t.err = true) ∧ t.busy = s.busy) ∧
  ∀ (s t : State) (a : Access), targetOf a.off ≠ .reg .ctrl → busAccess a s = .next t →
    t.bwClosed = s.bwClosed ∧ t.bookValid = s.bookValid ∧ t.bwtValid = s.bwtValid ∧
    (s.err = true → t.err = true) ∧ (s.busy = true → t.busy = true)

/-- R95: a CTRL write acts whether or not a command is pending: bit 0 makes a soft reset and nothing more,
else bit 1 clears the error state and nothing more, else it has no effect. -/
def Obligations.CtrlWriteResetsOrClears : Prop :=
  ∀ (s : State) (d : Word), ∃ t, busAccess (wordAccess 0x008 (.write d)) s = .next t ∧
    (d.getLsbD 0 = true → t = { softReset s with reply := .done }) ∧
    (d.getLsbD 0 = false → d.getLsbD 1 = true →
      t.err = false ∧ t.errCodeWord = 0 ∧ t.errInfo = 0 ∧ ErrorsOnly s t) ∧
    (d.getLsbD 0 = false → d.getLsbD 1 = false → t = { s with reply := .done })

/-! ### The bus (20_memory, 10_state) -/

/-- R54: the address map, each offset in one region, with the element index of an aligned offset; and
section 2 of 10_state: which register stands at which offset, and that the others of the block are reserved. -/
def Obligations.AddressMapIsTheTable : Prop :=
  (∀ c ∈ registerMap, targetOf c.1 = .reg c.2) ∧
  (∀ off : Offset, 0x040 ≤ off.toNat → off.toNat ≤ 0xFFC → off.toNat % 4 = 0 → targetOf off = .reserved) ∧
  ∀ off : Offset,
    let o := off.toNat
    (o ≤ 0xFFF → (∃ r, targetOf off = .reg r) ∨ targetOf off = .reserved) ∧
    (0x1000 ≤ o ∧ o ≤ 0x1407 → targetOf off = .cell .freqMem ((o - 0x1000) / 4) ∧ (o - 0x1000) / 4 < 258) ∧
    (0x2000 ≤ o ∧ o ≤ 0x2407 → targetOf off = .cell .bookCode ((o - 0x2000) / 4) ∧ (o - 0x2000) / 4 < 258) ∧
    (0x3000 ≤ o ∧ o ≤ 0x3407 → targetOf off = .cell .bookLen ((o - 0x3000) / 4) ∧ (o - 0x3000) / 4 < 258) ∧
    (0x400000 ≤ o ∧ o ≤ 0x76EE7F →
      targetOf off = .cell .blkMem ((o - 0x400000) / 4) ∧ (o - 0x400000) / 4 < 900000) ∧
    (0x800000 ≤ o ∧ o ≤ 0xB6EE7F →
      targetOf off = .cell .bwtOut ((o - 0x800000) / 4) ∧ (o - 0x800000) / 4 < 900000) ∧
    (0xC00000 ≤ o ∧ o ≤ 0xF6EE83 →
      targetOf off = .cell .symMem ((o - 0xC00000) / 4) ∧ (o - 0xC00000) / 4 < 900001) ∧
    ((0x1408 ≤ o ∧ o ≤ 0x1FFF) ∨ (0x2408 ≤ o ∧ o ≤ 0x2FFF) ∨ (0x3408 ≤ o ∧ o ≤ 0x3FFFFF) ∨
      (0x76EE80 ≤ o ∧ o ≤ 0x7FFFFF) ∨ (0xB6EE80 ≤ o ∧ o ≤ 0xBFFFFF) ∨ 0xF6EE84 ≤ o →
      targetOf off = .unmapped) ∧
    (∀ m, writableMem m = true ↔ m = .freqMem ∨ m = .blkMem ∨ m = .symMem)

/-- R57: a misaligned, partial-lane or unmapped access gets a bus error and changes no block state; no
other access gets one. -/
def Obligations.BusErrorsChangeNothing : Prop :=
  (∀ (s : State) (a : Access),
    a.off.toNat % 4 ≠ 0 ∨ a.lanes ≠ 15 ∨ targetOf a.off = .unmapped →
    ∃ t, busAccess a s = .next t ∧ t.reply = .busError ∧ SameBlock s t ∧ t.sinkStall = s.sinkStall ∧
      t.events = s.events ∧ t.draws = s.draws) ∧
  ∀ (s t : State) (a : Access),
    a.off.toNat % 4 = 0 → a.lanes = 15 → targetOf a.off ≠ .unmapped → busAccess a s = .next t →
    t.reply ≠ .busError

/-- 20_memory section 4: a host read has no side effect on any register, memory or the sink. -/
def Obligations.HostReadsHaveNoSideEffects : Prop :=
  ∀ (s t : State) (a : Access), a.op = .read → busAccess a s = .next t →
    SameBlock s t ∧ t.sinkStall = s.sinkStall ∧ t.events = s.events

/-- R55, and the unwritten-element rule of 10_state section 8: a read of an idle block's element returns
it zero-extended, or faults UNINIT where it is unwritten; an idle write to a writable memory stores the
low bits of its one element; a write to a read-only memory is ignored; a busy write is rejected. -/
def Obligations.ElementAccess : Prop :=
  ∀ (s : State) (off : Offset) (m : MemId) (i : Nat) (d : Word), off.toNat % 4 = 0 →
    targetOf off = .cell m i →
    (s.busy = false → ∀ v, s.readCell m i = some v →
      busAccess (wordAccess off .read) s = .next { s with reply := .data v }) ∧
    (s.busy = false → s.readCell m i = none →
      busAccess (wordAccess off .read) s = .fault (.uninit m i)) ∧
    (s.busy = false → writableMem m = true →
      ∃ t, busAccess (wordAccess off (.write d)) s = .next t ∧ t.reply = .done ∧
        t.readCell m i = some (BitVec.ofNat 32 (d.toNat % 2 ^ elementWidth m)) ∧
        (∀ n j, (n, j) ≠ (m, i) → t.readCell n j = s.readCell n j) ∧ SameWriter s t ∧
        SameOperands s t ∧ SameErrors s t ∧ SameBwtResult s t ∧ SameBookRegs s t ∧ SamePending s t ∧
        t.sinkStall = s.sinkStall ∧ t.events = s.events ∧ t.draws = s.draws) ∧
    (writableMem m = false →
      busAccess (wordAccess off (.write d)) s = .next { s with reply := .done }) ∧
    (s.busy = true → writableMem m = true →
      ∃ t, busAccess (wordAccess off (.write d)) s = .next t ∧
        Captured .busy true (off.setWidth 32) s t ∧ SameBlockButErrors s t)

/-- 20_memory section 2, reads while a command runs: reads of the result registers and of any element return
a free draw, and the other registers and reserved offsets read as their rules say; once idle, a read of any
register or written element returns the value its rule gives. That a busy read of an UNWRITTEN element is such a
draw too, and not the fault UNINIT of 10_state section 8, is the model's choice (log entry 25): the spec orders
both. -/
def Obligations.BusyReads : Prop :=
  (∀ (s : State) (off : Offset), s.busy = false → off.toNat % 4 = 0 →
    (∀ r, targetOf off = .reg r →
      busAccess (wordAccess off .read) s = .next { s with reply := .data (s.readReg r) }) ∧
    (∀ m i v, targetOf off = .cell m i → s.readCell m i = some v →
      busAccess (wordAccess off .read) s = .next { s with reply := .data v })) ∧
  ∀ (s : State) (off : Offset), s.busy = true → off.toNat % 4 = 0 →
    (targetOf off = .reserved →
      busAccess (wordAccess off .read) s = .next { s with reply := .data 0 }) ∧
    (∀ r, targetOf off = .reg r →
      r ∈ [Reg.id, .param, .ctrl, .status, .errcode, .errinfo, .cfg, .cmd, .arg0, .arg1] →
      busAccess (wordAccess off .read) s = .next { s with reply := .data (s.readReg r) }) ∧
    (∀ r, targetOf off = .reg r →
      r ∈ [Reg.bwtOrigin, .bwtLen, .bookN, .bookMaxlen, .bwNbits, .bwBytes] →
      busAccess (wordAccess off .read) s =
        .next { s with reply := .data (Config.freeRead s.draws), draws := s.draws + 1 }) ∧
    (∀ m i, targetOf off = .cell m i →
      busAccess (wordAccess off .read) s =
        .next { s with reply := .data (Config.freeRead s.draws), draws := s.draws + 1 })

/-- R178: while busy, a write to CMD, CFG, ARG0, ARG1 or a writable element changes nothing and captures
BUSY with its offset; CTRL writes act; writes to read-only and reserved locations are ignored. -/
def Obligations.BusyWritesAreRejected : Prop :=
  ∀ (s : State) (off : Offset) (d : Word), s.busy = true → off.toNat % 4 = 0 →
    (off ∈ [0x01C, 0x018, 0x020, 0x024] ∨
        (∃ m i, targetOf off = .cell m i ∧ m ∈ [MemId.blkMem, .symMem, .freqMem]) →
      ∃ t, busAccess (wordAccess off (.write d)) s = .next t ∧
        Captured .busy true (off.setWidth 32) s t ∧ ErrorsOnly s t ∧ t.reply = .done ∧
        t.draws = s.draws) ∧
    (targetOf off = .reg .ctrl →
      busAccess (wordAccess off (.write d)) s = .next { ctrlWrite d s with reply := .done }) ∧
    (targetOf off = .reserved ∨
        (∃ r, targetOf off = .reg r ∧ r ∉ [Reg.ctrl, .cmd, .cfg, .arg0, .arg1]) ∨
        (∃ m i, targetOf off = .cell m i ∧ m ∈ [MemId.bwtOut, .bookCode, .bookLen]) →
      busAccess (wordAccess off (.write d)) s = .next { s with reply := .done })

/-- R23: writes to read-only registers and reserved offsets are ignored, busy or not; reserved offsets
and reserved register fields read 0, and reserved bits written to CTRL and CFG are ignored. And sections 3 to
6 of 10_state with the code numbers of section 1 of 60_exceptions: the word each register reads as, bit by bit
for STATUS, ERRCODE and CFG. -/
def Obligations.ReadOnlyWritesAreIgnored : Prop :=
  (∀ s : State,
    (s.busy = true ↔ s.pend ≠ none) ∧
    ((s.readReg .status).getLsbD 0 = s.busy ∧ (s.readReg .status).getLsbD 1 = s.err ∧
      (s.readReg .status).getLsbD 2 = s.bwClosed ∧ (s.readReg .status).getLsbD 3 = s.bookValid ∧
      (s.readReg .status).getLsbD 4 = s.bwtValid) ∧
    ((s.readReg .errcode).getLsbD 8 = s.errSrc ∧
      ∀ c ∈ codeTable, s.errCode = c.1 → (s.readReg .errcode).toNat % 16 = c.2) ∧
    ((s.readReg .cfg).getLsbD 8 = s.tie ∧ (s.readReg .cfg).toNat % 16 = s.blockSize.toNat) ∧
    (s.cache.length ≤ 64 → (s.readReg .bwNbits).toNat = s.cache.length) ∧
    s.readReg .id = 0x627A3277 ∧ s.readReg .param = 0x01020814 ∧ s.readReg .ctrl = 0 ∧
    s.readReg .cmd = 0 ∧ s.readReg .errinfo = s.errInfo ∧ s.readReg .arg0 = s.arg0 ∧
    s.readReg .arg1 = s.arg1 ∧ s.readReg .bwtOrigin = s.bwtOrigin ∧ s.readReg .bwtLen = s.bwtLen ∧
    (s.readReg .bookN).toNat = s.bookN.toNat ∧ (s.readReg .bookMaxlen).toNat = s.bookMaxlen.toNat ∧
    s.readReg .bwBytes = s.bwBytes) ∧
  (∀ (s : State) (off : Offset) (d : Word), off.toNat % 4 = 0 →
    targetOf off = .reserved ∨
      (∃ r, targetOf off = .reg r ∧
        r ∈ [Reg.id, .param, .status, .errcode, .errinfo, .bwtOrigin, .bwtLen, .bookN, .bookMaxlen,
          .bwNbits, .bwBytes]) →
    busAccess (wordAccess off (.write d)) s = .next { s with reply := .done }) ∧
  (∀ (s : State) (off : Offset), off.toNat % 4 = 0 → targetOf off = .reserved →
    busAccess (wordAccess off .read) s = .next { s with reply := .data 0 }) ∧
  (∀ s : State, s.readReg .cfg &&& 0xFFFFFEF0 = 0 ∧ s.readReg .status &&& 0xFFFFFFE0 = 0 ∧
    s.readReg .errcode &&& 0xFFFFFEF0 = 0) ∧
  ∀ (s : State) (off : Offset) (d : Word), ctrlWrite d s = ctrlWrite (d &&& 3) s ∧
    (s.busy = false → 1 ≤ d.toNat % 16 → d.toNat % 16 ≤ 9 → cfgWrite off d s = cfgWrite off (d &&& 0x10F) s)

/-- R96, R99, R100: a CMD write starts the word with the ARG values latched, a CFG write stores a legal
block size and the tie bit or is rejected whole, an ARG write stores its word; while a command is
pending each is rejected with BUSY and its offset. -/
def Obligations.IdleRegisterWrites : Prop :=
  (∀ (s : State) (d : Word), s.busy = false →
    busAccess (wordAccess 0x01C (.write d)) s =
      .next { s with pend := some { word := d, a0 := s.arg0, a1 := s.arg1 }, reply := .done } ∧
    busAccess (wordAccess 0x020 (.write d)) s = .next { s with arg0 := d, reply := .done } ∧
    busAccess (wordAccess 0x024 (.write d)) s = .next { s with arg1 := d, reply := .done } ∧
    (1 ≤ d.toNat % 16 → d.toNat % 16 ≤ 9 →
      ∃ t, busAccess (wordAccess 0x018 (.write d)) s = .next t ∧ t.blockSize.toNat = d.toNat % 16 ∧
        t.tie = d.getLsbD 8 ∧
        t = { s with blockSize := t.blockSize, tie := t.tie, reply := .done }) ∧
    (d.toNat % 16 < 1 ∨ 9 < d.toNat % 16 →
      ∃ t, busAccess (wordAccess 0x018 (.write d)) s = .next t ∧
        Captured .invalidArgument true d s t ∧ ErrorsOnly s t ∧ t.reply = .done ∧
        t.draws = s.draws)) ∧
  ∀ (s : State) (d : Word) (off : Offset), s.busy = true → off ∈ [0x01C, 0x018, 0x020, 0x024] →
    ∃ t, busAccess (wordAccess off (.write d)) s = .next t ∧
      Captured .busy true (off.setWidth 32) s t ∧ ErrorsOnly s t ∧ t.reply = .done ∧ t.draws = s.draws

/-! ### Reset (70_reset_and_hazards) -/

/-- R167, R168, R169, R170: after either reset, and in State.reset, every register reads its reset value,
the cache is empty and nothing is pending; a hard reset makes every element unwritten; a soft reset of an
idle block keeps every element; neither changes the sink of an idle block, so cached bits are lost. -/
def Obligations.ResetsLeaveResetState : Prop :=
  (∀ (s t : State), t = softReset s ∨ t = hardReset s ∨ t = State.reset →
    (∀ r, t.readReg r = ResetValue r) ∧ t.cache = [] ∧ t.pend = none ∧ t.busy = false) ∧
  AllUnwritten State.reset ∧
  ∀ s : State, AllUnwritten (hardReset s) ∧ (hardReset s).sink = (softReset s).sink ∧
    (s.pend = none →
      SameMemories s (softReset s) ∧ (softReset s).sink = s.sink ∧ (hardReset s).sink = s.sink)

/-- R171: a reset while a command is pending makes unwritten the elements the command would have written
and no other, gives the sink some first bytes, from none to all, of those it would still have emitted, and
captures no error. A command that would have raised an error would have done neither: that clause is the
model's reading of R101 and R171, log entry 12; the share of the sink is the free value of log entry 10. -/
def Obligations.ResetAbortsPendingCommand : Prop :=
  ∀ (s : State) (p : Pending) (i : Instr), s.pend = some p → decode p.word = .ok i →
    (softReset s).pend = none ∧ (softReset s).err = false ∧ (softReset s).errCode = .none ∧
    (∀ t, runCmd i s = .done t →
      (∃ out k, t.sink = s.sink ++ out ∧ k ≤ out.length - p.sent ∧
        (softReset s).sink = s.sink ++ (out.drop p.sent).take k) ∧
      (∀ m k, WriteTarget s i m k → (softReset s).readCell m k = none) ∧
      (∀ m k, ¬ WriteTarget s i m k → (softReset s).readCell m k = s.readCell m k)) ∧
    (∀ code t, runCmd i s = .raised code t →
      (softReset s).sink = s.sink ∧ SameMemories s (softReset s)) ∧
    (i = .bwtRun → 1 ≤ s.a0.toNat → s.a0.toNat ≤ 100000 * s.blockSize.toNat →
      ∀ k, k < s.a0.toNat → Mem.read (softReset s).bwtOut k = none)

/-! ### Isolation -/

/-- 10_state sections 5 and 8: the operands of an accepted command are latched, so the ARG registers have
no effect on what a pending command does. -/
def Obligations.LatchedOperandsAreUsed : Prop :=
  ∀ (s : State) (i : Instr) (p : Pending) (x y : Word), s.pend = some p →
    (∀ t, exec i s = .next t →
      exec i { s with arg0 := x, arg1 := y } = .next { t with arg0 := x, arg1 := y }) ∧
    (∀ r, exec i s = .fault r → exec i { s with arg0 := x, arg1 := y } = .fault r)

/-- Section 3 of 30_encoding: the assembler emits no word that decodes to Illegal, except through `.word`, and refuses immediates
out of range, read-only memories and indices at or beyond a memory's size, but no `wr` of a legal word or to
another offset. -/
def Obligations.AssemblerEmitsLegalWords : Prop :=
  (∀ (off : Offset) (v : Word), off ≠ 0x01C ∨ (∃ i, decode v = .ok i) →
    assemble (.wr off v) = .ok [busWrite off v]) ∧
  (∀ (l : HostLine) (es : List Event) (d : Word), (∀ w, l ≠ .word w) →
    assemble l = .ok es → busWrite 0x01C d ∈ es → ∃ i, decode d = .ok i) ∧
  (∀ m i v, writableMem m = false ∨ memSize m ≤ i → ∃ r, assemble (.mem m i v) = .error r) ∧
  ∀ i : Instr, i.wellFormed = false → assemble (.cmd i) = .error .immediate

/-! ### Invariants of every step -/

/-- The memories stay in canonical form, within their sizes, and CFG.BLOCK_SIZE stays in [1, 9]
(10_state sections 4 and 7, with the CFG write of 40_control). -/
def Obligations.MemoryStaysCanonical : Prop :=
  ∀ s t : State, MemoryInv s → step s = .next t → MemoryInv t

/-- The cache stays within CACHE_BITS, and empty while the writer is closed (10_state section 8,
41_bitwriter section 1), and what the sink accepted early of the pending command stays the first bytes of that
command, at the sink's end (20_memory section 4; log entry 14). -/
def Obligations.WriterStaysWithinCache : Prop :=
  ∀ s t : State, WriterInv s → step s = .next t → WriterInv t

/-- ERRCODE and ERRINFO stay 0 while ERR is 0, and code 4 is never captured (10_state section 4,
60_exceptions sections 1 and 2). -/
def Obligations.ErrorRegistersStayConsistent : Prop :=
  ∀ s t : State, ErrorInv s → step s = .next t → ErrorInv t

/-- A valid BWT result stays a legal one (10_state sections 4 and 6). -/
def Obligations.BwtResultStaysLegal : Prop :=
  ∀ s t : State, BwtInv s → step s = .next t → BwtInv t

/-- A valid book stays a legal one (10_state sections 4, 6 and 7, 43_huffman section 3). -/
def Obligations.BookStaysLegal : Prop :=
  ∀ s t : State, BookInv s → step s = .next t → BookInv t

/-- The state after reset meets every invariant. -/
def Obligations.ResetMeetsInvariants : Prop :=
  MemoryInv State.reset ∧ WriterInv State.reset ∧ ErrorInv State.reset ∧ BwtInv State.reset ∧
    BookInv State.reset
end

