-- ==== Sys2Proof/Laws/State.lean ====
section
/-! SUPPORT. The fields of a state after each named update: one small lemma each, so that no later proof unfolds one. -/

namespace Sys2Proof.Laws

open Sys2Proof.Machine

@[simp] theorem emitByte_err (s : State) (b : Byte) : (emitByte s b).err = s.err := rfl
@[simp] theorem emitByte_bwClosed (s : State) (b : Byte) : (emitByte s b).bwClosed = s.bwClosed := rfl
@[simp] theorem emitByte_bookValid (s : State) (b : Byte) : (emitByte s b).bookValid = s.bookValid := rfl
@[simp] theorem emitByte_bwtValid (s : State) (b : Byte) : (emitByte s b).bwtValid = s.bwtValid := rfl
@[simp] theorem emitByte_errCode (s : State) (b : Byte) : (emitByte s b).errCode = s.errCode := rfl
@[simp] theorem emitByte_errSrc (s : State) (b : Byte) : (emitByte s b).errSrc = s.errSrc := rfl
@[simp] theorem emitByte_errInfo (s : State) (b : Byte) : (emitByte s b).errInfo = s.errInfo := rfl
@[simp] theorem emitByte_blockSize (s : State) (b : Byte) : (emitByte s b).blockSize = s.blockSize := rfl
@[simp] theorem emitByte_tie (s : State) (b : Byte) : (emitByte s b).tie = s.tie := rfl
@[simp] theorem emitByte_arg0 (s : State) (b : Byte) : (emitByte s b).arg0 = s.arg0 := rfl
@[simp] theorem emitByte_arg1 (s : State) (b : Byte) : (emitByte s b).arg1 = s.arg1 := rfl
@[simp] theorem emitByte_bwtOrigin (s : State) (b : Byte) : (emitByte s b).bwtOrigin = s.bwtOrigin := rfl
@[simp] theorem emitByte_bwtLen (s : State) (b : Byte) : (emitByte s b).bwtLen = s.bwtLen := rfl
@[simp] theorem emitByte_bookN (s : State) (b : Byte) : (emitByte s b).bookN = s.bookN := rfl
@[simp] theorem emitByte_bookMaxlen (s : State) (b : Byte) : (emitByte s b).bookMaxlen = s.bookMaxlen := rfl
@[simp] theorem emitByte_bwBytes (s : State) (b : Byte) : (emitByte s b).bwBytes = s.bwBytes + 1 := rfl
@[simp] theorem emitByte_cache (s : State) (b : Byte) : (emitByte s b).cache = s.cache := rfl
@[simp] theorem emitByte_pend (s : State) (b : Byte) : (emitByte s b).pend = s.pend := rfl
@[simp] theorem emitByte_blkMem (s : State) (b : Byte) : (emitByte s b).blkMem = s.blkMem := rfl
@[simp] theorem emitByte_bwtOut (s : State) (b : Byte) : (emitByte s b).bwtOut = s.bwtOut := rfl
@[simp] theorem emitByte_symMem (s : State) (b : Byte) : (emitByte s b).symMem = s.symMem := rfl
@[simp] theorem emitByte_freqMem (s : State) (b : Byte) : (emitByte s b).freqMem = s.freqMem := rfl
@[simp] theorem emitByte_bookCode (s : State) (b : Byte) : (emitByte s b).bookCode = s.bookCode := rfl
@[simp] theorem emitByte_bookLen (s : State) (b : Byte) : (emitByte s b).bookLen = s.bookLen := rfl
@[simp] theorem emitByte_sink (s : State) (b : Byte) : (emitByte s b).sink = s.sink ++ [b] := rfl
@[simp] theorem emitByte_sinkStall (s : State) (b : Byte) : (emitByte s b).sinkStall = s.sinkStall := rfl
@[simp] theorem emitByte_events (s : State) (b : Byte) : (emitByte s b).events = s.events := rfl
@[simp] theorem emitByte_reply (s : State) (b : Byte) : (emitByte s b).reply = s.reply := rfl
@[simp] theorem emitByte_draws (s : State) (b : Byte) : (emitByte s b).draws = s.draws := rfl

@[simp] theorem clearError_err (s : State) : (clearError s).err = false := rfl
@[simp] theorem clearError_bwClosed (s : State) : (clearError s).bwClosed = s.bwClosed := rfl
@[simp] theorem clearError_bookValid (s : State) : (clearError s).bookValid = s.bookValid := rfl
@[simp] theorem clearError_bwtValid (s : State) : (clearError s).bwtValid = s.bwtValid := rfl
@[simp] theorem clearError_errCode (s : State) : (clearError s).errCode = .none := rfl
@[simp] theorem clearError_errSrc (s : State) : (clearError s).errSrc = false := rfl
@[simp] theorem clearError_errInfo (s : State) : (clearError s).errInfo = 0 := rfl
@[simp] theorem clearError_blockSize (s : State) : (clearError s).blockSize = s.blockSize := rfl
@[simp] theorem clearError_tie (s : State) : (clearError s).tie = s.tie := rfl
@[simp] theorem clearError_arg0 (s : State) : (clearError s).arg0 = s.arg0 := rfl
@[simp] theorem clearError_arg1 (s : State) : (clearError s).arg1 = s.arg1 := rfl
@[simp] theorem clearError_bwtOrigin (s : State) : (clearError s).bwtOrigin = s.bwtOrigin := rfl
@[simp] theorem clearError_bwtLen (s : State) : (clearError s).bwtLen = s.bwtLen := rfl
@[simp] theorem clearError_bookN (s : State) : (clearError s).bookN = s.bookN := rfl
@[simp] theorem clearError_bookMaxlen (s : State) : (clearError s).bookMaxlen = s.bookMaxlen := rfl
@[simp] theorem clearError_bwBytes (s : State) : (clearError s).bwBytes = s.bwBytes := rfl
@[simp] theorem clearError_cache (s : State) : (clearError s).cache = s.cache := rfl
@[simp] theorem clearError_pend (s : State) : (clearError s).pend = s.pend := rfl
@[simp] theorem clearError_blkMem (s : State) : (clearError s).blkMem = s.blkMem := rfl
@[simp] theorem clearError_bwtOut (s : State) : (clearError s).bwtOut = s.bwtOut := rfl
@[simp] theorem clearError_symMem (s : State) : (clearError s).symMem = s.symMem := rfl
@[simp] theorem clearError_freqMem (s : State) : (clearError s).freqMem = s.freqMem := rfl
@[simp] theorem clearError_bookCode (s : State) : (clearError s).bookCode = s.bookCode := rfl
@[simp] theorem clearError_bookLen (s : State) : (clearError s).bookLen = s.bookLen := rfl
@[simp] theorem clearError_sink (s : State) : (clearError s).sink = s.sink := rfl
@[simp] theorem clearError_sinkStall (s : State) : (clearError s).sinkStall = s.sinkStall := rfl
@[simp] theorem clearError_events (s : State) : (clearError s).events = s.events := rfl
@[simp] theorem clearError_reply (s : State) : (clearError s).reply = s.reply := rfl
@[simp] theorem clearError_draws (s : State) : (clearError s).draws = s.draws := rfl

@[simp] theorem complete_err (s : State) : (s.complete).err = s.err := rfl
@[simp] theorem complete_bwClosed (s : State) : (s.complete).bwClosed = s.bwClosed := rfl
@[simp] theorem complete_bookValid (s : State) : (s.complete).bookValid = s.bookValid := rfl
@[simp] theorem complete_bwtValid (s : State) : (s.complete).bwtValid = s.bwtValid := rfl
@[simp] theorem complete_errCode (s : State) : (s.complete).errCode = s.errCode := rfl
@[simp] theorem complete_errSrc (s : State) : (s.complete).errSrc = s.errSrc := rfl
@[simp] theorem complete_errInfo (s : State) : (s.complete).errInfo = s.errInfo := rfl
@[simp] theorem complete_blockSize (s : State) : (s.complete).blockSize = s.blockSize := rfl
@[simp] theorem complete_tie (s : State) : (s.complete).tie = s.tie := rfl
@[simp] theorem complete_arg0 (s : State) : (s.complete).arg0 = s.arg0 := rfl
@[simp] theorem complete_arg1 (s : State) : (s.complete).arg1 = s.arg1 := rfl
@[simp] theorem complete_bwtOrigin (s : State) : (s.complete).bwtOrigin = s.bwtOrigin := rfl
@[simp] theorem complete_bwtLen (s : State) : (s.complete).bwtLen = s.bwtLen := rfl
@[simp] theorem complete_bookN (s : State) : (s.complete).bookN = s.bookN := rfl
@[simp] theorem complete_bookMaxlen (s : State) : (s.complete).bookMaxlen = s.bookMaxlen := rfl
@[simp] theorem complete_bwBytes (s : State) : (s.complete).bwBytes = s.bwBytes := rfl
@[simp] theorem complete_cache (s : State) : (s.complete).cache = s.cache := rfl
@[simp] theorem complete_pend (s : State) : (s.complete).pend = none := rfl
@[simp] theorem complete_blkMem (s : State) : (s.complete).blkMem = s.blkMem := rfl
@[simp] theorem complete_bwtOut (s : State) : (s.complete).bwtOut = s.bwtOut := rfl
@[simp] theorem complete_symMem (s : State) : (s.complete).symMem = s.symMem := rfl
@[simp] theorem complete_freqMem (s : State) : (s.complete).freqMem = s.freqMem := rfl
@[simp] theorem complete_bookCode (s : State) : (s.complete).bookCode = s.bookCode := rfl
@[simp] theorem complete_bookLen (s : State) : (s.complete).bookLen = s.bookLen := rfl
@[simp] theorem complete_sink (s : State) : (s.complete).sink = s.sink := rfl
@[simp] theorem complete_sinkStall (s : State) : (s.complete).sinkStall = s.sinkStall := rfl
@[simp] theorem complete_events (s : State) : (s.complete).events = s.events := rfl
@[simp] theorem complete_reply (s : State) : (s.complete).reply = s.reply := rfl
@[simp] theorem complete_draws (s : State) : (s.complete).draws = s.draws := rfl

@[simp] theorem replyFree_err (s : State) : (replyFree s).err = s.err := rfl
@[simp] theorem replyFree_bwClosed (s : State) : (replyFree s).bwClosed = s.bwClosed := rfl
@[simp] theorem replyFree_bookValid (s : State) : (replyFree s).bookValid = s.bookValid := rfl
@[simp] theorem replyFree_bwtValid (s : State) : (replyFree s).bwtValid = s.bwtValid := rfl
@[simp] theorem replyFree_errCode (s : State) : (replyFree s).errCode = s.errCode := rfl
@[simp] theorem replyFree_errSrc (s : State) : (replyFree s).errSrc = s.errSrc := rfl
@[simp] theorem replyFree_errInfo (s : State) : (replyFree s).errInfo = s.errInfo := rfl
@[simp] theorem replyFree_blockSize (s : State) : (replyFree s).blockSize = s.blockSize := rfl
@[simp] theorem replyFree_tie (s : State) : (replyFree s).tie = s.tie := rfl
@[simp] theorem replyFree_arg0 (s : State) : (replyFree s).arg0 = s.arg0 := rfl
@[simp] theorem replyFree_arg1 (s : State) : (replyFree s).arg1 = s.arg1 := rfl
@[simp] theorem replyFree_bwtOrigin (s : State) : (replyFree s).bwtOrigin = s.bwtOrigin := rfl
@[simp] theorem replyFree_bwtLen (s : State) : (replyFree s).bwtLen = s.bwtLen := rfl
@[simp] theorem replyFree_bookN (s : State) : (replyFree s).bookN = s.bookN := rfl
@[simp] theorem replyFree_bookMaxlen (s : State) : (replyFree s).bookMaxlen = s.bookMaxlen := rfl
@[simp] theorem replyFree_bwBytes (s : State) : (replyFree s).bwBytes = s.bwBytes := rfl
@[simp] theorem replyFree_cache (s : State) : (replyFree s).cache = s.cache := rfl
@[simp] theorem replyFree_pend (s : State) : (replyFree s).pend = s.pend := rfl
@[simp] theorem replyFree_blkMem (s : State) : (replyFree s).blkMem = s.blkMem := rfl
@[simp] theorem replyFree_bwtOut (s : State) : (replyFree s).bwtOut = s.bwtOut := rfl
@[simp] theorem replyFree_symMem (s : State) : (replyFree s).symMem = s.symMem := rfl
@[simp] theorem replyFree_freqMem (s : State) : (replyFree s).freqMem = s.freqMem := rfl
@[simp] theorem replyFree_bookCode (s : State) : (replyFree s).bookCode = s.bookCode := rfl
@[simp] theorem replyFree_bookLen (s : State) : (replyFree s).bookLen = s.bookLen := rfl
@[simp] theorem replyFree_sink (s : State) : (replyFree s).sink = s.sink := rfl
@[simp] theorem replyFree_sinkStall (s : State) : (replyFree s).sinkStall = s.sinkStall := rfl
@[simp] theorem replyFree_events (s : State) : (replyFree s).events = s.events := rfl
@[simp] theorem replyFree_reply (s : State) : (replyFree s).reply = .data (Config.freeRead s.draws) := rfl
@[simp] theorem replyFree_draws (s : State) : (replyFree s).draws = s.draws + 1 := rfl

@[simp] theorem resetRegisters_err (s : State) : (resetRegisters s).err = State.reset.err := rfl
@[simp] theorem resetRegisters_bwClosed (s : State) : (resetRegisters s).bwClosed = State.reset.bwClosed := rfl
@[simp] theorem resetRegisters_bookValid (s : State) : (resetRegisters s).bookValid = State.reset.bookValid := rfl
@[simp] theorem resetRegisters_bwtValid (s : State) : (resetRegisters s).bwtValid = State.reset.bwtValid := rfl
@[simp] theorem resetRegisters_errCode (s : State) : (resetRegisters s).errCode = State.reset.errCode := rfl
@[simp] theorem resetRegisters_errSrc (s : State) : (resetRegisters s).errSrc = State.reset.errSrc := rfl
@[simp] theorem resetRegisters_errInfo (s : State) : (resetRegisters s).errInfo = State.reset.errInfo := rfl
@[simp] theorem resetRegisters_blockSize (s : State) : (resetRegisters s).blockSize = State.reset.blockSize := rfl
@[simp] theorem resetRegisters_tie (s : State) : (resetRegisters s).tie = State.reset.tie := rfl
@[simp] theorem resetRegisters_arg0 (s : State) : (resetRegisters s).arg0 = State.reset.arg0 := rfl
@[simp] theorem resetRegisters_arg1 (s : State) : (resetRegisters s).arg1 = State.reset.arg1 := rfl
@[simp] theorem resetRegisters_bwtOrigin (s : State) : (resetRegisters s).bwtOrigin = State.reset.bwtOrigin := rfl
@[simp] theorem resetRegisters_bwtLen (s : State) : (resetRegisters s).bwtLen = State.reset.bwtLen := rfl
@[simp] theorem resetRegisters_bookN (s : State) : (resetRegisters s).bookN = State.reset.bookN := rfl
@[simp] theorem resetRegisters_bookMaxlen (s : State) : (resetRegisters s).bookMaxlen = State.reset.bookMaxlen := rfl
@[simp] theorem resetRegisters_bwBytes (s : State) : (resetRegisters s).bwBytes = State.reset.bwBytes := rfl
@[simp] theorem resetRegisters_cache (s : State) : (resetRegisters s).cache = State.reset.cache := rfl
@[simp] theorem resetRegisters_pend (s : State) : (resetRegisters s).pend = State.reset.pend := rfl
@[simp] theorem resetRegisters_blkMem (s : State) : (resetRegisters s).blkMem = s.blkMem := rfl
@[simp] theorem resetRegisters_bwtOut (s : State) : (resetRegisters s).bwtOut = s.bwtOut := rfl
@[simp] theorem resetRegisters_symMem (s : State) : (resetRegisters s).symMem = s.symMem := rfl
@[simp] theorem resetRegisters_freqMem (s : State) : (resetRegisters s).freqMem = s.freqMem := rfl
@[simp] theorem resetRegisters_bookCode (s : State) : (resetRegisters s).bookCode = s.bookCode := rfl
@[simp] theorem resetRegisters_bookLen (s : State) : (resetRegisters s).bookLen = s.bookLen := rfl
@[simp] theorem resetRegisters_sink (s : State) : (resetRegisters s).sink = s.sink := rfl
@[simp] theorem resetRegisters_sinkStall (s : State) : (resetRegisters s).sinkStall = s.sinkStall := rfl
@[simp] theorem resetRegisters_events (s : State) : (resetRegisters s).events = s.events := rfl
@[simp] theorem resetRegisters_reply (s : State) : (resetRegisters s).reply = s.reply := rfl
@[simp] theorem resetRegisters_draws (s : State) : (resetRegisters s).draws = s.draws := rfl

@[simp] theorem sinkTakesSome_err (bytes : List Byte) (s : State) : (sinkTakesSome bytes s).err = s.err := rfl
@[simp] theorem sinkTakesSome_bwClosed (bytes : List Byte) (s : State) : (sinkTakesSome bytes s).bwClosed = s.bwClosed := rfl
@[simp] theorem sinkTakesSome_bookValid (bytes : List Byte) (s : State) : (sinkTakesSome bytes s).bookValid = s.bookValid := rfl
@[simp] theorem sinkTakesSome_bwtValid (bytes : List Byte) (s : State) : (sinkTakesSome bytes s).bwtValid = s.bwtValid := rfl
@[simp] theorem sinkTakesSome_errCode (bytes : List Byte) (s : State) : (sinkTakesSome bytes s).errCode = s.errCode := rfl
@[simp] theorem sinkTakesSome_errSrc (bytes : List Byte) (s : State) : (sinkTakesSome bytes s).errSrc = s.errSrc := rfl
@[simp] theorem sinkTakesSome_errInfo (bytes : List Byte) (s : State) : (sinkTakesSome bytes s).errInfo = s.errInfo := rfl
@[simp] theorem sinkTakesSome_blockSize (bytes : List Byte) (s : State) : (sinkTakesSome bytes s).blockSize = s.blockSize := rfl
@[simp] theorem sinkTakesSome_tie (bytes : List Byte) (s : State) : (sinkTakesSome bytes s).tie = s.tie := rfl
@[simp] theorem sinkTakesSome_arg0 (bytes : List Byte) (s : State) : (sinkTakesSome bytes s).arg0 = s.arg0 := rfl
@[simp] theorem sinkTakesSome_arg1 (bytes : List Byte) (s : State) : (sinkTakesSome bytes s).arg1 = s.arg1 := rfl
@[simp] theorem sinkTakesSome_bwtOrigin (bytes : List Byte) (s : State) : (sinkTakesSome bytes s).bwtOrigin = s.bwtOrigin := rfl
@[simp] theorem sinkTakesSome_bwtLen (bytes : List Byte) (s : State) : (sinkTakesSome bytes s).bwtLen = s.bwtLen := rfl
@[simp] theorem sinkTakesSome_bookN (bytes : List Byte) (s : State) : (sinkTakesSome bytes s).bookN = s.bookN := rfl
@[simp] theorem sinkTakesSome_bookMaxlen (bytes : List Byte) (s : State) : (sinkTakesSome bytes s).bookMaxlen = s.bookMaxlen := rfl
@[simp] theorem sinkTakesSome_bwBytes (bytes : List Byte) (s : State) : (sinkTakesSome bytes s).bwBytes = s.bwBytes := rfl
@[simp] theorem sinkTakesSome_cache (bytes : List Byte) (s : State) : (sinkTakesSome bytes s).cache = s.cache := rfl
@[simp] theorem sinkTakesSome_pend (bytes : List Byte) (s : State) : (sinkTakesSome bytes s).pend = s.pend := rfl
@[simp] theorem sinkTakesSome_blkMem (bytes : List Byte) (s : State) : (sinkTakesSome bytes s).blkMem = s.blkMem := rfl
@[simp] theorem sinkTakesSome_bwtOut (bytes : List Byte) (s : State) : (sinkTakesSome bytes s).bwtOut = s.bwtOut := rfl
@[simp] theorem sinkTakesSome_symMem (bytes : List Byte) (s : State) : (sinkTakesSome bytes s).symMem = s.symMem := rfl
@[simp] theorem sinkTakesSome_freqMem (bytes : List Byte) (s : State) : (sinkTakesSome bytes s).freqMem = s.freqMem := rfl
@[simp] theorem sinkTakesSome_bookCode (bytes : List Byte) (s : State) : (sinkTakesSome bytes s).bookCode = s.bookCode := rfl
@[simp] theorem sinkTakesSome_bookLen (bytes : List Byte) (s : State) : (sinkTakesSome bytes s).bookLen = s.bookLen := rfl
@[simp] theorem sinkTakesSome_sink (bytes : List Byte) (s : State) : (sinkTakesSome bytes s).sink = s.sink ++ bytes.take (Config.freeLength s.draws % (bytes.length + 1)) := rfl
@[simp] theorem sinkTakesSome_sinkStall (bytes : List Byte) (s : State) : (sinkTakesSome bytes s).sinkStall = s.sinkStall := rfl
@[simp] theorem sinkTakesSome_events (bytes : List Byte) (s : State) : (sinkTakesSome bytes s).events = s.events := rfl
@[simp] theorem sinkTakesSome_reply (bytes : List Byte) (s : State) : (sinkTakesSome bytes s).reply = s.reply := rfl
@[simp] theorem sinkTakesSome_draws (bytes : List Byte) (s : State) : (sinkTakesSome bytes s).draws = s.draws := rfl

@[simp] theorem writeBook_err (n : Nat) (lens : List Nat) (s : State) : (writeBook n lens s).err = s.err := rfl
@[simp] theorem writeBook_bwClosed (n : Nat) (lens : List Nat) (s : State) : (writeBook n lens s).bwClosed = s.bwClosed := rfl
@[simp] theorem writeBook_bookValid (n : Nat) (lens : List Nat) (s : State) : (writeBook n lens s).bookValid = true := rfl
@[simp] theorem writeBook_bwtValid (n : Nat) (lens : List Nat) (s : State) : (writeBook n lens s).bwtValid = s.bwtValid := rfl
@[simp] theorem writeBook_errCode (n : Nat) (lens : List Nat) (s : State) : (writeBook n lens s).errCode = s.errCode := rfl
@[simp] theorem writeBook_errSrc (n : Nat) (lens : List Nat) (s : State) : (writeBook n lens s).errSrc = s.errSrc := rfl
@[simp] theorem writeBook_errInfo (n : Nat) (lens : List Nat) (s : State) : (writeBook n lens s).errInfo = s.errInfo := rfl
@[simp] theorem writeBook_blockSize (n : Nat) (lens : List Nat) (s : State) : (writeBook n lens s).blockSize = s.blockSize := rfl
@[simp] theorem writeBook_tie (n : Nat) (lens : List Nat) (s : State) : (writeBook n lens s).tie = s.tie := rfl
@[simp] theorem writeBook_arg0 (n : Nat) (lens : List Nat) (s : State) : (writeBook n lens s).arg0 = s.arg0 := rfl
@[simp] theorem writeBook_arg1 (n : Nat) (lens : List Nat) (s : State) : (writeBook n lens s).arg1 = s.arg1 := rfl
@[simp] theorem writeBook_bwtOrigin (n : Nat) (lens : List Nat) (s : State) : (writeBook n lens s).bwtOrigin = s.bwtOrigin := rfl
@[simp] theorem writeBook_bwtLen (n : Nat) (lens : List Nat) (s : State) : (writeBook n lens s).bwtLen = s.bwtLen := rfl
@[simp] theorem writeBook_bookN (n : Nat) (lens : List Nat) (s : State) : (writeBook n lens s).bookN = BitVec.ofNat 9 n := rfl
@[simp] theorem writeBook_bookMaxlen (n : Nat) (lens : List Nat) (s : State) : (writeBook n lens s).bookMaxlen = BitVec.ofNat 6 (maxLen lens) := rfl
@[simp] theorem writeBook_bwBytes (n : Nat) (lens : List Nat) (s : State) : (writeBook n lens s).bwBytes = s.bwBytes := rfl
@[simp] theorem writeBook_cache (n : Nat) (lens : List Nat) (s : State) : (writeBook n lens s).cache = s.cache := rfl
@[simp] theorem writeBook_pend (n : Nat) (lens : List Nat) (s : State) : (writeBook n lens s).pend = s.pend := rfl
@[simp] theorem writeBook_blkMem (n : Nat) (lens : List Nat) (s : State) : (writeBook n lens s).blkMem = s.blkMem := rfl
@[simp] theorem writeBook_bwtOut (n : Nat) (lens : List Nat) (s : State) : (writeBook n lens s).bwtOut = s.bwtOut := rfl
@[simp] theorem writeBook_symMem (n : Nat) (lens : List Nat) (s : State) : (writeBook n lens s).symMem = s.symMem := rfl
@[simp] theorem writeBook_freqMem (n : Nat) (lens : List Nat) (s : State) : (writeBook n lens s).freqMem = s.freqMem := rfl
@[simp] theorem writeBook_bookCode (n : Nat) (lens : List Nat) (s : State) : (writeBook n lens s).bookCode = Mem.writeFrom s.bookCode 0 ((canonicalCodes lens).map (BitVec.ofNat 32)) := rfl
@[simp] theorem writeBook_bookLen (n : Nat) (lens : List Nat) (s : State) : (writeBook n lens s).bookLen = Mem.writeFrom s.bookLen 0 (lens.map (BitVec.ofNat 6)) := rfl
@[simp] theorem writeBook_sink (n : Nat) (lens : List Nat) (s : State) : (writeBook n lens s).sink = s.sink := rfl
@[simp] theorem writeBook_sinkStall (n : Nat) (lens : List Nat) (s : State) : (writeBook n lens s).sinkStall = s.sinkStall := rfl
@[simp] theorem writeBook_events (n : Nat) (lens : List Nat) (s : State) : (writeBook n lens s).events = s.events := rfl
@[simp] theorem writeBook_reply (n : Nat) (lens : List Nat) (s : State) : (writeBook n lens s).reply = s.reply := rfl
@[simp] theorem writeBook_draws (n : Nat) (lens : List Nat) (s : State) : (writeBook n lens s).draws = s.draws := rfl

@[simp] theorem placeCommand_err (s : State) (w : Word) : (placeCommand s w).err = s.err := rfl
@[simp] theorem placeCommand_bwClosed (s : State) (w : Word) : (placeCommand s w).bwClosed = s.bwClosed := rfl
@[simp] theorem placeCommand_bookValid (s : State) (w : Word) : (placeCommand s w).bookValid = s.bookValid := rfl
@[simp] theorem placeCommand_bwtValid (s : State) (w : Word) : (placeCommand s w).bwtValid = s.bwtValid := rfl
@[simp] theorem placeCommand_errCode (s : State) (w : Word) : (placeCommand s w).errCode = s.errCode := rfl
@[simp] theorem placeCommand_errSrc (s : State) (w : Word) : (placeCommand s w).errSrc = s.errSrc := rfl
@[simp] theorem placeCommand_errInfo (s : State) (w : Word) : (placeCommand s w).errInfo = s.errInfo := rfl
@[simp] theorem placeCommand_blockSize (s : State) (w : Word) : (placeCommand s w).blockSize = s.blockSize := rfl
@[simp] theorem placeCommand_tie (s : State) (w : Word) : (placeCommand s w).tie = s.tie := rfl
@[simp] theorem placeCommand_arg0 (s : State) (w : Word) : (placeCommand s w).arg0 = s.arg0 := rfl
@[simp] theorem placeCommand_arg1 (s : State) (w : Word) : (placeCommand s w).arg1 = s.arg1 := rfl
@[simp] theorem placeCommand_bwtOrigin (s : State) (w : Word) : (placeCommand s w).bwtOrigin = s.bwtOrigin := rfl
@[simp] theorem placeCommand_bwtLen (s : State) (w : Word) : (placeCommand s w).bwtLen = s.bwtLen := rfl
@[simp] theorem placeCommand_bookN (s : State) (w : Word) : (placeCommand s w).bookN = s.bookN := rfl
@[simp] theorem placeCommand_bookMaxlen (s : State) (w : Word) : (placeCommand s w).bookMaxlen = s.bookMaxlen := rfl
@[simp] theorem placeCommand_bwBytes (s : State) (w : Word) : (placeCommand s w).bwBytes = s.bwBytes := rfl
@[simp] theorem placeCommand_cache (s : State) (w : Word) : (placeCommand s w).cache = s.cache := rfl
@[simp] theorem placeCommand_pend (s : State) (w : Word) : (placeCommand s w).pend = some { word := w, a0 := s.arg0, a1 := s.arg1 } := rfl
@[simp] theorem placeCommand_blkMem (s : State) (w : Word) : (placeCommand s w).blkMem = s.blkMem := rfl
@[simp] theorem placeCommand_bwtOut (s : State) (w : Word) : (placeCommand s w).bwtOut = s.bwtOut := rfl
@[simp] theorem placeCommand_symMem (s : State) (w : Word) : (placeCommand s w).symMem = s.symMem := rfl
@[simp] theorem placeCommand_freqMem (s : State) (w : Word) : (placeCommand s w).freqMem = s.freqMem := rfl
@[simp] theorem placeCommand_bookCode (s : State) (w : Word) : (placeCommand s w).bookCode = s.bookCode := rfl
@[simp] theorem placeCommand_bookLen (s : State) (w : Word) : (placeCommand s w).bookLen = s.bookLen := rfl
@[simp] theorem placeCommand_sink (s : State) (w : Word) : (placeCommand s w).sink = s.sink := rfl
@[simp] theorem placeCommand_sinkStall (s : State) (w : Word) : (placeCommand s w).sinkStall = 0 := rfl
@[simp] theorem placeCommand_events (s : State) (w : Word) : (placeCommand s w).events = .engine :: s.events := rfl
@[simp] theorem placeCommand_reply (s : State) (w : Word) : (placeCommand s w).reply = s.reply := rfl
@[simp] theorem placeCommand_draws (s : State) (w : Word) : (placeCommand s w).draws = s.draws := rfl

@[simp] theorem deliver_err (sent : Nat) (s t : State) : (deliver sent s t).err = t.err := rfl
@[simp] theorem deliver_bwClosed (sent : Nat) (s t : State) : (deliver sent s t).bwClosed = t.bwClosed := rfl
@[simp] theorem deliver_bookValid (sent : Nat) (s t : State) : (deliver sent s t).bookValid = t.bookValid := rfl
@[simp] theorem deliver_bwtValid (sent : Nat) (s t : State) : (deliver sent s t).bwtValid = t.bwtValid := rfl
@[simp] theorem deliver_errCode (sent : Nat) (s t : State) : (deliver sent s t).errCode = t.errCode := rfl
@[simp] theorem deliver_errSrc (sent : Nat) (s t : State) : (deliver sent s t).errSrc = t.errSrc := rfl
@[simp] theorem deliver_errInfo (sent : Nat) (s t : State) : (deliver sent s t).errInfo = t.errInfo := rfl
@[simp] theorem deliver_blockSize (sent : Nat) (s t : State) : (deliver sent s t).blockSize = t.blockSize := rfl
@[simp] theorem deliver_tie (sent : Nat) (s t : State) : (deliver sent s t).tie = t.tie := rfl
@[simp] theorem deliver_arg0 (sent : Nat) (s t : State) : (deliver sent s t).arg0 = t.arg0 := rfl
@[simp] theorem deliver_arg1 (sent : Nat) (s t : State) : (deliver sent s t).arg1 = t.arg1 := rfl
@[simp] theorem deliver_bwtOrigin (sent : Nat) (s t : State) : (deliver sent s t).bwtOrigin = t.bwtOrigin := rfl
@[simp] theorem deliver_bwtLen (sent : Nat) (s t : State) : (deliver sent s t).bwtLen = t.bwtLen := rfl
@[simp] theorem deliver_bookN (sent : Nat) (s t : State) : (deliver sent s t).bookN = t.bookN := rfl
@[simp] theorem deliver_bookMaxlen (sent : Nat) (s t : State) : (deliver sent s t).bookMaxlen = t.bookMaxlen := rfl
@[simp] theorem deliver_bwBytes (sent : Nat) (s t : State) : (deliver sent s t).bwBytes = t.bwBytes := rfl
@[simp] theorem deliver_cache (sent : Nat) (s t : State) : (deliver sent s t).cache = t.cache := rfl
@[simp] theorem deliver_pend (sent : Nat) (s t : State) : (deliver sent s t).pend = t.pend := rfl
@[simp] theorem deliver_blkMem (sent : Nat) (s t : State) : (deliver sent s t).blkMem = t.blkMem := rfl
@[simp] theorem deliver_bwtOut (sent : Nat) (s t : State) : (deliver sent s t).bwtOut = t.bwtOut := rfl
@[simp] theorem deliver_symMem (sent : Nat) (s t : State) : (deliver sent s t).symMem = t.symMem := rfl
@[simp] theorem deliver_freqMem (sent : Nat) (s t : State) : (deliver sent s t).freqMem = t.freqMem := rfl
@[simp] theorem deliver_bookCode (sent : Nat) (s t : State) : (deliver sent s t).bookCode = t.bookCode := rfl
@[simp] theorem deliver_bookLen (sent : Nat) (s t : State) : (deliver sent s t).bookLen = t.bookLen := rfl
@[simp] theorem deliver_sink (sent : Nat) (s t : State) : (deliver sent s t).sink = s.sink ++ (newBytes s t).drop sent := rfl
@[simp] theorem deliver_sinkStall (sent : Nat) (s t : State) : (deliver sent s t).sinkStall = t.sinkStall := rfl
@[simp] theorem deliver_events (sent : Nat) (s t : State) : (deliver sent s t).events = t.events := rfl
@[simp] theorem deliver_reply (sent : Nat) (s t : State) : (deliver sent s t).reply = t.reply := rfl
@[simp] theorem deliver_draws (sent : Nat) (s t : State) : (deliver sent s t).draws = t.draws := rfl

@[simp] theorem sinkTakes_err (count : Nat) (s : State) : (sinkTakes count s).err = s.err := by unfold sinkTakes; split <;> rfl
@[simp] theorem sinkTakes_bwClosed (count : Nat) (s : State) : (sinkTakes count s).bwClosed = s.bwClosed := by unfold sinkTakes; split <;> rfl
@[simp] theorem sinkTakes_bookValid (count : Nat) (s : State) : (sinkTakes count s).bookValid = s.bookValid := by unfold sinkTakes; split <;> rfl
@[simp] theorem sinkTakes_bwtValid (count : Nat) (s : State) : (sinkTakes count s).bwtValid = s.bwtValid := by unfold sinkTakes; split <;> rfl
@[simp] theorem sinkTakes_errCode (count : Nat) (s : State) : (sinkTakes count s).errCode = s.errCode := by unfold sinkTakes; split <;> rfl
@[simp] theorem sinkTakes_errSrc (count : Nat) (s : State) : (sinkTakes count s).errSrc = s.errSrc := by unfold sinkTakes; split <;> rfl
@[simp] theorem sinkTakes_errInfo (count : Nat) (s : State) : (sinkTakes count s).errInfo = s.errInfo := by unfold sinkTakes; split <;> rfl
@[simp] theorem sinkTakes_blockSize (count : Nat) (s : State) : (sinkTakes count s).blockSize = s.blockSize := by unfold sinkTakes; split <;> rfl
@[simp] theorem sinkTakes_tie (count : Nat) (s : State) : (sinkTakes count s).tie = s.tie := by unfold sinkTakes; split <;> rfl
@[simp] theorem sinkTakes_arg0 (count : Nat) (s : State) : (sinkTakes count s).arg0 = s.arg0 := by unfold sinkTakes; split <;> rfl
@[simp] theorem sinkTakes_arg1 (count : Nat) (s : State) : (sinkTakes count s).arg1 = s.arg1 := by unfold sinkTakes; split <;> rfl
@[simp] theorem sinkTakes_bwtOrigin (count : Nat) (s : State) : (sinkTakes count s).bwtOrigin = s.bwtOrigin := by unfold sinkTakes; split <;> rfl
@[simp] theorem sinkTakes_bwtLen (count : Nat) (s : State) : (sinkTakes count s).bwtLen = s.bwtLen := by unfold sinkTakes; split <;> rfl
@[simp] theorem sinkTakes_bookN (count : Nat) (s : State) : (sinkTakes count s).bookN = s.bookN := by unfold sinkTakes; split <;> rfl
@[simp] theorem sinkTakes_bookMaxlen (count : Nat) (s : State) : (sinkTakes count s).bookMaxlen = s.bookMaxlen := by unfold sinkTakes; split <;> rfl
@[simp] theorem sinkTakes_bwBytes (count : Nat) (s : State) : (sinkTakes count s).bwBytes = s.bwBytes := by unfold sinkTakes; split <;> rfl
@[simp] theorem sinkTakes_cache (count : Nat) (s : State) : (sinkTakes count s).cache = s.cache := by unfold sinkTakes; split <;> rfl
@[simp] theorem sinkTakes_blkMem (count : Nat) (s : State) : (sinkTakes count s).blkMem = s.blkMem := by unfold sinkTakes; split <;> rfl
@[simp] theorem sinkTakes_bwtOut (count : Nat) (s : State) : (sinkTakes count s).bwtOut = s.bwtOut := by unfold sinkTakes; split <;> rfl
@[simp] theorem sinkTakes_symMem (count : Nat) (s : State) : (sinkTakes count s).symMem = s.symMem := by unfold sinkTakes; split <;> rfl
@[simp] theorem sinkTakes_freqMem (count : Nat) (s : State) : (sinkTakes count s).freqMem = s.freqMem := by unfold sinkTakes; split <;> rfl
@[simp] theorem sinkTakes_bookCode (count : Nat) (s : State) : (sinkTakes count s).bookCode = s.bookCode := by unfold sinkTakes; split <;> rfl
@[simp] theorem sinkTakes_bookLen (count : Nat) (s : State) : (sinkTakes count s).bookLen = s.bookLen := by unfold sinkTakes; split <;> rfl
@[simp] theorem sinkTakes_sinkStall (count : Nat) (s : State) : (sinkTakes count s).sinkStall = s.sinkStall := by unfold sinkTakes; split <;> rfl
@[simp] theorem sinkTakes_events (count : Nat) (s : State) : (sinkTakes count s).events = s.events := by unfold sinkTakes; split <;> rfl
@[simp] theorem sinkTakes_reply (count : Nat) (s : State) : (sinkTakes count s).reply = s.reply := by unfold sinkTakes; split <;> rfl
@[simp] theorem sinkTakes_draws (count : Nat) (s : State) : (sinkTakes count s).draws = s.draws := by unfold sinkTakes; split <;> rfl

@[simp] theorem capture_bwClosed (code : ErrCode) (src : Bool) (info : Word) (s : State) : (capture code src info s).bwClosed = s.bwClosed := by unfold capture; split <;> rfl
@[simp] theorem capture_bookValid (code : ErrCode) (src : Bool) (info : Word) (s : State) : (capture code src info s).bookValid = s.bookValid := by unfold capture; split <;> rfl
@[simp] theorem capture_bwtValid (code : ErrCode) (src : Bool) (info : Word) (s : State) : (capture code src info s).bwtValid = s.bwtValid := by unfold capture; split <;> rfl
@[simp] theorem capture_blockSize (code : ErrCode) (src : Bool) (info : Word) (s : State) : (capture code src info s).blockSize = s.blockSize := by unfold capture; split <;> rfl
@[simp] theorem capture_tie (code : ErrCode) (src : Bool) (info : Word) (s : State) : (capture code src info s).tie = s.tie := by unfold capture; split <;> rfl
@[simp] theorem capture_arg0 (code : ErrCode) (src : Bool) (info : Word) (s : State) : (capture code src info s).arg0 = s.arg0 := by unfold capture; split <;> rfl
@[simp] theorem capture_arg1 (code : ErrCode) (src : Bool) (info : Word) (s : State) : (capture code src info s).arg1 = s.arg1 := by unfold capture; split <;> rfl
@[simp] theorem capture_bwtOrigin (code : ErrCode) (src : Bool) (info : Word) (s : State) : (capture code src info s).bwtOrigin = s.bwtOrigin := by unfold capture; split <;> rfl
@[simp] theorem capture_bwtLen (code : ErrCode) (src : Bool) (info : Word) (s : State) : (capture code src info s).bwtLen = s.bwtLen := by unfold capture; split <;> rfl
@[simp] theorem capture_bookN (code : ErrCode) (src : Bool) (info : Word) (s : State) : (capture code src info s).bookN = s.bookN := by unfold capture; split <;> rfl
@[simp] theorem capture_bookMaxlen (code : ErrCode) (src : Bool) (info : Word) (s : State) : (capture code src info s).bookMaxlen = s.bookMaxlen := by unfold capture; split <;> rfl
@[simp] theorem capture_bwBytes (code : ErrCode) (src : Bool) (info : Word) (s : State) : (capture code src info s).bwBytes = s.bwBytes := by unfold capture; split <;> rfl
@[simp] theorem capture_cache (code : ErrCode) (src : Bool) (info : Word) (s : State) : (capture code src info s).cache = s.cache := by unfold capture; split <;> rfl
@[simp] theorem capture_pend (code : ErrCode) (src : Bool) (info : Word) (s : State) : (capture code src info s).pend = s.pend := by unfold capture; split <;> rfl
@[simp] theorem capture_blkMem (code : ErrCode) (src : Bool) (info : Word) (s : State) : (capture code src info s).blkMem = s.blkMem := by unfold capture; split <;> rfl
@[simp] theorem capture_bwtOut (code : ErrCode) (src : Bool) (info : Word) (s : State) : (capture code src info s).bwtOut = s.bwtOut := by unfold capture; split <;> rfl
@[simp] theorem capture_symMem (code : ErrCode) (src : Bool) (info : Word) (s : State) : (capture code src info s).symMem = s.symMem := by unfold capture; split <;> rfl
@[simp] theorem capture_freqMem (code : ErrCode) (src : Bool) (info : Word) (s : State) : (capture code src info s).freqMem = s.freqMem := by unfold capture; split <;> rfl
@[simp] theorem capture_bookCode (code : ErrCode) (src : Bool) (info : Word) (s : State) : (capture code src info s).bookCode = s.bookCode := by unfold capture; split <;> rfl
@[simp] theorem capture_bookLen (code : ErrCode) (src : Bool) (info : Word) (s : State) : (capture code src info s).bookLen = s.bookLen := by unfold capture; split <;> rfl
@[simp] theorem capture_sink (code : ErrCode) (src : Bool) (info : Word) (s : State) : (capture code src info s).sink = s.sink := by unfold capture; split <;> rfl
@[simp] theorem capture_sinkStall (code : ErrCode) (src : Bool) (info : Word) (s : State) : (capture code src info s).sinkStall = s.sinkStall := by unfold capture; split <;> rfl
@[simp] theorem capture_events (code : ErrCode) (src : Bool) (info : Word) (s : State) : (capture code src info s).events = s.events := by unfold capture; split <;> rfl
@[simp] theorem capture_reply (code : ErrCode) (src : Bool) (info : Word) (s : State) : (capture code src info s).reply = s.reply := by unfold capture; split <;> rfl
@[simp] theorem capture_draws (code : ErrCode) (src : Bool) (info : Word) (s : State) : (capture code src info s).draws = s.draws := by unfold capture; split <;> rfl

/-- The error registers after a capture (60_exceptions R152). -/
theorem capture_err (code : ErrCode) (src : Bool) (info : Word) (s : State) :
    (capture code src info s).err = true := by
  unfold capture
  split
  · assumption
  · rfl

/-- A first error is recorded (R152). -/
theorem capture_first {code : ErrCode} {src : Bool} {info : Word} {s : State} (h : s.err = false) :
    capture code src info s =
      { s with err := true, errCode := code, errSrc := src, errInfo := info } := by
  simp [capture, h]

/-- A later error changes nothing (R152). -/
theorem capture_later {code : ErrCode} {src : Bool} {info : Word} {s : State} (h : s.err = true) :
    capture code src info s = s := by
  simp [capture, h]

/-- Emitting bytes one by one (20_memory R60, 41_bitwriter R109). -/
theorem emitBytes_eq (bytes : List Byte) (s : State) :
    bytes.foldl emitByte s =
      { s with sink := s.sink ++ bytes, bwBytes := s.bwBytes + BitVec.ofNat 32 bytes.length } := by
  induction bytes generalizing s with
  | nil => simp
  | cons b bytes ih =>
    rw [List.foldl_cons, ih]
    have h : (1 : Word) + BitVec.ofNat 32 bytes.length = BitVec.ofNat 32 (bytes.length + 1) := by
      rw [Nat.add_comm, BitVec.ofNat_add]
      rfl
    simp only [emitByte, List.length_cons, List.append_assoc, List.singleton_append, BitVec.add_assoc, h]

/-- FlushWhole as one update (41_bitwriter R109). -/
theorem flushWhole_eq (s : State) :
    flushWhole s =
      { s with
        sink := s.sink ++ packBytes (s.cache.length / 8) s.cache
        bwBytes := s.bwBytes + BitVec.ofNat 32 (packBytes (s.cache.length / 8) s.cache).length
        cache := s.cache.drop (8 * (s.cache.length / 8)) } := by
  simp [flushWhole, emitBytes_eq]

/-- AppendBit touches the writer alone (41_bitwriter R108). -/
theorem appendBit_frame (s : State) (b : Bool) :
    appendBit s b =
      { s with
        sink := (appendBit s b).sink
        bwBytes := (appendBit s b).bwBytes
        cache := (appendBit s b).cache } := by
  unfold appendBit
  split <;> simp [flushWhole_eq]

/-- AppendBit of a sequence touches the writer alone. -/
theorem appendBits_frame (bits : List Bool) (s : State) :
    appendBits s bits =
      { s with
        sink := (appendBits s bits).sink
        bwBytes := (appendBits s bits).bwBytes
        cache := (appendBits s bits).cache } := by
  induction bits generalizing s with
  | nil => rfl
  | cons b bits ih =>
    have h : appendBits s (b :: bits) = appendBits (appendBit s b) bits := rfl
    rw [h, ih, appendBit_frame]

/-- EmitCode touches the writer alone (41_bitwriter R113). -/
theorem emitCode_frame (s : State) (code : Word) (len : Nat) :
    emitCode s code len =
      { s with
        sink := (emitCode s code len).sink
        bwBytes := (emitCode s code len).bwBytes
        cache := (emitCode s code len).cache } :=
  appendBits_frame _ s

@[simp] theorem flushWhole_err (s : State) : (flushWhole s).err = s.err := by rw [flushWhole_eq]
@[simp] theorem flushWhole_bwClosed (s : State) : (flushWhole s).bwClosed = s.bwClosed := by rw [flushWhole_eq]
@[simp] theorem flushWhole_bookValid (s : State) : (flushWhole s).bookValid = s.bookValid := by rw [flushWhole_eq]
@[simp] theorem flushWhole_bwtValid (s : State) : (flushWhole s).bwtValid = s.bwtValid := by rw [flushWhole_eq]
@[simp] theorem flushWhole_errCode (s : State) : (flushWhole s).errCode = s.errCode := by rw [flushWhole_eq]
@[simp] theorem flushWhole_errSrc (s : State) : (flushWhole s).errSrc = s.errSrc := by rw [flushWhole_eq]
@[simp] theorem flushWhole_errInfo (s : State) : (flushWhole s).errInfo = s.errInfo := by rw [flushWhole_eq]
@[simp] theorem flushWhole_blockSize (s : State) : (flushWhole s).blockSize = s.blockSize := by rw [flushWhole_eq]
@[simp] theorem flushWhole_tie (s : State) : (flushWhole s).tie = s.tie := by rw [flushWhole_eq]
@[simp] theorem flushWhole_arg0 (s : State) : (flushWhole s).arg0 = s.arg0 := by rw [flushWhole_eq]
@[simp] theorem flushWhole_arg1 (s : State) : (flushWhole s).arg1 = s.arg1 := by rw [flushWhole_eq]
@[simp] theorem flushWhole_bwtOrigin (s : State) : (flushWhole s).bwtOrigin = s.bwtOrigin := by rw [flushWhole_eq]
@[simp] theorem flushWhole_bwtLen (s : State) : (flushWhole s).bwtLen = s.bwtLen := by rw [flushWhole_eq]
@[simp] theorem flushWhole_bookN (s : State) : (flushWhole s).bookN = s.bookN := by rw [flushWhole_eq]
@[simp] theorem flushWhole_bookMaxlen (s : State) : (flushWhole s).bookMaxlen = s.bookMaxlen := by rw [flushWhole_eq]
@[simp] theorem flushWhole_pend (s : State) : (flushWhole s).pend = s.pend := by rw [flushWhole_eq]
@[simp] theorem flushWhole_blkMem (s : State) : (flushWhole s).blkMem = s.blkMem := by rw [flushWhole_eq]
@[simp] theorem flushWhole_bwtOut (s : State) : (flushWhole s).bwtOut = s.bwtOut := by rw [flushWhole_eq]
@[simp] theorem flushWhole_symMem (s : State) : (flushWhole s).symMem = s.symMem := by rw [flushWhole_eq]
@[simp] theorem flushWhole_freqMem (s : State) : (flushWhole s).freqMem = s.freqMem := by rw [flushWhole_eq]
@[simp] theorem flushWhole_bookCode (s : State) : (flushWhole s).bookCode = s.bookCode := by rw [flushWhole_eq]
@[simp] theorem flushWhole_bookLen (s : State) : (flushWhole s).bookLen = s.bookLen := by rw [flushWhole_eq]
@[simp] theorem flushWhole_sinkStall (s : State) : (flushWhole s).sinkStall = s.sinkStall := by rw [flushWhole_eq]
@[simp] theorem flushWhole_events (s : State) : (flushWhole s).events = s.events := by rw [flushWhole_eq]
@[simp] theorem flushWhole_reply (s : State) : (flushWhole s).reply = s.reply := by rw [flushWhole_eq]
@[simp] theorem flushWhole_draws (s : State) : (flushWhole s).draws = s.draws := by rw [flushWhole_eq]

@[simp] theorem appendBit_err (s : State) (b : Bool) : (appendBit s b).err = s.err := by rw [appendBit_frame]
@[simp] theorem appendBit_bwClosed (s : State) (b : Bool) : (appendBit s b).bwClosed = s.bwClosed := by rw [appendBit_frame]
@[simp] theorem appendBit_bookValid (s : State) (b : Bool) : (appendBit s b).bookValid = s.bookValid := by rw [appendBit_frame]
@[simp] theorem appendBit_bwtValid (s : State) (b : Bool) : (appendBit s b).bwtValid = s.bwtValid := by rw [appendBit_frame]
@[simp] theorem appendBit_errCode (s : State) (b : Bool) : (appendBit s b).errCode = s.errCode := by rw [appendBit_frame]
@[simp] theorem appendBit_errSrc (s : State) (b : Bool) : (appendBit s b).errSrc = s.errSrc := by rw [appendBit_frame]
@[simp] theorem appendBit_errInfo (s : State) (b : Bool) : (appendBit s b).errInfo = s.errInfo := by rw [appendBit_frame]
@[simp] theorem appendBit_blockSize (s : State) (b : Bool) : (appendBit s b).blockSize = s.blockSize := by rw [appendBit_frame]
@[simp] theorem appendBit_tie (s : State) (b : Bool) : (appendBit s b).tie = s.tie := by rw [appendBit_frame]
@[simp] theorem appendBit_arg0 (s : State) (b : Bool) : (appendBit s b).arg0 = s.arg0 := by rw [appendBit_frame]
@[simp] theorem appendBit_arg1 (s : State) (b : Bool) : (appendBit s b).arg1 = s.arg1 := by rw [appendBit_frame]
@[simp] theorem appendBit_bwtOrigin (s : State) (b : Bool) : (appendBit s b).bwtOrigin = s.bwtOrigin := by rw [appendBit_frame]
@[simp] theorem appendBit_bwtLen (s : State) (b : Bool) : (appendBit s b).bwtLen = s.bwtLen := by rw [appendBit_frame]
@[simp] theorem appendBit_bookN (s : State) (b : Bool) : (appendBit s b).bookN = s.bookN := by rw [appendBit_frame]
@[simp] theorem appendBit_bookMaxlen (s : State) (b : Bool) : (appendBit s b).bookMaxlen = s.bookMaxlen := by rw [appendBit_frame]
@[simp] theorem appendBit_pend (s : State) (b : Bool) : (appendBit s b).pend = s.pend := by rw [appendBit_frame]
@[simp] theorem appendBit_blkMem (s : State) (b : Bool) : (appendBit s b).blkMem = s.blkMem := by rw [appendBit_frame]
@[simp] theorem appendBit_bwtOut (s : State) (b : Bool) : (appendBit s b).bwtOut = s.bwtOut := by rw [appendBit_frame]
@[simp] theorem appendBit_symMem (s : State) (b : Bool) : (appendBit s b).symMem = s.symMem := by rw [appendBit_frame]
@[simp] theorem appendBit_freqMem (s : State) (b : Bool) : (appendBit s b).freqMem = s.freqMem := by rw [appendBit_frame]
@[simp] theorem appendBit_bookCode (s : State) (b : Bool) : (appendBit s b).bookCode = s.bookCode := by rw [appendBit_frame]
@[simp] theorem appendBit_bookLen (s : State) (b : Bool) : (appendBit s b).bookLen = s.bookLen := by rw [appendBit_frame]
@[simp] theorem appendBit_sinkStall (s : State) (b : Bool) : (appendBit s b).sinkStall = s.sinkStall := by rw [appendBit_frame]
@[simp] theorem appendBit_events (s : State) (b : Bool) : (appendBit s b).events = s.events := by rw [appendBit_frame]
@[simp] theorem appendBit_reply (s : State) (b : Bool) : (appendBit s b).reply = s.reply := by rw [appendBit_frame]
@[simp] theorem appendBit_draws (s : State) (b : Bool) : (appendBit s b).draws = s.draws := by rw [appendBit_frame]

@[simp] theorem appendBits_err (s : State) (bits : List Bool) : (appendBits s bits).err = s.err := by rw [appendBits_frame]
@[simp] theorem appendBits_bwClosed (s : State) (bits : List Bool) : (appendBits s bits).bwClosed = s.bwClosed := by rw [appendBits_frame]
@[simp] theorem appendBits_bookValid (s : State) (bits : List Bool) : (appendBits s bits).bookValid = s.bookValid := by rw [appendBits_frame]
@[simp] theorem appendBits_bwtValid (s : State) (bits : List Bool) : (appendBits s bits).bwtValid = s.bwtValid := by rw [appendBits_frame]
@[simp] theorem appendBits_errCode (s : State) (bits : List Bool) : (appendBits s bits).errCode = s.errCode := by rw [appendBits_frame]
@[simp] theorem appendBits_errSrc (s : State) (bits : List Bool) : (appendBits s bits).errSrc = s.errSrc := by rw [appendBits_frame]
@[simp] theorem appendBits_errInfo (s : State) (bits : List Bool) : (appendBits s bits).errInfo = s.errInfo := by rw [appendBits_frame]
@[simp] theorem appendBits_blockSize (s : State) (bits : List Bool) : (appendBits s bits).blockSize = s.blockSize := by rw [appendBits_frame]
@[simp] theorem appendBits_tie (s : State) (bits : List Bool) : (appendBits s bits).tie = s.tie := by rw [appendBits_frame]
@[simp] theorem appendBits_arg0 (s : State) (bits : List Bool) : (appendBits s bits).arg0 = s.arg0 := by rw [appendBits_frame]
@[simp] theorem appendBits_arg1 (s : State) (bits : List Bool) : (appendBits s bits).arg1 = s.arg1 := by rw [appendBits_frame]
@[simp] theorem appendBits_bwtOrigin (s : State) (bits : List Bool) : (appendBits s bits).bwtOrigin = s.bwtOrigin := by rw [appendBits_frame]
@[simp] theorem appendBits_bwtLen (s : State) (bits : List Bool) : (appendBits s bits).bwtLen = s.bwtLen := by rw [appendBits_frame]
@[simp] theorem appendBits_bookN (s : State) (bits : List Bool) : (appendBits s bits).bookN = s.bookN := by rw [appendBits_frame]
@[simp] theorem appendBits_bookMaxlen (s : State) (bits : List Bool) : (appendBits s bits).bookMaxlen = s.bookMaxlen := by rw [appendBits_frame]
@[simp] theorem appendBits_pend (s : State) (bits : List Bool) : (appendBits s bits).pend = s.pend := by rw [appendBits_frame]
@[simp] theorem appendBits_blkMem (s : State) (bits : List Bool) : (appendBits s bits).blkMem = s.blkMem := by rw [appendBits_frame]
@[simp] theorem appendBits_bwtOut (s : State) (bits : List Bool) : (appendBits s bits).bwtOut = s.bwtOut := by rw [appendBits_frame]
@[simp] theorem appendBits_symMem (s : State) (bits : List Bool) : (appendBits s bits).symMem = s.symMem := by rw [appendBits_frame]
@[simp] theorem appendBits_freqMem (s : State) (bits : List Bool) : (appendBits s bits).freqMem = s.freqMem := by rw [appendBits_frame]
@[simp] theorem appendBits_bookCode (s : State) (bits : List Bool) : (appendBits s bits).bookCode = s.bookCode := by rw [appendBits_frame]
@[simp] theorem appendBits_bookLen (s : State) (bits : List Bool) : (appendBits s bits).bookLen = s.bookLen := by rw [appendBits_frame]
@[simp] theorem appendBits_sinkStall (s : State) (bits : List Bool) : (appendBits s bits).sinkStall = s.sinkStall := by rw [appendBits_frame]
@[simp] theorem appendBits_events (s : State) (bits : List Bool) : (appendBits s bits).events = s.events := by rw [appendBits_frame]
@[simp] theorem appendBits_reply (s : State) (bits : List Bool) : (appendBits s bits).reply = s.reply := by rw [appendBits_frame]
@[simp] theorem appendBits_draws (s : State) (bits : List Bool) : (appendBits s bits).draws = s.draws := by rw [appendBits_frame]

@[simp] theorem emitCode_err (s : State) (code : Word) (len : Nat) : (emitCode s code len).err = s.err := by rw [emitCode_frame]
@[simp] theorem emitCode_bwClosed (s : State) (code : Word) (len : Nat) : (emitCode s code len).bwClosed = s.bwClosed := by rw [emitCode_frame]
@[simp] theorem emitCode_bookValid (s : State) (code : Word) (len : Nat) : (emitCode s code len).bookValid = s.bookValid := by rw [emitCode_frame]
@[simp] theorem emitCode_bwtValid (s : State) (code : Word) (len : Nat) : (emitCode s code len).bwtValid = s.bwtValid := by rw [emitCode_frame]
@[simp] theorem emitCode_errCode (s : State) (code : Word) (len : Nat) : (emitCode s code len).errCode = s.errCode := by rw [emitCode_frame]
@[simp] theorem emitCode_errSrc (s : State) (code : Word) (len : Nat) : (emitCode s code len).errSrc = s.errSrc := by rw [emitCode_frame]
@[simp] theorem emitCode_errInfo (s : State) (code : Word) (len : Nat) : (emitCode s code len).errInfo = s.errInfo := by rw [emitCode_frame]
@[simp] theorem emitCode_blockSize (s : State) (code : Word) (len : Nat) : (emitCode s code len).blockSize = s.blockSize := by rw [emitCode_frame]
@[simp] theorem emitCode_tie (s : State) (code : Word) (len : Nat) : (emitCode s code len).tie = s.tie := by rw [emitCode_frame]
@[simp] theorem emitCode_arg0 (s : State) (code : Word) (len : Nat) : (emitCode s code len).arg0 = s.arg0 := by rw [emitCode_frame]
@[simp] theorem emitCode_arg1 (s : State) (code : Word) (len : Nat) : (emitCode s code len).arg1 = s.arg1 := by rw [emitCode_frame]
@[simp] theorem emitCode_bwtOrigin (s : State) (code : Word) (len : Nat) : (emitCode s code len).bwtOrigin = s.bwtOrigin := by rw [emitCode_frame]
@[simp] theorem emitCode_bwtLen (s : State) (code : Word) (len : Nat) : (emitCode s code len).bwtLen = s.bwtLen := by rw [emitCode_frame]
@[simp] theorem emitCode_bookN (s : State) (code : Word) (len : Nat) : (emitCode s code len).bookN = s.bookN := by rw [emitCode_frame]
@[simp] theorem emitCode_bookMaxlen (s : State) (code : Word) (len : Nat) : (emitCode s code len).bookMaxlen = s.bookMaxlen := by rw [emitCode_frame]
@[simp] theorem emitCode_pend (s : State) (code : Word) (len : Nat) : (emitCode s code len).pend = s.pend := by rw [emitCode_frame]
@[simp] theorem emitCode_blkMem (s : State) (code : Word) (len : Nat) : (emitCode s code len).blkMem = s.blkMem := by rw [emitCode_frame]
@[simp] theorem emitCode_bwtOut (s : State) (code : Word) (len : Nat) : (emitCode s code len).bwtOut = s.bwtOut := by rw [emitCode_frame]
@[simp] theorem emitCode_symMem (s : State) (code : Word) (len : Nat) : (emitCode s code len).symMem = s.symMem := by rw [emitCode_frame]
@[simp] theorem emitCode_freqMem (s : State) (code : Word) (len : Nat) : (emitCode s code len).freqMem = s.freqMem := by rw [emitCode_frame]
@[simp] theorem emitCode_bookCode (s : State) (code : Word) (len : Nat) : (emitCode s code len).bookCode = s.bookCode := by rw [emitCode_frame]
@[simp] theorem emitCode_bookLen (s : State) (code : Word) (len : Nat) : (emitCode s code len).bookLen = s.bookLen := by rw [emitCode_frame]
@[simp] theorem emitCode_sinkStall (s : State) (code : Word) (len : Nat) : (emitCode s code len).sinkStall = s.sinkStall := by rw [emitCode_frame]
@[simp] theorem emitCode_events (s : State) (code : Word) (len : Nat) : (emitCode s code len).events = s.events := by rw [emitCode_frame]
@[simp] theorem emitCode_reply (s : State) (code : Word) (len : Nat) : (emitCode s code len).reply = s.reply := by rw [emitCode_frame]
@[simp] theorem emitCode_draws (s : State) (code : Word) (len : Nat) : (emitCode s code len).draws = s.draws := by rw [emitCode_frame]

end Sys2Proof.Laws
end

