-- ==== Sys2Proof/Laws/BitWriter.lean ====
section
/-! SUPPORT. What the bit-writer's primitives do: packing and unpacking, FlushWhole, AppendBit of a sequence. -/

namespace Sys2Proof.Laws

open Sys2Proof.Machine Sys2Proof.Safety

/-! ### Bits of a value -/

@[simp] theorem bitsMsb_length (v : Word) (n : Nat) : (bitsMsb v n).length = n := by
  induction n with
  | zero => rfl
  | succ n ih => simp [bitsMsb, ih]

/-- The bits of a value, highest first (41_bitwriter R111, R113). -/
theorem bitsMsb_bitsOf (v : Word) (n : Nat) : BitsOf v n (bitsMsb v n) := by
  refine ⟨bitsMsb_length v n, ?_⟩
  induction n with
  | zero => intro k hk; omega
  | succ n ih =>
    intro k hk
    cases k with
    | zero => simp [bitsMsb]
    | succ k =>
      have := ih k (by omega)
      rw [show n + 1 - 1 - (k + 1) = n - 1 - k by omega]
      simpa [bitsMsb] using this

/-- There is one sequence of the bits of a value. -/
theorem bitsOf_unique {v : Word} {n : Nat} {b c : List Bool} (hb : BitsOf v n b) (hc : BitsOf v n c) :
    b = c := by
  refine List.ext_getElem? fun k => ?_
  by_cases hk : k < n
  · rw [hb.2 k hk, hc.2 k hk]
  · rw [List.getElem?_eq_none, List.getElem?_eq_none]
    · have := hc.1
      omega
    · have := hb.1
      omega

/-! ### Bytes -/

/-- A packed byte unpacks to its eight bits (20_memory R61). -/
theorem byteBits_packByte : ∀ a b c d e f g h : Bool,
    byteBits (packByte [a, b, c, d, e, f, g, h]) = [a, b, c, d, e, f, g, h] := by
  decide

@[simp] theorem packBytes_length (k : Nat) (bits : List Bool) : (packBytes k bits).length = k := by
  induction k generalizing bits with
  | zero => rfl
  | succ k ih => simp [packBytes, ih]

/-- Packed bytes unpack to the bits they were made of. -/
theorem unpack_packBytes (k : Nat) (bits : List Bool) (h : 8 * k ≤ bits.length) :
    unpack (packBytes k bits) = bits.take (8 * k) := by
  induction k generalizing bits with
  | zero => simp [packBytes, unpack]
  | succ k ih =>
    have h8 : (bits.take 8).length = 8 := by simp; omega
    have hbyte : byteBits (packByte (bits.take 8)) = bits.take 8 := by
      revert h8
      generalize bits.take 8 = l
      intro h8
      match l, h8 with
      | [a, b, c, d, e, f, g, i], _ => exact byteBits_packByte a b c d e f g i
    have hrest := ih (bits.drop 8) (by simp; omega)
    unfold unpack at hrest ⊢
    rw [packBytes, List.flatMap_cons, hbyte, hrest, Nat.mul_succ, Nat.add_comm, List.take_add]

@[simp] theorem unpack_nil : unpack [] = [] := rfl

@[simp] theorem unpack_append (a b : List Byte) : unpack (a ++ b) = unpack a ++ unpack b := by
  simp [unpack]

theorem unpack_length (bytes : List Byte) : (unpack bytes).length = 8 * bytes.length := by
  induction bytes with
  | nil => rfl
  | cons b bytes ih =>
    unfold unpack at ih ⊢
    simp [byteBits, ih]
    omega

/-! ### FlushWhole and AppendBit -/

/-- FlushWhole emits the whole bytes of the cache and keeps the rest (41_bitwriter R109). -/
theorem flushWhole_spec (s : State) :
    ∃ out, (flushWhole s).sink = s.sink ++ out ∧ out.length = s.cache.length / 8 ∧
      unpack out ++ (flushWhole s).cache = s.cache ∧
      (flushWhole s).cache.length = s.cache.length % 8 ∧
      (flushWhole s).bwBytes = s.bwBytes + BitVec.ofNat 32 out.length := by
  rw [flushWhole_eq]
  refine ⟨packBytes (s.cache.length / 8) s.cache, rfl, packBytes_length .., ?_, ?_, rfl⟩
  · rw [unpack_packBytes _ _ (by omega)]
    exact List.take_append_drop ..
  · simp
    omega

/-- AppendBit of a sequence on a cache within its capacity (41_bitwriter R108, R118). -/
theorem appendBits_appended (bits : List Bool) (s : State) (h : s.cache.length ≤ Config.cacheBits) :
    Appended bits s (appendBits s bits) ∧ (appendBits s bits).cache.length ≤ Config.cacheBits := by
  have hcb : Config.cacheBits = 64 := rfl
  induction bits generalizing s with
  | nil =>
    refine ⟨⟨[], by simp [appendBits], by simp [appendBits], ?_, by simp [appendBits], rfl⟩, h⟩
    simp
    omega
  | cons b bits ih =>
    have hstep : appendBits s (b :: bits) = appendBits (appendBit s b) bits := rfl
    rw [hstep]
    by_cases hfull : s.cache.length = Config.cacheBits
    · obtain ⟨out, hs, hl, hu, hc, hn⟩ := flushWhole_spec s
      have hone : appendBit s b = { flushWhole s with cache := (flushWhole s).cache ++ [b] } := by
        simp [appendBit, hfull]
      have hempty : (flushWhole s).cache = [] := by
        apply List.length_eq_zero_iff.1
        omega
      have hcache : (appendBit s b).cache = [b] := by simp [hone, hempty]
      obtain ⟨⟨out', hs', hu', hl', hn', hb'⟩, hle⟩ := ih (appendBit s b) (by rw [hcache]; simp [hcb])
      rw [hempty, List.append_nil] at hu
      refine ⟨⟨out ++ out', ?_, ?_, ?_, ?_, ?_⟩, hle⟩
      · rw [hs', hone]
        simp [hs]
      · rw [unpack_append, hu, List.append_assoc, hu', hcache]
        simp
      · rw [List.length_append, hl, hl', hcache]
        simp
        omega
      · rw [hn', hone]
        simp only [hn, List.length_append, BitVec.ofNat_add, BitVec.add_assoc]
      · rw [hb']
        simp
    · have hone : appendBit s b = { s with cache := s.cache ++ [b] } := by
        simp [appendBit, hfull]
      have hcache : (appendBit s b).cache = s.cache ++ [b] := by simp [hone]
      obtain ⟨⟨out', hs', hu', hl', hn', hb'⟩, hle⟩ := ih (appendBit s b) (by rw [hcache]; simp; omega)
      refine ⟨⟨out', ?_, ?_, ?_, ?_, ?_⟩, hle⟩
      · rw [hs', hone]
      · rw [hu', hcache]
        simp
      · rw [hl', hcache]
        simp
      · rw [hn', hone]
      · rw [hb']
        simp

/-- AppendBit of two sequences is AppendBit of their concatenation. -/
theorem appendBits_append (s : State) (a b : List Bool) :
    appendBits s (a ++ b) = appendBits (appendBits s a) b := by
  simp [appendBits]

end Sys2Proof.Laws
end

