-- ==== Sys2Proof/Laws/Memory.lean ====
section
/-! SUPPORT. What the memory operations do: reads after writes, the canonical form, and the two reading loops. -/

namespace Sys2Proof.Laws

open Sys2Proof.Machine

variable {w : Nat}

@[simp] theorem read_nil (i : Nat) : Mem.read ([] : Mem w) i = none := rfl

/-- A read after a write to the same element gives the value written. -/
@[simp] theorem read_write_same (m : Mem w) (i : Nat) (v : BitVec w) :
    Mem.read (Mem.write m i v) i = some v := by
  induction m with
  | nil => simp [Mem.write, Mem.read]
  | cons c m ih =>
    obtain ⟨j, u⟩ := c
    rcases Nat.lt_trichotomy i j with h | h | h
    · simp [Mem.write, Mem.read, h]
    · simp [Mem.write, Mem.read, h]
    · have h1 : ¬ i < j := by omega
      have h2 : i ≠ j := by omega
      simp [Mem.write, Mem.read, h1, h2, ih]

/-- A write leaves every other element alone. -/
theorem read_write_other (m : Mem w) {i k : Nat} (v : BitVec w) (hk : k ≠ i) :
    Mem.read (Mem.write m i v) k = Mem.read m k := by
  induction m with
  | nil => simp [Mem.write, Mem.read, hk]
  | cons c m ih =>
    obtain ⟨j, u⟩ := c
    rcases Nat.lt_trichotomy i j with h | h | h
    · simp [Mem.write, Mem.read, h, hk]
    · subst h
      simp [Mem.write, Mem.read, hk]
    · have h1 : ¬ i < j := by omega
      have h2 : i ≠ j := by omega
      by_cases hj : k = j <;> simp [Mem.write, Mem.read, h1, h2, hj, ih]

/-- Writing a run of values from index `i`. -/
theorem read_writeFrom (vs : List (BitVec w)) (m : Mem w) (i k : Nat) :
    Mem.read (Mem.writeFrom m i vs) k =
      if i ≤ k ∧ k < i + vs.length then vs[k - i]? else Mem.read m k := by
  induction vs generalizing m i with
  | nil => simp [Mem.writeFrom]
  | cons v vs ih =>
    rw [Mem.writeFrom, ih]
    rcases Nat.lt_trichotomy k i with h | h | h
    · have h1 : ¬ (i + 1 ≤ k ∧ k < i + 1 + vs.length) := by omega
      have h2 : ¬ (i ≤ k ∧ k < i + (v :: vs).length) := by omega
      rw [if_neg h1, if_neg h2, read_write_other _ _ (by omega)]
    · subst h
      have h1 : ¬ (k + 1 ≤ k ∧ k < k + 1 + vs.length) := by omega
      simp
    · have h3 : k - i = (k - (i + 1)) + 1 := by omega
      by_cases hin : k < i + 1 + vs.length
      · rw [if_pos ⟨by omega, hin⟩, if_pos ⟨by omega, by simp; omega⟩, h3]
        simp
      · rw [if_neg (by omega), if_neg (by simp; omega), read_write_other _ _ (by omega)]

/-- Unwriting the elements below `n`. -/
theorem read_unwrite (m : Mem w) (n k : Nat) :
    Mem.read (Mem.unwrite m n) k = if n ≤ k then Mem.read m k else none := by
  induction m with
  | nil => simp [Mem.unwrite]
  | cons c m ih =>
    obtain ⟨j, u⟩ := c
    unfold Mem.unwrite at ih ⊢
    by_cases hj : n ≤ j
    · rw [List.filter_cons_of_pos (by simpa using hj)]
      by_cases hk : k = j
      · subst hk
        simp [Mem.read, hj]
      · simp [Mem.read, hk, ih]
    · rw [List.filter_cons_of_neg (by simpa using hj), ih]
      by_cases hn : n ≤ k
      · have hk : k ≠ j := by omega
        simp [Mem.read, hn, hk]
      · simp [hn]

/-! ### The canonical form -/

/-- The canonical form as a proposition. -/
theorem wf_iff (size : Nat) (m : Mem w) :
    Mem.wf size m = true ↔ (m.map Prod.fst).Pairwise (· < ·) ∧ ∀ c ∈ m, c.1 < size := by
  simp [Mem.wf]

@[simp] theorem wf_nil (size : Nat) : Mem.wf size ([] : Mem w) = true := by
  simp [wf_iff]

/-- The indices of a memory after a write. -/
theorem fst_mem_write {m : Mem w} {i : Nat} {v : BitVec w} {c : Nat × BitVec w}
    (hc : c ∈ Mem.write m i v) : c.1 = i ∨ c ∈ m := by
  induction m with
  | nil => simp_all [Mem.write]
  | cons d m ih =>
    obtain ⟨j, u⟩ := d
    unfold Mem.write at hc
    split at hc
    · rcases List.mem_cons.1 hc with rfl | h
      · exact .inl rfl
      · exact .inr h
    · split at hc
      · rcases List.mem_cons.1 hc with rfl | h
        · exact .inl rfl
        · exact .inr (List.mem_cons_of_mem _ h)
      · rcases List.mem_cons.1 hc with rfl | h
        · exact .inr List.mem_cons_self
        · exact (ih h).imp id (List.mem_cons_of_mem _)

/-- A write keeps the canonical form. -/
theorem wf_write {size : Nat} {m : Mem w} {i : Nat} (v : BitVec w) (hm : Mem.wf size m = true)
    (hi : i < size) : Mem.wf size (Mem.write m i v) = true := by
  rw [wf_iff] at hm ⊢
  refine ⟨?_, fun c hc => ?_⟩
  · obtain ⟨hs, -⟩ := hm
    induction m with
    | nil => simp [Mem.write]
    | cons d m ih =>
      obtain ⟨j, u⟩ := d
      simp only [List.map_cons, List.pairwise_cons] at hs
      unfold Mem.write
      split
      · rename_i h
        simp only [List.map_cons, List.pairwise_cons, List.mem_cons]
        refine ⟨?_, hs⟩
        rintro a (rfl | ha)
        · exact h
        · exact Nat.lt_trans h (hs.1 a ha)
      · split
        · rename_i h
          subst h
          simpa using hs
        · rename_i h1 h2
          simp only [List.map_cons, List.pairwise_cons]
          refine ⟨fun a ha => ?_, ih hs.2⟩
          obtain ⟨c, hc, rfl⟩ := List.mem_map.1 ha
          rcases fst_mem_write hc with h | h
          · show j < c.1
            omega
          · exact hs.1 _ (List.mem_map_of_mem h)
  · rcases fst_mem_write hc with h | h
    · exact h ▸ hi
    · exact hm.2 c h

/-- A run of writes keeps the canonical form. -/
theorem wf_writeFrom {size : Nat} (vs : List (BitVec w)) {m : Mem w} {i : Nat}
    (hm : Mem.wf size m = true) (hi : i + vs.length ≤ size) :
    Mem.wf size (Mem.writeFrom m i vs) = true := by
  induction vs generalizing m i with
  | nil => exact hm
  | cons v vs ih =>
    rw [List.length_cons] at hi
    exact ih (wf_write v hm (by omega)) (by omega)

/-- Unwriting keeps the canonical form. -/
theorem wf_unwrite {size : Nat} {m : Mem w} (n : Nat) (hm : Mem.wf size m = true) :
    Mem.wf size (Mem.unwrite m n) = true := by
  rw [wf_iff] at hm ⊢
  exact ⟨hm.1.sublist (List.filter_sublist.map _), fun c hc => hm.2 c (List.mem_filter.1 hc).1⟩

/-- A written element of a canonical memory has an index below its size. -/
theorem lt_size_of_read {size : Nat} {m : Mem w} {i : Nat} {v : BitVec w} (hm : Mem.wf size m = true)
    (h : Mem.read m i = some v) : i < size := by
  rw [wf_iff] at hm
  obtain ⟨-, hm⟩ := hm
  induction m with
  | nil => simp at h
  | cons c m ih =>
    obtain ⟨j, u⟩ := c
    unfold Mem.read at h
    split at h
    · rename_i hij
      subst hij
      exact hm _ List.mem_cons_self
    · exact ih h fun c hc => hm c (List.mem_cons_of_mem _ hc)

/-- Canonical memories that read the same are the same. -/
theorem eq_of_read_eq {size : Nat} {m m' : Mem w} (hm : Mem.wf size m = true)
    (hm' : Mem.wf size m' = true) (h : ∀ i, Mem.read m i = Mem.read m' i) : m = m' := by
  rw [wf_iff] at hm hm'
  obtain ⟨hm, -⟩ := hm
  obtain ⟨hm', -⟩ := hm'
  have below : ∀ (l : Mem w) (i : Nat), (∀ c ∈ l, i < c.1) → Mem.read l i = none := by
    intro l i hl
    induction l with
    | nil => rfl
    | cons c l ih =>
      have : i ≠ c.1 := Nat.ne_of_lt (hl c List.mem_cons_self)
      simp [Mem.read, this, ih fun d hd => hl d (List.mem_cons_of_mem _ hd)]
  induction m generalizing m' with
  | nil =>
    cases m' with
    | nil => rfl
    | cons c m' => have := h c.1; simp [Mem.read] at this
  | cons c m ih =>
    cases m' with
    | nil => have := h c.1; simp [Mem.read] at this
    | cons d m' =>
      obtain ⟨j, u⟩ := c
      obtain ⟨k, v⟩ := d
      simp only [List.map_cons, List.pairwise_cons] at hm hm'
      have hmj : ∀ c ∈ m, j < c.1 := fun c hc => hm.1 _ (List.mem_map_of_mem hc)
      have hmk : ∀ c ∈ m', k < c.1 := fun c hc => hm'.1 _ (List.mem_map_of_mem hc)
      have hjk : j = k := by
        rcases Nat.lt_trichotomy j k with hlt | heq | hlt
        · have := h j
          have hb := below m' j fun c hc => Nat.lt_trans hlt (hmk c hc)
          simp [Mem.read, Nat.ne_of_lt hlt, hb] at this
        · exact heq
        · have := h k
          have hb := below m k fun c hc => Nat.lt_trans hlt (hmj c hc)
          simp [Mem.read, Nat.ne_of_lt hlt, hb] at this
      subst hjk
      have huv : u = v := by
        have := h j
        simpa [Mem.read] using this
      subst huv
      congr 1
      refine ih (fun i => ?_) hm.2 hm'.2
      by_cases hi : i = j
      · subst hi
        rw [below m i hmj, below m' i hmk]
      · have := h i
        simpa [Mem.read, hi] using this

/-! ### The reading loops -/

/-- A whole run is read exactly when each of its elements is written. -/
theorem readRange_ok_iff (m : Mem w) (i k : Nat) (vs : List (BitVec w)) :
    Mem.readRange m i k = .ok vs ↔ vs.length = k ∧ ∀ j, j < k → Mem.read m (i + j) = vs[j]? := by
  induction k generalizing i vs with
  | zero =>
    simp only [Mem.readRange, Nat.not_lt_zero, false_implies, implies_true, and_true]
    constructor
    · intro h
      cases h
      rfl
    · intro h
      rw [List.length_eq_zero_iff.1 h]
  | succ k ih =>
    constructor
    · intro h
      unfold Mem.readRange at h
      split at h
      · cases h
      · rename_i v hv
        split at h
        · cases h
        · rename_i us hus
          cases h
          obtain ⟨hl, hr⟩ := (ih (i + 1) us).1 hus
          refine ⟨by simp [hl], fun j hj => ?_⟩
          cases j with
          | zero => simpa using hv
          | succ j =>
            have := hr j (by omega)
            rw [show i + (j + 1) = i + 1 + j by omega]
            simpa using this
    · rintro ⟨hl, hr⟩
      cases vs with
      | nil => simp at hl
      | cons v vs =>
        have h0 := hr 0 (by omega)
        simp only [Nat.add_zero, List.getElem?_cons_zero] at h0
        have hrest := (ih (i + 1) vs).2 ⟨by simpa using hl, fun j hj => by
          have := hr (j + 1) (by omega)
          rw [show i + 1 + j = i + (j + 1) by omega, this]
          simp⟩
        simp [Mem.readRange, h0, hrest]

/-- A run that is not read whole stops at its first unwritten element. -/
theorem readRange_error {m : Mem w} {i k e : Nat} (h : Mem.readRange m i k = .error e) :
    i ≤ e ∧ e < i + k ∧ Mem.read m e = none ∧
      ∀ j, i ≤ j → j < e → (Mem.read m j).isSome = true := by
  induction k generalizing i with
  | zero => simp [Mem.readRange] at h
  | succ k ih =>
    unfold Mem.readRange at h
    split at h
    · rename_i hn
      cases h
      exact ⟨Nat.le_refl _, by omega, hn, fun j h1 h2 => absurd h1 (by omega)⟩
    · rename_i v hv
      split at h
      · rename_i j hj
        cases h
        obtain ⟨h1, h2, h3, h4⟩ := ih hj
        refine ⟨by omega, by omega, h3, fun j hj1 hj2 => ?_⟩
        by_cases hij : j = i
        · rw [hij, hv]
          rfl
        · exact h4 j (by omega) hj2
      · cases h

/-- A scan gives symbols exactly when every element is written and below the bound. -/
theorem scanSymbols_symbols_iff (m : Mem 9) (bound i k : Nat) (syms : List Nat) :
    scanSymbols m bound i k = .symbols syms ↔
      syms.length = k ∧ (∀ j, j < k → (Mem.read m (i + j)).map BitVec.toNat = syms[j]?) ∧
        ∀ x ∈ syms, x < bound := by
  induction k generalizing i syms with
  | zero =>
    simp only [scanSymbols, Scan.symbols.injEq, Nat.not_lt_zero, false_implies, implies_true,
      true_and]
    constructor
    · rintro rfl
      simp
    · rintro ⟨h, -⟩
      rw [List.length_eq_zero_iff.1 h]
  | succ k ih =>
    constructor
    · intro h
      unfold scanSymbols at h
      split at h
      · cases h
      · rename_i v hv
        split at h
        · cases h
        · rename_i hb
          split at h
          · rename_i us hus
            cases h
            obtain ⟨hl, hr, hlt⟩ := (ih (i + 1) us).1 hus
            refine ⟨by simp [hl], fun j hj => ?_, ?_⟩
            · cases j with
              | zero => simp [hv]
              | succ j =>
                have := hr j (by omega)
                rw [show i + (j + 1) = i + 1 + j by omega]
                simpa using this
            · intro x hx
              rcases List.mem_cons.1 hx with rfl | hx
              · omega
              · exact hlt x hx
          · cases h
          · cases h
    · rintro ⟨hl, hr, hlt⟩
      cases syms with
      | nil => simp at hl
      | cons x us =>
        have h0 := hr 0 (by omega)
        simp only [Nat.add_zero, List.getElem?_cons_zero, Option.map_eq_some_iff] at h0
        obtain ⟨v, hv, rfl⟩ := h0
        have hrest := (ih (i + 1) us).2 ⟨by simpa using hl, fun j hj => by
          have := hr (j + 1) (by omega)
          rw [show i + 1 + j = i + (j + 1) by omega, this]
          simp, fun x hx => hlt x (List.mem_cons_of_mem _ hx)⟩
        have hb : ¬ bound ≤ v.toNat := by
          have := hlt v.toNat List.mem_cons_self
          omega
        simp [scanSymbols, hv, hb, hrest]

/-- A scan that meets an unwritten element stops there, every element before it being written. -/
theorem scanSymbols_unwritten {m : Mem 9} {bound i k e : Nat}
    (h : scanSymbols m bound i k = .unwritten e) :
    i ≤ e ∧ e < i + k ∧ Mem.read m e = none ∧
      ∀ j, i ≤ j → j < e → ∃ v, Mem.read m j = some v ∧ v.toNat < bound := by
  induction k generalizing i with
  | zero => simp [scanSymbols] at h
  | succ k ih =>
    unfold scanSymbols at h
    split at h
    · rename_i hn
      cases h
      exact ⟨Nat.le_refl _, by omega, hn, fun j h1 h2 => absurd h1 (by omega)⟩
    · rename_i v hv
      split at h
      · cases h
      · rename_i hb
        split at h
        · cases h
        · cases h
        · rename_i j hj
          cases h
          obtain ⟨h1, h2, h3, h4⟩ := ih hj
          refine ⟨by omega, by omega, h3, fun j hj1 hj2 => ?_⟩
          by_cases hij : j = i
          · exact ⟨v, hij ▸ hv, by omega⟩
          · exact h4 j (by omega) hj2

/-- A scan that refuses meets a symbol at or above the bound, every element before it being written. -/
theorem scanSymbols_tooBig {m : Mem 9} {bound i k : Nat} (h : scanSymbols m bound i k = .tooBig) :
    ∃ e v, i ≤ e ∧ e < i + k ∧ Mem.read m e = some v ∧ bound ≤ v.toNat ∧
      ∀ j, i ≤ j → j < e → ∃ u, Mem.read m j = some u ∧ u.toNat < bound := by
  induction k generalizing i with
  | zero => simp [scanSymbols] at h
  | succ k ih =>
    unfold scanSymbols at h
    split at h
    · cases h
    · rename_i v hv
      split at h
      · rename_i hb
        exact ⟨i, v, Nat.le_refl _, by omega, hv, hb, fun j h1 h2 => absurd h1 (by omega)⟩
      · rename_i hb
        split at h
        · cases h
        · rename_i hj
          obtain ⟨e, u, h1, h2, h3, h4, h5⟩ := ih hj
          refine ⟨e, u, by omega, by omega, h3, h4, fun j hj1 hj2 => ?_⟩
          by_cases hij : j = i
          · exact ⟨v, hij ▸ hv, by omega⟩
          · exact h5 j (by omega) hj2
        · cases h

end Sys2Proof.Laws
end

