-- ==== Sys2Proof/Laws/Commands.lean ====
section
/-! SUPPORT. The commands seen from the engine: their rules, what encoding a run of symbols does, and the engine's turn. -/

namespace Sys2Proof.Laws

open Sys2Proof.Machine Sys2Proof.Safety

/-- Each arm of `exec` commits the rule of its command (40_control R97). -/
theorem exec_eq_commit (i : Instr) (s : State) : exec i s = commit (encode i) (runCmd i s) := by
  cases i <;> rfl

@[simp] theorem commit_done (w : Word) (s : State) : commit w (.done s) = .next s := rfl

@[simp] theorem commit_raised (w : Word) (code : ErrCode) (s : State) :
    commit w (.raised code s) = .next (capture code false w s) := rfl

@[simp] theorem commit_uninit (w : Word) (mem : MemId) (i : Nat) :
    commit w (.uninit mem i) = .fault (.uninit mem i) := rfl

/-- A command answers a next state exactly by ending, or by raising an error that is captured. -/
theorem commit_next_iff (w : Word) (e : CmdEnd) (t : State) :
    commit w e = .next t ↔ e = .done t ∨ ∃ code u, e = .raised code u ∧ t = capture code false w u := by
  cases e <;> simp [commit, eq_comm]

/-- Encoding a run of symbols whose book entries are all written appends their codes in order
(43_huffman R143, R145). -/
theorem encodeSymbols_done {s : State} {syms : List Nat}
    (h : ∀ x ∈ syms, (Mem.read s.bookCode x).isSome = true ∧ (Mem.read s.bookLen x).isSome = true) :
    encodeSymbols syms s =
      .done (appendBits s (syms.flatMap fun x =>
        bitsMsb ((Mem.read s.bookCode x).getD 0) ((Mem.read s.bookLen x).getD 0).toNat)) := by
  induction syms generalizing s with
  | nil => rfl
  | cons x syms ih =>
    obtain ⟨⟨c, hc⟩, ⟨l, hl⟩⟩ := (h x List.mem_cons_self).imp
      Option.isSome_iff_exists.1 Option.isSome_iff_exists.1
    have hrest : ∀ y ∈ syms, (Mem.read (emitCode s c l.toNat).bookCode y).isSome = true ∧
        (Mem.read (emitCode s c l.toNat).bookLen y).isSome = true := by
      intro y hy
      simpa using h y (List.mem_cons_of_mem _ hy)
    rw [encodeSymbols, hc, hl]
    simp only
    rw [ih hrest, List.flatMap_cons, appendBits_append]
    simp [emitCode, hc, hl]

/-- Encoding a run of symbols either appends codes or meets an unwritten book entry. -/
theorem encodeSymbols_cases (syms : List Nat) (s : State) :
    (∃ bits, encodeSymbols syms s = .done (appendBits s bits)) ∨
      ∃ mem i, encodeSymbols syms s = .uninit mem i := by
  induction syms generalizing s with
  | nil => exact .inl ⟨[], rfl⟩
  | cons x syms ih =>
    unfold encodeSymbols
    split
    · exact .inr ⟨_, _, rfl⟩
    · rename_i c hc
      split
      · exact .inr ⟨_, _, rfl⟩
      · rename_i l hl
        rcases ih (emitCode s c l.toNat) with ⟨bits, h⟩ | h
        · refine .inl ⟨bitsMsb c l.toNat ++ bits, ?_⟩
          rw [h, appendBits_append]
          rfl
        · exact .inr h

/-- A raise carries the state the command began in, but for the one effect R138 names. -/
theorem runCmd_raised {i : Instr} {s t : State} {code : ErrCode} (h : runCmd i s = .raised code t) :
    t = s ∨ code = .encodingFailed ∧ t = { s with bookValid := false } := by
  have enc : ∀ syms, encodeSymbols syms s ≠ .raised code t := by
    intro syms
    rcases encodeSymbols_cases syms s with ⟨bits, h⟩ | ⟨mem, i, h⟩ <;> simp [h]
  cases i <;>
    simp only [runCmd, runNop, runBwBit, runBwBits, runBwFlush, runBwClose, runBwOpen, runBwtRun,
      runHcount, runHbuild, runHencSym, runHencRun] at h <;>
    (repeat' split at h) <;>
    first
    | (cases h; done)
    | (cases h; exact .inl rfl)
    | (cases h; exact .inr ⟨rfl, rfl⟩)
    | exact absurd h (enc _)

/-- Appending bits only appends to the sink. -/
theorem appendBits_sink (bits : List Bool) (s : State) : ∃ out, (appendBits s bits).sink = s.sink ++ out := by
  induction bits generalizing s with
  | nil => exact ⟨[], by simp [appendBits]⟩
  | cons b bits ih =>
    obtain ⟨out, h⟩ := ih (appendBit s b)
    have hone : ∃ o, (appendBit s b).sink = s.sink ++ o := by
      unfold appendBit
      by_cases hf : s.cache.length = Config.cacheBits
      · obtain ⟨o, ho, _⟩ := flushWhole_spec s
        exact ⟨o, by simp [hf, ho]⟩
      · exact ⟨[], by simp [hf]⟩
    obtain ⟨o, ho⟩ := hone
    exact ⟨o ++ out, by rw [show appendBits s (b :: bits) = appendBits (appendBit s b) bits from rfl, h, ho,
      List.append_assoc]⟩

/-- A command that ends well only appends to the sink. -/
theorem runCmd_sink {i : Instr} {s t : State} (h : runCmd i s = .done t) : ∃ out, t.sink = s.sink ++ out := by
  have enc : ∀ syms, encodeSymbols syms s = .done t → ∃ out, t.sink = s.sink ++ out := by
    intro syms hs
    rcases encodeSymbols_cases syms s with ⟨bits, hb⟩ | ⟨mem, i, hb⟩
    · rw [hb] at hs
      cases hs
      exact appendBits_sink bits s
    · rw [hb] at hs
      cases hs
  cases i <;>
    simp only [runCmd, runNop, runBwBit, runBwBits, runBwFlush, runBwClose, runBwOpen, runBwtRun,
      runHcount, runHbuild, runHencSym, runHencRun] at h <;>
    (repeat' split at h) <;>
    first
    | (cases h; done)
    | exact enc _ h
    | (cases h; refine ⟨[], ?_⟩; simp [writeBook]; done)
    | (cases h; exact appendBits_sink _ _)
    | (cases h; exact appendBits_sink [_] _)
    | (cases h; exact (flushWhole_spec _).imp fun _ hs => hs.1)

/-- A command that answers a next state only appends to the sink (20_memory R60). -/
theorem exec_sink {i : Instr} {s t : State} (h : exec i s = .next t) : ∃ out, t.sink = s.sink ++ out := by
  rw [exec_eq_commit, commit_next_iff] at h
  rcases h with h | ⟨code, u, h, rfl⟩
  · exact runCmd_sink h
  · rcases runCmd_raised h with rfl | ⟨_, rfl⟩ <;> exact ⟨[], by simp⟩

/-- An accepted word that answers a next state only appends to the sink. -/
theorem execWord_sink {w : Word} {s t : State} (h : execWord w s = .next t) : ∃ out, t.sink = s.sink ++ out := by
  unfold execWord at h
  split at h
  · cases h
    exact ⟨[], by simp⟩
  · exact exec_sink h

/-- What `newBytes` says of a sink that was only appended to. -/
theorem newBytes_eq {s t : State} {out : List Byte} (h : t.sink = s.sink ++ out) : newBytes s t = out := by
  rw [newBytes, h, List.drop_left]

/-- With no byte accepted before, delivering a command's bytes is its effect. -/
theorem deliver_zero {s t : State} (h : ∃ out, t.sink = s.sink ++ out) : deliver 0 s t = t := by
  obtain ⟨out, h⟩ := h
  rw [deliver, newBytes_eq h, List.drop_zero, ← h]

/-- The pending command's bytes are those its effect appends (20_memory R66). -/
theorem pendingBytes_eq {s t : State} {p : Pending} (hp : s.pend = some p) (h : execWord p.word s = .next t) :
    pendingBytes s = newBytes s t := by
  cases hd : decode p.word with
  | error e =>
    simp only [execWord, hd] at h
    cases h
    simp only [pendingBytes, hp, hd, newBytes, capture_sink, List.drop_length]
  | ok i =>
    simp only [execWord, hd, exec_eq_commit, commit_next_iff] at h
    rcases h with h | ⟨code, u, h, rfl⟩
    · simp only [pendingBytes, hp, hd, h]
    · simp only [pendingBytes, hp, hd, h, newBytes, capture_sink]
      rcases runCmd_raised h with rfl | ⟨_, rfl⟩ <;> exact List.drop_length.symm

/-- With the sink accepting, the engine's turn on a pending command is that command's effect with the bytes
not accepted before, and then nothing is pending (40_control R97). -/
theorem finishTurn_ready {sent : Nat} {s t : State} (h : s.sinkStall = 0) :
    finishTurn sent s (.next t) = .next (deliver sent s t).complete := by
  simp [finishTurn, h]

/-- What the sink takes early are the first of the pending command's bytes it does not have (20_memory R66). -/
theorem sinkTakes_pending {s : State} {p : Pending} (count : Nat) (hp : s.pend = some p) :
    (sinkTakes count s).sink = s.sink ++ ((pendingBytes s).drop p.sent).take count ∧
      (sinkTakes count s).pend =
        some { p with sent := p.sent + (((pendingBytes s).drop p.sent).take count).length } := by
  simp only [sinkTakes, hp, and_self]

end Sys2Proof.Laws
end

