-- ==== Sys2Proof/Laws/Decode.lean ====
section
/-! SUPPORT. The decoder's and the encoder's fields as numbers, so that statements about words are arithmetic. -/

namespace Sys2Proof.Laws

/-- OPC is W div 2^24 (30_encoding R80). -/
theorem opcodeOf_toNat (w : Word) : (opcodeOf w).toNat = w.toNat / 2 ^ 24 := by
  have := w.isLt
  simp only [opcodeOf, BitVec.extractLsb'_toNat, Nat.shiftRight_eq_div_pow]
  omega

/-- OPD is W mod 2^24 (30_encoding R80). -/
theorem operandOf_toNat (w : Word) : (operandOf w).toNat = w.toNat % 2 ^ 24 := by
  simp [operandOf]

/-- A field is zero exactly when its number is. -/
theorem extract_eq_zero_iff (w : Word) (start len : Nat) :
    w.extractLsb' start len = 0 ↔ w.toNat / 2 ^ start % 2 ^ len = 0 := by
  rw [← BitVec.toNat_inj]
  simp [Nat.shiftRight_eq_div_pow]

theorem operandOf_eq_zero_iff (w : Word) : operandOf w = 0 ↔ w.toNat % 2 ^ 24 = 0 := by
  unfold operandOf
  rw [extract_eq_zero_iff]
  simp

/-- A reserved-bits check succeeds exactly when every must-be-zero bit is 0 (30_encoding R83). -/
theorem checkReserved_ok_iff {n : Nat} (opc : BitVec 8) (mbz : BitVec n) (i j : Instr) :
    checkReserved opc mbz i = .ok j ↔ mbz = 0 ∧ i = j := by
  unfold checkReserved
  split <;> simp_all

theorem checkReserved_error_iff {n : Nat} (opc : BitVec 8) (mbz : BitVec n) (i : Instr) (e : Illegal) :
    checkReserved opc mbz i = .error e ↔ mbz ≠ 0 ∧ e = .reservedOperandBits opc := by
  by_cases h : mbz = 0
  · simp [checkReserved, h]
  · simp only [checkReserved, h, if_false, Except.error.injEq, ne_eq, not_false_eq_true, true_and]
    exact eq_comm

/-- Putting a field below an opcode. -/
theorem toNat_append {n m : Nat} (a : BitVec n) (b : BitVec m) :
    (a ++ b).toNat = a.toNat * 2 ^ m + b.toNat := by
  rw [BitVec.toNat_append, ← Nat.shiftLeft_add_eq_or_of_lt b.isLt, Nat.shiftLeft_eq]

theorem encodeN_toNat (opc : BitVec 8) : (encodeN opc).toNat = opc.toNat * 2 ^ 24 := by
  have h : (encodeN opc).toNat = opc.toNat * 2 ^ 24 + (0#24).toNat := toNat_append opc 0#24
  simpa using h

theorem encodeB_toNat (opc : BitVec 8) (b : Bool) :
    (encodeB opc b).toNat = opc.toNat * 2 ^ 24 + b.toNat := by
  have h : (encodeB opc b).toNat = opc.toNat * 2 ^ 24 + (0#23 ++ BitVec.ofBool b).toNat :=
    toNat_append opc (0#23 ++ BitVec.ofBool b)
  rw [h, toNat_append]
  cases b <;> simp

theorem encodeC_toNat (opc : BitVec 8) (count : Nat) :
    (encodeC opc count).toNat = opc.toNat * 2 ^ 24 + count % 64 := by
  have h : (encodeC opc count).toNat = opc.toNat * 2 ^ 24 + (0#18 ++ BitVec.ofNat 6 count).toNat :=
    toNat_append opc (0#18 ++ BitVec.ofNat 6 count)
  rw [h, toNat_append]
  simp

theorem encodeS_toNat (opc : BitVec 8) (sym : Nat) :
    (encodeS opc sym).toNat = opc.toNat * 2 ^ 24 + sym % 512 := by
  have h : (encodeS opc sym).toNat = opc.toNat * 2 ^ 24 + (0#15 ++ BitVec.ofNat 9 sym).toNat :=
    toNat_append opc (0#15 ++ BitVec.ofNat 9 sym)
  rw [h, toNat_append]
  simp

end Sys2Proof.Laws
end

