-- ==== Sys2Proof/Laws/PerInstr.lean ====
section
/-! SUPPORT. One lemma per command: its word is selected by its own row of the opcode map. -/

namespace Sys2Proof.Laws.OpcodeRow

open Sys2Proof.Safety

/-- The word of a well-formed command is selected by the row of its mnemonic (30_encoding R85). -/
def Statement (i : Instr) : Prop :=
  i.wellFormed = true → ∃ r ∈ opcodeMap, r.mnemonic = mnemonicOf i ∧ r.selects (encode i)

/-- It is enough to name the row. -/
theorem of_row {i : Instr} (r : OpRow) (hr : r ∈ opcodeMap) (hm : r.mnemonic = mnemonicOf i)
    (hs : encode i &&& r.mask = r.pattern) : Statement i :=
  fun _ => ⟨r, hr, hm, hs⟩

theorem nop : Statement .nop :=
  of_row ⟨"NOP", 0x00000000, 0xFFFFFFFF⟩ (by decide) rfl (by decide)

theorem bwBit (b : Bool) : Statement (.bwBit b) :=
  of_row ⟨"BW_BIT", 0x01000000, 0xFFFFFFFE⟩ (by decide) rfl (by cases b <;> decide)

/-- Every 6-bit count leaves the other bits of format C as the row has them (30_encoding R81). -/
theorem encodeC_selected : ∀ c, c < 64 → encodeC 0x02 c &&& 0xFFFFFFC0 = 0x02000000 := by
  decide

/-- Every 9-bit symbol leaves the other bits of format S as the row has them (30_encoding R81). -/
theorem encodeS_selected : ∀ c, c < 512 → encodeS 0x22 c &&& 0xFFFFFE00 = 0x22000000 := by
  decide +kernel

theorem bwBits (count : Nat) : Statement (.bwBits count) := fun h =>
  of_row ⟨"BW_BITS", 0x02000000, 0xFFFFFFC0⟩ (by decide) rfl
    (encodeC_selected count (of_decide_eq_true h)) h

theorem bwFlush : Statement .bwFlush :=
  of_row ⟨"BW_FLUSH", 0x03000000, 0xFFFFFFFF⟩ (by decide) rfl (by decide)

theorem bwClose : Statement .bwClose :=
  of_row ⟨"BW_CLOSE", 0x04000000, 0xFFFFFFFF⟩ (by decide) rfl (by decide)

theorem bwOpen : Statement .bwOpen :=
  of_row ⟨"BW_OPEN", 0x05000000, 0xFFFFFFFF⟩ (by decide) rfl (by decide)

theorem bwtRun : Statement .bwtRun :=
  of_row ⟨"BWT_RUN", 0x10000000, 0xFFFFFFFF⟩ (by decide) rfl (by decide)

theorem hcount : Statement .hcount :=
  of_row ⟨"HCOUNT", 0x20000000, 0xFFFFFFFF⟩ (by decide) rfl (by decide)

theorem hbuild : Statement .hbuild :=
  of_row ⟨"HBUILD", 0x21000000, 0xFFFFFFFF⟩ (by decide) rfl (by decide)

theorem hencSym (sym : Nat) : Statement (.hencSym sym) := fun h =>
  of_row ⟨"HENC_SYM", 0x22000000, 0xFFFFFE00⟩ (by decide) rfl
    (encodeS_selected sym (of_decide_eq_true h)) h

theorem hencRun : Statement .hencRun :=
  of_row ⟨"HENC_RUN", 0x23000000, 0xFFFFFFFF⟩ (by decide) rfl (by decide)

end Sys2Proof.Laws.OpcodeRow
end

