-- ==== Sys2Proof/Tests/Slice0.lean ====
section
/-! SUPPORT. Small tests, their expected results from 95_test_vectors and the formats of 30_encoding, and for every
obligation with hypotheses a state that meets them. -/

namespace Sys2Proof.Tests

open Sys2Proof.Machine Sys2Proof.Safety

/-! ### Small states -/

/-- The state after reset with this cache. -/
def withCache (c : List Bool) : State := { State.reset with cache := c }

/-- The state after reset with the writer closed. -/
def closed : State := { State.reset with bwClosed := true }

/-- The state after reset with these two operands. -/
def withArgs (x y : Word) : State := { State.reset with arg0 := x, arg1 := y }

/-- The state after reset with this command accepted. -/
def pending (w x y : Word) : State := { State.reset with pend := some { word := w, a0 := x, a1 := y } }

/-- The state after reset with this block in BLK_MEM and its length in ARG0. -/
def withBlock (block : List Byte) : State :=
  { State.reset with blkMem := Mem.writeFrom [] 0 block, arg0 := BitVec.ofNat 32 block.length }

/-- The state after reset with these symbols in SYM_MEM and these operands. -/
def withSyms (syms : List (BitVec 9)) (x y : Word) : State :=
  { State.reset with symMem := Mem.writeFrom [] 0 syms, arg0 := x, arg1 := y }

/-- The state after reset with these frequencies and their number in ARG0. -/
def withFreqs (freqs : List Word) : State :=
  { State.reset with freqMem := Mem.writeFrom [] 0 freqs, arg0 := BitVec.ofNat 32 freqs.length }

/-- Book B4 of 95_test_vectors section 7: the codes 0, 110, 111, 10. -/
def withB4 (s : State) : State :=
  { s with
    bookValid := true
    bookN := 4
    bookMaxlen := 3
    bookCode := [(0, 0), (1, 6), (2, 7), (3, 2)]
    bookLen := [(0, 1), (1, 3), (2, 3), (3, 2)] }

/-- A pending BW_FLUSH of 0xDEADBEEF, of which the sink has the first byte, with these events to come. -/
def flushing (es : List Event) : State :=
  { State.reset with
    pend := some { word := 0x03000000, a0 := 0, a1 := 0, sent := 1 }
    cache := bitsMsb 0xDEADBEEF 32
    sink := [0xDE]
    events := es }

/-- "banana" (vector T1). -/
def banana : List Byte := [0x62, 0x61, 0x6E, 0x61, 0x6E, 0x61]

/-- The 22 Fibonacci frequencies of vector H9. -/
def fibonacci : List Word :=
  [1, 1, 2, 3, 5, 8, 13, 21, 34, 55, 89] ++
    [144, 233, 377, 610, 987, 1597, 2584, 4181, 6765, 10946, 17711]

/-- What `f` makes of the next state, where there is one. -/
def look {α : Type} (f : State → α) : Host.Outcome State Fault Refusal → Option α
  | .next t => some (f t)
  | .fault _ => none
  | .refused _ => none

/-- The fault, where there is one. -/
def faultOf : Host.Outcome State Fault Refusal → Option Fault
  | .next _ => none
  | .fault r => some r
  | .refused _ => none

/-- The outcome is that fault. -/
theorem fault_of_faultOf {o : Host.Outcome State Fault Refusal} {r : Fault} (h : faultOf o = some r) :
    o = .fault r := by
  cases o with
  | next t => cases h
  | fault q => cases h; rfl
  | refused q => cases h

/-- The error a command ends in, where it does. -/
def raises : CmdEnd → Option ErrCode
  | .raised code _ => some code
  | .done _ => none
  | .uninit _ _ => none

/-- The outcome is a next state. -/
theorem next_of_look {o : Host.Outcome State Fault Refusal} (h : (look (fun _ => ()) o).isSome = true) :
    ∃ t, o = .next t := by
  cases o with
  | next t => exact ⟨t, rfl⟩
  | fault r => cases h
  | refused r => cases h

/-! ### WellFormed -/

/-- 30_encoding R82, R94: a count is below 64. -/
theorem test_wellFormed_count : (Instr.bwBits 63).wellFormed = true ∧ (Instr.bwBits 64).wellFormed = false := by
  decide

/-- 30_encoding R82, R94: a symbol is below 512. -/
theorem test_wellFormed_sym : (Instr.hencSym 511).wellFormed = true ∧ (Instr.hencSym 512).wellFormed = false := by
  decide

/-! ### Decoding: words written out from the formats of R81 and the opcodes of R85 -/

/-- Control: opcode 0000 0000, 24 zero bits. -/
theorem test_decode_control : decode 0b00000000000000000000000000000000 = .ok .nop := by decide

/-- Bit-writer: opcode 0000 0001, 23 zero bits, b; opcode 0000 0010, 18 zero bits, six count bits. -/
theorem test_decode_bitwriter :
    decode 0b00000001000000000000000000000001 = .ok (.bwBit true) ∧
    decode 0b00000010000000000000000000100000 = .ok (.bwBits 32) ∧
    decode 0b00000011000000000000000000000000 = .ok .bwFlush ∧
    decode 0b00000100000000000000000000000000 = .ok .bwClose ∧
    decode 0b00000101000000000000000000000000 = .ok .bwOpen := by decide

/-- BWT: opcode 0001 0000. -/
theorem test_decode_bwt : decode 0b00010000000000000000000000000000 = .ok .bwtRun := by decide

/-- Huffman: opcodes 0010 00xx; HENC_SYM with 15 zero bits and nine symbol bits. -/
theorem test_decode_huffman :
    decode 0b00100000000000000000000000000000 = .ok .hcount ∧
    decode 0b00100001000000000000000000000000 = .ok .hbuild ∧
    decode 0b00100010000000000000000100000001 = .ok (.hencSym 257) ∧
    decode 0b00100011000000000000000000000000 = .ok .hencRun := by decide

/-- R87: a reserved opcode and a reserved operand bit. -/
theorem test_decode_refuses :
    decode 0x06000000 = .error (.reservedOpcode 0x06) ∧
    decode 0x24000000 = .error (.reservedOpcode 0x24) ∧
    decode 0x00000001 = .error (.reservedOperandBits 0x00) ∧
    decode 0x01000002 = .error (.reservedOperandBits 0x01) := by decide

/-- The encoder writes the words of 95_test_vectors section 9. -/
theorem test_encode : encode (.bwBits 32) = 0x02000020 ∧ encode .bwtRun = 0x10000000 := by decide

/-- The table's numbering: bit 0 is the least significant of the one word. -/
theorem test_decodeTableWord : decodeTableWord 32 0x220001FF = some (.hencSym 511) := by decide

/-- Program P1's command, placed at reset, runs in the very next step. -/
theorem test_withFetchWord :
    look (·.bwClosed) (step (State.reset.withFetchWord 32 0x04000000)) = some true := by decide

/-! ### One or two tests per command (95_test_vectors) -/

/-- Section 3, row `nop`. -/
theorem test_nop : look State.statusWord (exec .nop State.reset) = some 0 := by decide

/-- W12: a full cache leaves before the bit enters. -/
theorem test_bwBit_full :
    look (fun t => (t.cache, t.sink, t.bwBytes))
      (exec (.bwBit true) (withCache (bitsMsb 0xFFFFFFFF 32 ++ bitsMsb 0 32))) =
    some ([true], [0xFF, 0xFF, 0xFF, 0xFF, 0, 0, 0, 0], 8) := by decide

/-- W16: a closed writer. -/
theorem test_bwBit_closed :
    look (fun t => (t.statusWord, t.errCodeWord, t.errInfo)) (exec (.bwBit true) closed) =
    some (0x6, 0x2, 0x01000001) := by decide

/-- W8: the bits of ARG0 above the count play no part. -/
theorem test_bwBits_order :
    look (·.cache) (exec (.bwBits 4) (withArgs 0xFFFFFFF5 0)) = some [false, true, false, true] := by decide

/-- W6: a count of 33. -/
theorem test_bwBits_33 :
    look (fun t => (t.cache, t.errCodeWord, t.errInfo)) (exec (.bwBits 33) (withCache [true, false, true])) =
    some ([true, false, true], 0x1, 0x02000021) := by decide

/-- W10: the partial byte stays. -/
theorem test_bwFlush :
    look (fun t => (t.cache, t.sink)) (exec .bwFlush (withCache (bitsMsb 0x155 9))) =
    some ([true], [0xAA]) := by decide

/-- W2: zero padding, then closed. -/
theorem test_bwClose :
    look (fun t => (t.sink, t.bwBytes, t.statusWord)) (exec .bwClose (withCache [true, false, true, true])) =
    some ([0xB0], 1, 0x4) := by decide

/-- W20: no padding for a whole byte. -/
theorem test_bwClose_whole :
    look (fun t => (t.sink, t.cache)) (exec .bwClose (withCache (bitsMsb 0xA5 8))) = some ([0xA5], []) := by decide

/-- W17: the writer reopens. -/
theorem test_bwOpen : look (·.bwClosed) (exec .bwOpen closed) = some false := by decide

/-- W18: already open. -/
theorem test_bwOpen_open :
    look (fun t => (t.cache, t.errCodeWord, t.errInfo)) (exec .bwOpen (withCache [true, false, true])) =
    some ([true, false, true], 0x7, 0x05000000) := by decide

/-- T1. -/
theorem test_bwtRun_banana :
    look (fun t => (t.bwtOut.map Prod.snd, t.bwtOrigin, t.bwtLen, t.statusWord)) (exec .bwtRun (withBlock banana)) =
    some ([0x6E, 0x6E, 0x62, 0x61, 0x61, 0x61], 3, 6, 0x10) := by decide

/-- T3: equal rotations by ascending start. -/
theorem test_bwtRun_periodic :
    look (fun t => (t.bwtOut.map Prod.snd, t.bwtOrigin)) (exec .bwtRun (withBlock [0x61, 0x62, 0x61, 0x62])) =
    some ([0x62, 0x62, 0x61, 0x61], 0) := by decide

/-- Q6. -/
theorem test_hcount :
    look (·.freqMem) (exec .hcount (withSyms [0, 1, 0, 2, 0, 3] 6 4)) =
    some [(0, 3), (1, 1), (2, 1), (3, 1)] := by decide

/-- Q3: a symbol at N. -/
theorem test_hcount_big :
    look (fun t => (t.freqMem, t.errCodeWord, t.errInfo)) (exec .hcount (withSyms [0, 4] 2 4)) =
    some ([], 0x1, 0x20000000) := by decide

/-- H3: TIE = 1. -/
theorem test_hbuild_before :
    look (fun t => (t.bookLen.map Prod.snd, t.bookCode.map Prod.snd, t.bookMaxlen))
      (exec .hbuild { withFreqs [1, 1, 2, 2] with tie := true }) =
    some ([3, 3, 2, 1], [6, 7, 2, 0], 3) := by decide

/-- H9: one length over the cap. -/
theorem test_hbuild_cap :
    look (fun t => (t.bookLen, t.statusWord, t.errCodeWord, t.errInfo)) (exec .hbuild (withFreqs fibonacci)) =
    some ([], 0x2, 0x3, 0x21000000) := by decide

/-- E11 as its note has it, from 63 zero bits: the first code bit ends the last byte (rules R108, R109). -/
theorem test_hencSym_full :
    look (fun t => (t.cache, t.sink, t.bwBytes))
      (exec (.hencSym 1) (withB4 (withCache (bitsMsb 0 32 ++ bitsMsb 0 31)))) =
    some ([true, false], [0, 0, 0, 0, 0, 0, 0, 1], 8) := by decide

/-- E4: the closed writer is named before the missing book. -/
theorem test_hencSym_closed :
    look (fun t => (t.errCodeWord, t.errInfo)) (exec (.hencSym 0) closed) = some (0x2, 0x22000000) := by
  decide

/-- E8. -/
theorem test_hencRun :
    look (·.cache) (exec .hencRun (withB4 (withSyms [0, 1, 0, 2, 0, 3] 0 6))) =
    some [false, true, true, false, false, true, true, true, false, true, false] := by decide

/-- E5: no 32-bit wrap in start + count. -/
theorem test_hencRun_wrap :
    look (fun t => (t.cache, t.errCodeWord)) (exec .hencRun (withB4 (withArgs 0xFFFFFFFF 2))) =
    some ([], 0x1) := by decide

/-! ### The bus and the resets (95_test_vectors sections 3 and 8) -/

/-- `rd PARAM` and `rd 0x1408`. -/
theorem test_bus_reads :
    look (·.reply) (busAccess (wordAccess 0x004 .read) State.reset) = some (.data 0x01020814) ∧
    look (·.reply) (busAccess (wordAccess 0x1408 .read) State.reset) = some .busError ∧
    faultOf (busAccess (wordAccess 0x400000 .read) State.reset) = some (.uninit .blkMem 0) := by
  decide

/-- `wr CFG, 0xFFFFF1F1` and `wr CFG, 0x10A`. -/
theorem test_cfg_write :
    look State.cfgWord (busAccess (wordAccess 0x018 (.write 0xFFFFF1F1)) State.reset) = some 0x101 ∧
    look (fun t => (t.cfgWord, t.errCodeWord, t.errInfo))
      (busAccess (wordAccess 0x018 (.write 0x10A)) State.reset) = some (0x9, 0x101, 0x10A) := by
  decide

/-- 20_memory R59 and log entry 25: a busy read of an unwritten element is answered with a fresh draw, and an
idle one is the fault UNINIT of 10_state R49. -/
theorem test_busy_read_of_unwritten :
    look (fun t => t.draws) (busAccess (wordAccess 0x2000 .read) (pending 0 0 0)) = some 1 ∧
    faultOf (busAccess (wordAccess 0x2000 .read) State.reset) = some (.uninit .bookCode 0) := by
  decide

/-- Program P6: an ARG0 write while BWT_RUN is pending. -/
theorem test_busy_write :
    look (fun t => (t.arg0, t.errCodeWord, t.errInfo))
      (busAccess (wordAccess 0x020 (.write 5)) (pending 0x10000000 1 0)) = some (0, 0x105, 0x020) := by
  decide

/-- Z3: cached bits are lost. -/
theorem test_sreset_cache :
    look (fun t => (t.cache, t.sink)) (busAccess (wordAccess 0x008 (.write 1)) (withCache [true, false, true])) =
    some ([], []) := by decide

/-- Z4: the elements an aborted BWT_RUN would have written become unwritten. -/
theorem test_sreset_abort :
    (softReset { withBlock [0x78, 0x79] with
      bwtOut := [(0, 1), (1, 2), (2, 3)]
      pend := some { word := 0x10000000, a0 := 2, a1 := 0 } }).bwtOut = [(2, 3)] := by decide

/-- Z5's bytes, the sink having one: two more leave while BUSY is 1, and completion adds only the last
(20_memory R66). -/
theorem test_sinkTakes :
    look (fun t => (t.sink, t.busy)) (step (flushing [.sinkTakes 2])) = some ([0xDE, 0xAD, 0xBE], true) ∧
    look (fun t => (t.sink, t.busy, t.bwBytes)) (step (flushing [.engine])) =
      some ([0xDE, 0xAD, 0xBE, 0xEF], false, 4) := by decide

/-- R94: an illegal word reaches CMD only through `.word`. -/
theorem test_assemble_illegal :
    assemble (.wr 0x01C 0x30000000) = .error .illegalWord ∧
    assemble (.word 0x30000000) = .ok [busWrite 0x01C 0x30000000] := ⟨rfl, rfl⟩

/-- The assembler's expansion of `bwt 6` (program P2). -/
theorem test_assemble_bwt :
    assemble (.bwt 6) = .ok [.poll, busWrite 0x020 6, busWrite 0x01C 0x10000000, .poll] := by rfl

/-! ### Witnesses: for every obligation with hypotheses, a state that meets them, clause by clause -/

/-- What BLK_MEM holds after a block is written. -/
theorem blockIs_withBlock (block : List Byte) : BlockIs (withBlock block) block := by
  intro k hk
  simp [withBlock, Laws.read_writeFrom, hk]

/-- What SYM_MEM holds after symbols are written. -/
theorem symbolsAre_withSyms (syms : List (BitVec 9)) (x y : Word) :
    SymbolsAre (withSyms syms x y) 0 (syms.map BitVec.toNat) := by
  intro k hk
  rw [List.length_map] at hk
  simp [withSyms, Laws.read_writeFrom, hk]

theorem a0_withSyms (syms : List (BitVec 9)) (x y : Word) : (withSyms syms x y).a0 = x := rfl

theorem a1_withSyms (syms : List (BitVec 9)) (x y : Word) : (withSyms syms x y).a1 = y := rfl

/-- What FREQ_MEM holds after frequencies are written. -/
theorem freqsAre_withFreqs (freqs : List Word) : FreqsAre (withFreqs freqs) (freqs.map BitVec.toNat) := by
  intro k hk
  rw [List.length_map] at hk
  simp [withFreqs, Laws.read_writeFrom, hk]

/-- A command that ends in an error, as a hypothesis wants it. -/
theorem raised_of_raises {e : CmdEnd} {code : ErrCode} (h : raises e = some code) :
    ∃ u, e = .raised code u := by
  cases e with
  | raised c u => exact ⟨u, by cases h; rfl⟩
  | done u => cases h
  | uninit m i => cases h

/-- A command that ends well, as a hypothesis wants it. -/
def isDone : CmdEnd → Bool
  | .done _ => true
  | .raised _ _ => false
  | .uninit _ _ => false

theorem done_of_isDone {e : CmdEnd} (h : isDone e = true) : ∃ t, e = .done t := by
  cases e with
  | done t => exact ⟨t, rfl⟩
  | raised c u => cases h
  | uninit m i => cases h

theorem witness_DecodeOfEncode :
    (Instr.bwBits 63).wellFormed = true ∧ (Instr.hencSym 511).wellFormed = true ∧
      Instr.hencRun.wellFormed = true := by decide

theorem witness_DecodeFollowsOpcodeMap :
    ∃ r ∈ opcodeMap, r.mnemonic = "BW_BITS" ∧ r.selects 0x0200003F :=
  ⟨⟨"BW_BITS", 0x02000000, 0xFFFFFFC0⟩, by decide, rfl, by unfold OpRow.selects; decide⟩

theorem witness_EncodeOfDecode :
    decode 0x220001FF = .ok (.hencSym 511) ∧ decode 0x0200003F = .ok (.bwBits 63) := by decide

theorem witness_IllegalWordsOnlyCapture :
    (pending 0x06000000 0 0).pend = some { word := 0x06000000, a0 := 0, a1 := 0 } ∧
    ReservedOpcode 0x06000000 ∧ ReservedOpcode 0x1F000000 ∧ ReservedOpcode 0xFF000000 := by
  simp only [ReservedOpcode]
  decide

theorem witness_IllegalWordsOnlyCapture_bits :
    (pending 0x00000001 0 0).pend = some { word := 0x00000001, a0 := 0, a1 := 0 } ∧
    ReservedBitSet 0x00000001 ∧ ReservedBitSet 0x01000002 ∧ ReservedBitSet 0x02000040 ∧
    ReservedBitSet 0x22000200 := by
  simp only [ReservedBitSet]
  decide

theorem witness_StepRunsDecodedCommand :
    (let s := pending 0x04000000 0 0;
      s.pend = some { word := 0x04000000, a0 := 0, a1 := 0 } ∧ decode 0x04000000 = .ok .bwClose ∧
      s.sinkStall = 0 ∧ s.events = [] ∧ ∃ t, exec .bwClose s = .next t) ∧
    ((flushing []).pend = some { word := 0x03000000, a0 := 0, a1 := 0, sent := 1 } ∧
      decode 0x03000000 = .ok .bwFlush ∧ (flushing []).sinkStall = 0 ∧
      ∃ t, exec .bwFlush (flushing []) = .next t) ∧
    (let s := pending 0x10000000 1 0;
      s.pend = some { word := 0x10000000, a0 := 1, a1 := 0 } ∧ decode 0x10000000 = .ok .bwtRun ∧
      exec .bwtRun s = .fault (.uninit .blkMem 0)) ∧
    decode (BitVec.ofNat 32 0x03000000) = .ok .bwFlush :=
  ⟨⟨rfl, by decide, rfl, rfl, _, rfl⟩, ⟨rfl, by decide, rfl, next_of_look (by decide)⟩,
    ⟨rfl, by decide, fault_of_faultOf (by decide)⟩, by decide⟩

/-- The clauses about events: one due event of each kind, busy and idle. -/
theorem witness_StepRunsDecodedCommand_events :
    (flushing [.access (wordAccess 0x00C .read), .poll]).events = [.access (wordAccess 0x00C .read), .poll] ∧
    (flushing [.hardReset]).events = [.hardReset] ∧ (flushing [.engine]).events = [.engine] ∧
    ((flushing [.poll]).events = [.poll] ∧ (flushing [.poll]).busy = true) ∧
    (let s : State := { State.reset with events := [.poll] };
      s.events = [.poll] ∧ s.busy = false) ∧
    (flushing [.sinkStall 3]).events = [.sinkStall 3] ∧
    ((flushing [.sinkTakes 2]).events = [.sinkTakes 2] ∧
      (flushing [.sinkTakes 2]).pend = some { word := 0x03000000, a0 := 0, a1 := 0, sent := 1 } ∧
      ∃ u, execWord 0x03000000 { flushing [.sinkTakes 2] with events := [] } = .next u) ∧
    (let s : State := { State.reset with events := [.sinkTakes 2] };
      s.events = [.sinkTakes 2] ∧ s.pend = none) :=
  ⟨rfl, rfl, rfl, ⟨rfl, rfl⟩, ⟨rfl, rfl⟩, rfl, ⟨rfl, rfl, next_of_look (by decide)⟩, rfl, rfl⟩

theorem witness_IdleOrStalledTurnChangesNothing :
    State.reset.pend = none ∧
    (let s : State := { flushing [] with sinkStall := 1 };
      s.pend = some { word := 0x03000000, a0 := 0, a1 := 0, sent := 1 } ∧ s.sinkStall = 0 + 1 ∧
      look (fun t => decide (s.sink.length + 1 < t.sink.length)) (execWord 0x03000000 s) = some true) := by
  decide

theorem witness_CommandsCompleteInBoundedTurns :
    let s : State := { pending 0x03000000 0 0 with cache := bitsMsb 0xA5 8, sinkStall := 3 };
    s.pend = some { word := 0x03000000, a0 := 0, a1 := 0 } ∧ ∃ u, execWord 0x03000000 s = .next u :=
  ⟨rfl, next_of_look (by decide)⟩

theorem witness_NopOnlyEndsBusy :
    (pending 0 7 8).pend = some { word := 0, a0 := 7, a1 := 8 } := rfl

theorem witness_BwBitAppendsOneBit :
    closed.bwClosed = true ∧
    ((withCache (bitsMsb 0 32 ++ bitsMsb 1 31)).bwClosed = false ∧
      (withCache (bitsMsb 0 32 ++ bitsMsb 1 31)).cache.length < 64) ∧
    ((withCache (bitsMsb 0 32 ++ bitsMsb 1 32)).bwClosed = false ∧
      (withCache (bitsMsb 0 32 ++ bitsMsb 1 32)).cache.length = 64) := by decide

theorem witness_BwBitsAppendsLowBits :
    closed.bwClosed = true ∧ (State.reset.bwClosed = false ∧ 32 < 33) ∧
    ((withCache (bitsMsb 0 32 ++ bitsMsb 1 32)).bwClosed = false ∧ 32 ≤ 32 ∧
      (withCache (bitsMsb 0 32 ++ bitsMsb 1 32)).cache.length ≤ 64) := by decide

theorem witness_BwBitsIgnoresHighBits :
    (let s := pending 0x02000004 5 0;
      s.pend = some { word := 0x02000004, a0 := 5, a1 := 0 } ∧
      (∀ k, k < 4 → (0xFFFFFFF5 : Word).getLsbD k = (5 : Word).getLsbD k) ∧
      (∃ t, exec (.bwBits 4) s = .next t) ∧
      ∃ u, exec (.bwBits 4) { s with pend := some { word := 0x02000004, a0 := 0xFFFFFFF5, a1 := 0 } } =
        .next u) ∧
    BitsOf 0xFFFFFFF5 4 [false, true, false, true] :=
  ⟨⟨rfl, by decide, ⟨_, rfl⟩, ⟨_, rfl⟩⟩, by unfold BitsOf; decide⟩

theorem witness_BwFlushKeepsPartialByte :
    closed.bwClosed = true ∧ (withCache [true]).bwClosed = false := by decide

theorem witness_BwClosePadsAndCloses :
    closed.bwClosed = true ∧ (withCache (bitsMsb 0 32 ++ bitsMsb 1 31)).bwClosed = false ∧
      (withCache (bitsMsb 0 32 ++ bitsMsb 1 31)).cache.length ≤ 64 := by decide

theorem witness_BwOpenReopens : closed.bwClosed = true ∧ State.reset.bwClosed = false := by decide

theorem witness_ClosedWriterIsCheckedFirst :
    closed.bwClosed = true ∧ Instr.nop ∈ [Instr.bwOpen, .nop, .bwtRun, .hcount, .hbuild] := by decide

theorem witness_StreamLawIsKept :
    (withCache [true]).cache.length ≤ 64 ∧ StreamLaw [] [true] (withCache [true]) ∧ Instr.bwClose ≠ .bwOpen ∧
      (∃ t, exec .bwClose (withCache [true]) = .next t) ∧ (∃ u, runCmd .bwClose (withCache [true]) = .done u) ∧
      ∃ u, runCmd (.bwBits 33) (withCache [true]) = .raised .invalidArgument u :=
  ⟨by decide, ⟨[], rfl, rfl, rfl⟩, by decide, ⟨_, rfl⟩, ⟨_, rfl⟩, raised_of_raises (by decide)⟩

theorem witness_CloseCountsBytes :
    (withCache [true]).bwClosed = false ∧ StreamLaw [] [true] (withCache [true]) :=
  ⟨rfl, [], rfl, rfl, rfl⟩

/-- A state with nothing pending meets the invariant of the writer if its cache does. -/
theorem writerInv_idle {s : State} (hp : s.pend = none) (hl : s.cache.length ≤ 64)
    (hc : s.bwClosed = true → s.cache = []) : WriterInv s :=
  ⟨hl, hc, fun p h => by simp [hp] at h, s.sink, by simp [takenBytes, hp]⟩

/-- The sink's one byte is the first of the flush's four. -/
theorem writerInv_flushing (es : List Event) (h : pendingBytes (flushing es) = [0xDE, 0xAD, 0xBE, 0xEF]) :
    WriterInv (flushing es) := by
  have hl : (flushing es).cache.length ≤ Config.cacheBits := by
    show (bitsMsb 0xDEADBEEF 32).length ≤ 64
    decide
  have ht : takenBytes (flushing es) = (pendingBytes (flushing es)).take 1 := rfl
  refine ⟨hl, fun hc => ?_, fun p hp => ?_, [], ?_⟩
  · cases hc
  · cases hp
    simp [h]
  · rw [ht, h]
    rfl

theorem witness_NoBitIsDropped :
    WriterInv (flushing [.engine]) ∧ (∀ e es, (flushing [.engine]).events = e :: es → NoReset e) ∧
      ∃ t, step (flushing [.engine]) = .next t :=
  ⟨writerInv_flushing _ (by decide), fun e es h => by cases h; exact trivial, next_of_look (by decide)⟩

theorem witness_RotationOrderIsStrictTotal :
    RotationBefore [1, 2, 3] 0 1 ∧ RotationBefore [1, 2, 3] 1 2 :=
  ⟨.inl ⟨0, by decide, by decide, 1, 2, rfl, rfl, by decide⟩,
    .inl ⟨0, by decide, by decide, 2, 3, rfl, rfl, by decide⟩⟩

theorem witness_BwtRunSortsRotations :
    (State.reset.a0.toNat < 1) ∧ (100000 * State.reset.blockSize.toNat < (withArgs 900001 0).a0.toNat) ∧
    (1 ≤ banana.length ∧ banana.length ≤ 100000 * (withBlock banana).blockSize.toNat ∧
      (withBlock banana).a0.toNat = banana.length ∧ BlockIs (withBlock banana) banana) ∧
    SortsRotations [7] [0] :=
  ⟨by decide, by decide, ⟨by decide, by decide, by decide, blockIs_withBlock banana⟩, by decide,
    List.pairwise_singleton _ _⟩

/-- The longest block (T12's n = CAP). -/
theorem witness_BwtRunSortsRotations_longest :
    let s := withBlock (List.replicate 900000 0);
    1 ≤ (List.replicate 900000 (0 : Byte)).length ∧
    (List.replicate 900000 (0 : Byte)).length ≤ 100000 * s.blockSize.toNat ∧
    s.a0.toNat = (List.replicate 900000 (0 : Byte)).length ∧ BlockIs s (List.replicate 900000 0) :=
  ⟨by rw [List.length_replicate]; decide, by rw [List.length_replicate]; exact Nat.le_refl _,
    by
      show (BitVec.ofNat 32 (List.replicate 900000 (0 : Byte)).length).toNat = _
      rw [List.length_replicate]
      decide,
    blockIs_withBlock _⟩

theorem witness_OriginIsRankOfRotationZero :
    ConfigOk (withBlock banana) ∧ 1 ≤ banana.length ∧
    banana.length ≤ 100000 * (withBlock banana).blockSize.toNat ∧
    (withBlock banana).a0.toNat = banana.length ∧ BlockIs (withBlock banana) banana :=
  ⟨by unfold ConfigOk; decide, by decide, by decide, by decide, blockIs_withBlock banana⟩

theorem witness_InverseRecoversBlock : banana ≠ [] := by decide

theorem witness_EqualRotationsShareLastByte :
    0 < 1 ∧ 1 < ([5, 5] : List Byte).length ∧
      ∀ k, k < ([5, 5] : List Byte).length → rotElem [5, 5] 0 k = rotElem [5, 5] 1 k := by
  unfold rotElem
  decide

theorem witness_BadAlphabetIsRefused :
    (withArgs 0 1).a1.toNat < 2 ∧ 258 < (withArgs 0 259).a1.toNat ∧ (withArgs 1 0).a0.toNat < 2 ∧
    258 < (withArgs 259 0).a0.toNat ∧
    (2 ≤ (withArgs 2 0).a0.toNat ∧ (withArgs 2 0).a0.toNat ≤ 258) ∧
    (2 ≤ (withArgs 258 0).a0.toNat ∧ (withArgs 258 0).a0.toNat ≤ 258) ∧
    (2 ≤ (withArgs 0 258).a1.toNat ∧ (withArgs 0 258).a1.toNat ≤ 258 ∧ (withArgs 0 258).a0.toNat = 0) := by
  decide

theorem witness_HcountCountsSymbols :
    (withSyms [] 0 1).a1.toNat < 2 ∧ 258 < (withSyms [] 0 259).a1.toNat ∧
    900001 < (withSyms [] 900002 4).a0.toNat ∧ SymbolTooBig (withSyms [0, 4] 2 4) 4 0 2 ∧
    (let s := withSyms [0, 1, 1, 3] 4 4;
      2 ≤ s.a1.toNat ∧ s.a1.toNat ≤ 258 ∧ s.a0.toNat = [0, 1, 1, 3].length ∧
      [0, 1, 1, 3].length ≤ 900001 ∧ SymbolsAre s 0 [0, 1, 1, 3] ∧ ∀ x ∈ [0, 1, 1, 3], x < s.a1.toNat) :=
  ⟨by decide, by decide, by decide,
    ⟨1, by decide, fun j hj => ⟨0, by
      obtain rfl : j = 0 := by omega
      decide⟩, 4, by decide, by decide⟩,
    by decide, by decide, by decide, by decide, symbolsAre_withSyms [0, 1, 1, 3] 4 4, by decide⟩

/-- The empty run with N = 2, and the longest run, of SYM_CAP symbols, with N = 258. -/
theorem witness_HcountCountsSymbols_ends :
    (let s := withSyms [] 0 2;
      2 ≤ s.a1.toNat ∧ s.a1.toNat ≤ 258 ∧ s.a0.toNat = ([] : List Nat).length ∧ SymbolsAre s 0 []) ∧
    (let s := withSyms (List.replicate 900001 257) 900001 258;
      let syms := (List.replicate 900001 (257 : BitVec 9)).map BitVec.toNat;
      2 ≤ s.a1.toNat ∧ s.a1.toNat ≤ 258 ∧ s.a0.toNat = syms.length ∧ syms.length ≤ 900001 ∧
      SymbolsAre s 0 syms ∧ ∀ x ∈ syms, x < s.a1.toNat) :=
  ⟨⟨by decide, by decide, by decide, symbolsAre_withSyms [] 0 2⟩,
    by rw [a1_withSyms]; decide, by rw [a1_withSyms]; decide,
    by rw [a0_withSyms, List.length_map, List.length_replicate]; decide,
    by rw [List.length_map, List.length_replicate], symbolsAre_withSyms (List.replicate 900001 257) 900001 258, by
      intro x hx
      rw [List.map_replicate, List.mem_replicate] at hx
      rw [hx.2, a1_withSyms]
      decide⟩

theorem witness_LengthsAreTreeDepths : 2 ≤ [5, 3].length := by decide

theorem witness_HbuildWritesBook :
    (withArgs 1 0).a0.toNat < 2 ∧ 258 < (withArgs 259 0).a0.toNat ∧
    (let s := withFreqs [3, 1, 1, 1];
      2 ≤ [3, 1, 1, 1].length ∧ [3, 1, 1, 1].length ≤ 258 ∧ s.a0.toNat = [3, 1, 1, 1].length ∧
      FreqsAre s [3, 1, 1, 1] ∧ [1, 3, 3, 2] = huffLengths s.tie [3, 1, 1, 1] ∧
      ∀ l ∈ [1, 3, 3, 2], l ≤ 20) ∧
    (let s := withFreqs fibonacci;
      let freqs := fibonacci.map BitVec.toNat;
      2 ≤ freqs.length ∧ freqs.length ≤ 258 ∧ s.a0.toNat = freqs.length ∧ FreqsAre s freqs ∧
      ∃ l ∈ huffLengths s.tie freqs, 20 < l) :=
  ⟨by decide, by decide,
    ⟨by decide, by decide, by decide, freqsAre_withFreqs [3, 1, 1, 1], by decide, by decide⟩,
    by decide, by decide, by decide, freqsAre_withFreqs fibonacci, by decide⟩

/-- The smallest alphabet. -/
theorem witness_HbuildWritesBook_smallest :
    (withFreqs [5, 3]).a0.toNat = [5, 3].length ∧ FreqsAre (withFreqs [5, 3]) [5, 3] ∧
      ∀ l ∈ huffLengths false [5, 3], l ≤ 20 :=
  ⟨by decide, freqsAre_withFreqs [5, 3], by decide⟩

/-- The largest alphabet; every list of lengths falls under one of the two clauses. -/
theorem witness_HbuildWritesBook_largest :
    let freqs := List.replicate 258 (1 : Word);
    (withFreqs freqs).a0.toNat = (freqs.map BitVec.toNat).length ∧
      FreqsAre (withFreqs freqs) (freqs.map BitVec.toNat) :=
  ⟨by
    show (BitVec.ofNat 32 (List.replicate 258 (1 : Word)).length).toNat = _
    rw [List.length_map, List.length_replicate]
    decide, freqsAre_withFreqs (List.replicate 258 1)⟩

/-- The longest length the cap allows (vector H8). -/
theorem witness_HbuildWritesBook_longest :
    (huffLengths false ((fibonacci.take 21).map BitVec.toNat)).foldl max 0 = 20 := by decide

theorem witness_CanonicalCodesClosedForm : ∀ l ∈ [3, 3, 2, 1], 1 ≤ l := by decide

/-- For the five statements whose hypothesis is a successful HBUILD. -/
theorem witness_Hbuild_done : ∃ t, runCmd .hbuild (withFreqs [3, 1, 1, 1]) = .done t :=
  done_of_isDone (by decide)

theorem witness_BookDependsOnFrequenciesAlone :
    let s := withFreqs [3, 1, 1, 1];
    let u : State := { withFreqs [3, 1, 1, 1] with cache := [true], arg1 := 9 };
    s.a0 = u.a0 ∧ s.tie = u.tie ∧
    (∀ k, k < s.a0.toNat → Mem.read s.freqMem k = Mem.read u.freqMem k) ∧
    ∃ t, runCmd .hbuild s = .done t :=
  ⟨rfl, rfl, fun _ _ => rfl, witness_Hbuild_done⟩

theorem witness_HencSymAppendsCode :
    closed.bwClosed = true ∧ (State.reset.bwClosed = false ∧ State.reset.bookValid = false) ∧
    (let s := withB4 (withCache (bitsMsb 0 32 ++ bitsMsb 1 32));
      s.bwClosed = false ∧ s.bookValid = true ∧ s.bookN.toNat ≤ 4 ∧ 3 < s.bookN.toNat ∧
      s.cache.length ≤ 64 ∧ CodeBits s 3 [true, false]) :=
  ⟨rfl, ⟨rfl, rfl⟩, by decide, by decide, by decide, by decide, by decide, 2, 2, by decide, by decide, by
    unfold BitsOf
    decide⟩

theorem witness_HencRunAppendsCodes :
    closed.bwClosed = true ∧ (State.reset.bwClosed = false ∧ State.reset.bookValid = false) ∧
    (let s := withB4 (withArgs 0xFFFFFFFF 2);
      s.bwClosed = false ∧ s.bookValid = true ∧ 900001 < s.a0.toNat + s.a1.toNat) ∧
    (let s := withB4 (withSyms [0, 7] 0 2);
      s.bwClosed = false ∧ s.bookValid = true ∧ SymbolTooBig s s.bookN.toNat s.a0.toNat s.a1.toNat) ∧
    (let s := withB4 (withSyms [0, 1] 0 2);
      s.bwClosed = false ∧ s.bookValid = true ∧ s.a1.toNat = [0, 1].length ∧
      s.a0.toNat + s.a1.toNat ≤ 900001 ∧ SymbolsAre s s.a0.toNat [0, 1] ∧
      (∀ x ∈ [0, 1], x < s.bookN.toNat) ∧ s.cache.length ≤ 64 ∧
      List.Forall₂ (CodeBits s) [0, 1] [[false], [true, true, false]]) ∧
    (let s := withB4 (withArgs 900001 0);
      s.bwClosed = false ∧ s.bookValid = true ∧ s.a1.toNat = ([] : List Nat).length ∧
      s.a0.toNat + s.a1.toNat ≤ 900001 ∧ SymbolsAre s s.a0.toNat []) :=
  ⟨rfl, ⟨rfl, rfl⟩, by decide,
    ⟨rfl, rfl, 1, by decide, fun j hj => ⟨0, by
      obtain rfl : j = 0 := by omega
      decide⟩, 7, by decide, by decide⟩,
    ⟨rfl, rfl, by decide, by decide, symbolsAre_withSyms [0, 1] 0 2, by decide, by decide,
      .cons ⟨0, 1, by decide, by decide, by unfold BitsOf; decide⟩
        (.cons ⟨6, 3, by decide, by decide, by unfold BitsOf; decide⟩ .nil)⟩,
    rfl, rfl, by decide, by decide, fun _ hk => by cases hk⟩

theorem witness_UnwrittenInputsFault :
    (let s : State := { withBlock [1, 2] with arg0 := 3 };
      1 ≤ s.a0.toNat ∧ s.a0.toNat ≤ 100000 * s.blockSize.toNat ∧ 2 < s.a0.toNat ∧
      Mem.read s.blkMem 2 = none) ∧
    (let s : State := { withFreqs [1, 2] with arg0 := 258 };
      2 ≤ s.a0.toNat ∧ s.a0.toNat ≤ 258 ∧ 257 < s.a0.toNat ∧ Mem.read s.freqMem 257 = none) ∧
    (let s := withSyms [1] 2 2;
      2 ≤ s.a1.toNat ∧ s.a1.toNat ≤ 258 ∧ s.a0.toNat ≤ 900001 ∧
      SymbolUnwritten s s.a1.toNat 0 s.a0.toNat 1) ∧
    (let s := withB4 (withSyms [1] 0 2);
      s.bwClosed = false ∧ s.bookValid = true ∧ s.a0.toNat + s.a1.toNat ≤ 900001 ∧
      SymbolUnwritten s s.bookN.toNat s.a0.toNat s.a1.toNat 1) ∧
    (let s : State := { withB4 State.reset with bookCode := [(0, 0)], bookLen := [] };
      s.bwClosed = false ∧ s.bookValid = true ∧ 1 < s.bookN.toNat ∧ Mem.read s.bookCode 1 = none ∧
      (Mem.read s.bookCode 0).isSome = true ∧ Mem.read s.bookLen 0 = none) :=
  ⟨by decide, by decide,
    ⟨by decide, by decide, by decide, by decide, by decide, by decide, fun j _ hj => ⟨1, by
      obtain rfl : j = 0 := by omega
      decide⟩⟩,
    ⟨rfl, rfl, by decide, by decide, by decide, by decide, fun j _ hj => ⟨1, by
      obtain rfl : j = 0 := by omega
      decide⟩⟩,
    by decide⟩

theorem witness_FailingCommandOnlyCaptures :
    (∃ u, runCmd (.bwBit true) closed = .raised .closedWriter u) ∧
    ∃ u, runCmd .hbuild (withFreqs fibonacci) = .raised .encodingFailed u :=
  ⟨raised_of_raises (by decide), raised_of_raises (by decide)⟩

theorem witness_RaisesAreThoseOfTheTable : ∃ u, runCmd .bwOpen State.reset = .raised .sequence u :=
  raised_of_raises (by decide)

theorem witness_OnlyListedOperationsWriteFlags :
    (∃ t, exec .bwClose State.reset = .next t ∧ t.bwClosed ≠ State.reset.bwClosed) ∧
    (look (·.bookValid) (exec .hbuild (withFreqs [5, 3])) = some true ∧
      (withFreqs [5, 3]).bookValid = false) ∧
    (look (·.bwtValid) (exec .bwtRun (withBlock [7])) = some true ∧ (withBlock [7]).bwtValid = false) ∧
    (targetOf 0x018 ≠ .reg .ctrl ∧
      ∃ t, busAccess (wordAccess 0x018 (.write 1)) State.reset = .next t) :=
  ⟨⟨_, rfl, by decide⟩, by decide, by decide, by decide,
    next_of_look (by decide)⟩

theorem witness_CtrlWriteResetsOrClears :
    ((3 : Word).getLsbD 0 = true) ∧ ((2 : Word).getLsbD 0 = false ∧ (2 : Word).getLsbD 1 = true) ∧
    ((4 : Word).getLsbD 0 = false ∧ (4 : Word).getLsbD 1 = false) := by decide

/-- The first and the last byte of every window and the first one past it. -/
theorem witness_AddressMapIsTheTable :
    (((0x03C : Offset), Reg.bwBytes) ∈ registerMap ∧ targetOf 0x03C = .reg .bwBytes) ∧
    (0x040 ≤ (0x040 : Offset).toNat ∧ (0xFFC : Offset).toNat ≤ 0xFFC ∧ (0xFFC : Offset).toNat % 4 = 0 ∧
      targetOf 0x040 = .reserved ∧ targetOf 0xFFC = .reserved) ∧
    (targetOf 0x1000 = .cell .freqMem 0 ∧ targetOf 0x1404 = .cell .freqMem 257 ∧
      targetOf 0x1408 = .unmapped) ∧
    (targetOf 0x2404 = .cell .bookCode 257 ∧ targetOf 0x2408 = .unmapped) ∧
    (targetOf 0x3404 = .cell .bookLen 257 ∧ targetOf 0x3408 = .unmapped) ∧
    (targetOf 0x3FFFFC = .unmapped ∧ targetOf 0x76EE7C = .cell .blkMem 899999 ∧
      targetOf 0x76EE80 = .unmapped) ∧
    (targetOf 0xB6EE7C = .cell .bwtOut 899999 ∧ targetOf 0xB6EE80 = .unmapped) ∧
    (targetOf 0xF6EE80 = .cell .symMem 900000 ∧ targetOf 0xF6EE84 = .unmapped ∧
      targetOf 0xFFFFFC = .unmapped) :=
  ⟨by decide, by decide, by decide⟩

theorem witness_BusErrorsChangeNothing :
    ((wordAccess 0x002 .read).off.toNat % 4 ≠ 0 ∧ ({ off := 0, lanes := 7, op := .read } : Access).lanes ≠ 15 ∧
      targetOf 0x4000 = .unmapped) ∧
    ((wordAccess 0x018 .read).off.toNat % 4 = 0 ∧ (wordAccess 0x018 .read).lanes = 15 ∧
      targetOf 0x018 ≠ .unmapped ∧ ∃ t, busAccess (wordAccess 0x018 .read) State.reset = .next t) :=
  ⟨by decide, by decide, by decide, by decide, next_of_look (by decide)⟩

theorem witness_HostReadsHaveNoSideEffects :
    (wordAccess 0x018 .read).op = .read ∧ ∃ t, busAccess (wordAccess 0x018 .read) State.reset = .next t :=
  ⟨rfl, next_of_look (by decide)⟩

theorem witness_ElementAccess :
    (let s := withBlock banana;
      (0x400004 : Offset).toNat % 4 = 0 ∧ targetOf 0x400004 = .cell .blkMem 1 ∧ s.busy = false ∧
      s.readCell .blkMem 1 = some 0x61 ∧ writableMem .blkMem = true) ∧
    (State.reset.busy = false ∧ State.reset.readCell .blkMem 0 = none ∧
      targetOf 0x400000 = .cell .blkMem 0) ∧
    (targetOf 0x800000 = .cell .bwtOut 0 ∧ writableMem .bwtOut = false) ∧
    (pending 0 0 0).busy = true := by decide

theorem witness_BusyReads :
    (State.reset.busy = false ∧ (withBlock banana).busy = false ∧ targetOf 0x400004 = .cell .blkMem 1 ∧
      (withBlock banana).readCell .blkMem 1 = some 0x61) ∧
    (pending 0 0 0).busy = true ∧ targetOf 0x040 = .reserved ∧ targetOf 0x00C = .reg .status ∧
    targetOf 0x038 = .reg .bwNbits ∧ targetOf 0x2000 = .cell .bookCode 0 ∧
    (pending 0 0 0).readCell .bookCode 0 = none ∧
    (0x2000 : Offset).toNat % 4 = 0 ∧ (0x038 : Offset).toNat % 4 = 0 := by decide

theorem witness_BusyWritesAreRejected :
    (pending 0 0 0).busy = true ∧ (0x018 : Offset) ∈ [(0x01C : Offset), 0x018, 0x020, 0x024] ∧
    (0x018 : Offset).toNat % 4 = 0 ∧ targetOf 0xC00000 = .cell .symMem 0 ∧
    targetOf 0x008 = .reg .ctrl ∧ targetOf 0x040 = .reserved ∧ targetOf 0x000 = .reg .id ∧
    targetOf 0x3000 = .cell .bookLen 0 := by decide

theorem witness_ReadOnlyWritesAreIgnored :
    State.reset.cache.length ≤ 64 ∧ (ErrCode.sequence, 7) ∈ codeTable ∧
    (0x040 : Offset).toNat % 4 = 0 ∧ targetOf 0x040 = .reserved ∧ targetOf 0x03C = .reg .bwBytes ∧
    (0x03C : Offset).toNat % 4 = 0 ∧ State.reset.busy = false ∧ 1 ≤ (0xFFFFF1F1 : Word).toNat % 16 ∧
    (0xFFFFF1F1 : Word).toNat % 16 ≤ 9 := by decide

theorem witness_IdleRegisterWrites :
    State.reset.busy = false ∧ (1 ≤ (0x101 : Word).toNat % 16 ∧ (0x101 : Word).toNat % 16 ≤ 9) ∧
    (1 ≤ (0x9 : Word).toNat % 16 ∧ (0x9 : Word).toNat % 16 ≤ 9) ∧ (0 : Word).toNat % 16 < 1 ∧
    9 < (0x10A : Word).toNat % 16 ∧ (pending 0 0 0).busy = true := by decide

theorem witness_ResetsLeaveResetState : State.reset.pend = none := rfl

theorem witness_ResetAbortsPendingCommand :
    (let s : State := { withFreqs [5, 3] with pend := some { word := 0x21000000, a0 := 2, a1 := 0 } };
      decode 0x21000000 = .ok .hbuild ∧ ∃ t, runCmd .hbuild s = .done t) ∧
    (let s := pending 0x20000000 0 1;
      decode 0x20000000 = .ok .hcount ∧ ∃ t, runCmd .hcount s = .raised .invalidArgument t) ∧
    (let s := pending 0x10000000 900000 0;
      decode 0x10000000 = .ok .bwtRun ∧ 1 ≤ s.a0.toNat ∧ s.a0.toNat ≤ 100000 * s.blockSize.toNat ∧
      899999 < s.a0.toNat) :=
  ⟨⟨by decide, done_of_isDone (by decide)⟩, ⟨by decide, raised_of_raises (by decide)⟩,
    by decide⟩

theorem witness_LatchedOperandsAreUsed :
    (let s := pending 0x02000003 5 0;
      s.pend = some { word := 0x02000003, a0 := 5, a1 := 0 } ∧ ∃ t, exec (.bwBits 3) s = .next t) ∧
    (let s := pending 0x10000000 1 0;
      s.pend = some { word := 0x10000000, a0 := 1, a1 := 0 } ∧
      exec .bwtRun s = .fault (.uninit .blkMem 0)) :=
  ⟨⟨rfl, next_of_look (by decide)⟩, rfl, fault_of_faultOf (by decide)⟩

theorem witness_AssemblerEmitsLegalWords :
    assemble .close = .ok [.poll, busWrite 0x01C 0x04000000, .poll] ∧
    ((0x018 : Offset) ≠ 0x01C ∧ decode 0x03000000 = .ok .bwFlush) ∧
    writableMem .bwtOut = false ∧ memSize .freqMem ≤ 258 ∧ (Instr.bwBits 64).wellFormed = false :=
  ⟨rfl, by decide, by decide⟩

/-- For the invariant of the writer: idle, and while the sink has part of a command's bytes. -/
theorem witness_WriterStaysWithinCache :
    WriterInv closed ∧ (∃ t, step closed = .next t) ∧ WriterInv (flushing [.sinkTakes 2]) ∧
      ∃ t, step (flushing [.sinkTakes 2]) = .next t :=
  ⟨writerInv_idle rfl (by decide) (fun _ => rfl), next_of_look (by decide), writerInv_flushing _ (by decide),
    next_of_look (by decide)⟩

/-- For the other four invariant statements: a pending HBUILD that succeeds, from a state that meets them. -/
theorem witness_Invariants :
    let s : State := { withFreqs [5, 3] with pend := some { word := 0x21000000, a0 := 2, a1 := 0 } };
    MemoryInv s ∧ ErrorInv s ∧ BwtInv s ∧ BookInv s ∧ ∃ t, step s = .next t :=
  ⟨by unfold MemoryInv ConfigOk; decide,
    ⟨fun _ => ⟨rfl, rfl, rfl⟩, fun h => (by cases h), by decide⟩,
    ⟨by unfold ConfigOk; decide, fun h => (by cases h), fun _ => ⟨rfl, rfl⟩⟩, fun h => (by cases h),
    next_of_look (by decide)⟩

end Sys2Proof.Tests
end

section
/-! PROOFS. Host accesses of one whole aligned word, the words the registers read as (10_state sections 3 to 6),
and the writes that have no effect (10_state R23). -/

namespace Sys2Proof.Proofs

open Sys2Proof.Machine Sys2Proof.Safety Sys2Proof.Laws

/-! ### One whole aligned word (20_memory R55, R56) -/

theorem badForm_wordAccess {off : Offset} (h : off.toNat % 4 = 0) (op : BusOp) :
    badForm (wordAccess off op) = false := by
  simp [badForm, wordAccess, h]

theorem busAccess_wordAccess_read {off : Offset} (h : off.toNat % 4 = 0) (s : State) :
    busAccess (wordAccess off .read) s = hostRead (targetOf off) s := by
  rw [busAccess, badForm_wordAccess h]
  rfl

theorem busAccess_wordAccess_write {off : Offset} (h : off.toNat % 4 = 0) (d : Word) (s : State) :
    busAccess (wordAccess off (.write d)) s = .next (hostWrite (targetOf off) off d s) := by
  rw [busAccess, badForm_wordAccess h]
  rfl

/-! ### The words of STATUS, ERRCODE and CFG, bit by bit -/

theorem busy_iff (s : State) : s.busy = true ↔ s.pend ≠ none := by
  simp [State.busy, Option.isSome_iff_ne_none]

/-- The layout of STATUS: five flags, the last of them in bit 0. -/
def fiveFlags (f4 f3 f2 f1 f0 : Bool) : Word :=
  0#27 ++ BitVec.ofBool f4 ++ BitVec.ofBool f3 ++ BitVec.ofBool f2 ++ BitVec.ofBool f1 ++ BitVec.ofBool f0

theorem statusWord_eq (s : State) :
    s.statusWord = fiveFlags s.bwtValid s.bookValid s.bwClosed s.err s.busy := rfl

theorem fiveFlags_bits (f4 f3 f2 f1 f0 : Bool) :
    let w := fiveFlags f4 f3 f2 f1 f0
    w.getLsbD 0 = f0 ∧ w.getLsbD 1 = f1 ∧ w.getLsbD 2 = f2 ∧ w.getLsbD 3 = f3 ∧ w.getLsbD 4 = f4 := by
  revert f4 f3 f2 f1 f0
  decide

theorem fiveFlags_reserved (f4 f3 f2 f1 f0 : Bool) : fiveFlags f4 f3 f2 f1 f0 &&& 0xFFFFFFE0 = 0 := by
  revert f4 f3 f2 f1 f0
  decide

/-- ERRCODE and CFG have one layout: a flag in bit 8 over a field in bits [3:0]. -/
def flagAndField (flag : Bool) (field : BitVec 4) : Word := 0#23 ++ BitVec.ofBool flag ++ 0#4 ++ field

theorem errCodeWord_eq (s : State) : s.errCodeWord = flagAndField s.errSrc s.errCode.number := rfl

theorem cfgWord_eq (s : State) : s.cfgWord = flagAndField s.tie s.blockSize := rfl

theorem flagAndField_flag (flag : Bool) (field : BitVec 4) :
    (flagAndField flag field).getLsbD 8 = flag := by
  revert flag field
  decide

theorem flagAndField_toNat_mod (flag : Bool) (field : BitVec 4) :
    (flagAndField flag field).toNat % 16 = field.toNat := by
  have h : (flagAndField flag field).toNat =
      (0#23 ++ BitVec.ofBool flag ++ 0#4).toNat * 2 ^ 4 + field.toNat := toNat_append _ field
  omega

theorem flagAndField_reserved (flag : Bool) (field : BitVec 4) :
    flagAndField flag field &&& 0xFFFFFEF0 = 0 := by
  revert flag field
  decide

theorem number_of_mem_codeTable {c : ErrCode × Nat} (h : c ∈ codeTable) :
    c.1.number.toNat = c.2 := by
  revert c
  decide

theorem nbitsWord_toNat {s : State} (h : s.cache.length ≤ 64) : s.nbitsWord.toNat = s.cache.length := by
  rw [State.nbitsWord, BitVec.toNat_ofNat]
  omega

/-! ### Writes without effect (10_state R23) -/

theorem regWrite_readOnly {r : Reg} (h : r ∉ [Reg.ctrl, .cmd, .cfg, .arg0, .arg1]) (off : Offset) (d : Word)
    (s : State) : regWrite r off d s = s := by
  cases r <;> simp [regWrite] at h ⊢

/-- CTRL looks at bits 0 and 1 of the word written (40_control R95). -/
theorem ctrlWrite_congr {d d' : Word} (h0 : d.getLsbD 0 = d'.getLsbD 0) (h1 : d.getLsbD 1 = d'.getLsbD 1)
    (s : State) : ctrlWrite d s = ctrlWrite d' s := by
  simp only [ctrlWrite, h0, h1]

/-- An accepted CFG write (40_control R99). -/
theorem cfgWrite_accepted {s : State} {d : Word} (hb : s.busy = false) (h1 : 1 ≤ d.toNat % 16)
    (h9 : d.toNat % 16 ≤ 9) (off : Offset) :
    cfgWrite off d s = { s with blockSize := d.extractLsb' 0 4, tie := d.getLsbD 8 } := by
  have hsize : (d.extractLsb' 0 4).toNat = d.toNat % 16 := by simp
  have hok : ¬ ((d.extractLsb' 0 4).toNat < 1 ∨ 9 < (d.extractLsb' 0 4).toNat) := by omega
  simp only [cfgWrite, hb, Bool.false_eq_true, if_false, if_neg hok]

theorem extractLsb'_and_cfgMask (d : Word) : (d &&& 0x10F).extractLsb' 0 4 = d.extractLsb' 0 4 := by
  rw [BitVec.extractLsb'_and, show (0x10F : Word).extractLsb' 0 4 = BitVec.allOnes 4 by decide,
    BitVec.and_allOnes]

theorem toNat_and_cfgMask_mod (d : Word) : (d &&& 0x10F).toNat % 16 = d.toNat % 16 := by
  simpa using congrArg BitVec.toNat (extractLsb'_and_cfgMask d)

theorem cfgWrite_and_cfgMask {s : State} {d : Word} (hb : s.busy = false) (h1 : 1 ≤ d.toNat % 16)
    (h9 : d.toNat % 16 ≤ 9) (off : Offset) : cfgWrite off d s = cfgWrite off (d &&& 0x10F) s := by
  have hmod := toNat_and_cfgMask_mod d
  rw [cfgWrite_accepted hb h1 h9, cfgWrite_accepted hb (hmod ▸ h1) (hmod ▸ h9), extractLsb'_and_cfgMask]
  simp

/-- Settles O49: the registers' words from their layouts, and the ignored writes from what each write looks at. -/
theorem readOnlyWritesAreIgnored : Obligations.ReadOnlyWritesAreIgnored := by
  refine ⟨fun s => ?reads, fun s off d hoff hro => ?ignored, fun s off hoff hres => ?reserved,
    fun s => ?fields, fun s off d => ⟨?ctrl, fun hb h1 h9 => cfgWrite_and_cfgMask hb h1 h9 off⟩⟩
  case reads =>
    refine ⟨busy_iff s, ?status, ⟨?src, fun c hc hcode => ?code⟩, ⟨?tie, ?blockSize⟩,
      nbitsWord_toNat, rfl, rfl, rfl, rfl, rfl, rfl, rfl, rfl, rfl,
      BitVec.toNat_setWidth_of_le (by decide), BitVec.toNat_setWidth_of_le (by decide), rfl⟩
    case status => exact fiveFlags_bits _ _ _ _ _
    case src => exact flagAndField_flag _ _
    case code =>
      rw [State.readReg, errCodeWord_eq, flagAndField_toNat_mod, hcode,
        number_of_mem_codeTable hc]
    case tie => exact flagAndField_flag _ _
    case blockSize => exact flagAndField_toNat_mod _ _
  case ignored =>
    rw [busAccess_wordAccess_write hoff]
    obtain hres | ⟨r, hr, hmem⟩ := hro
    · rw [hres]
      rfl
    · have hr' : r ∉ [Reg.ctrl, .cmd, .cfg, .arg0, .arg1] := by
        clear hr
        revert r
        decide
      rw [hr, hostWrite, regWrite_readOnly hr']
  case reserved =>
    rw [busAccess_wordAccess_read hoff, hres]
    rfl
  case fields =>
    rw [State.readReg, State.readReg, State.readReg, cfgWord_eq, statusWord_eq,
      errCodeWord_eq]
    exact ⟨flagAndField_reserved _ _, fiveFlags_reserved _ _ _ _ _, flagAndField_reserved _ _⟩
  case ctrl =>
    exact ctrlWrite_congr (by simp) (by simp) s

end Sys2Proof.Proofs
end

section
/-! PROOFS. The address map (20_memory R54), bus errors (R57), and the host's reads and writes of memory elements
(R55, 10_state R49, 70_reset R178). -/

namespace Sys2Proof.Proofs

open Sys2Proof.Machine Sys2Proof.Safety Sys2Proof.Laws

/-! ### The register block (10_state R22) -/

theorem lt_of_regAt {o : Nat} {r : Reg} (h : regAt o = some r) : o < 0x040 := by
  unfold regAt at h
  split at h <;> simp at h ⊢

theorem targetOf_of_regAt_some {off : Offset} {r : Reg} (h : regAt off.toNat = some r) :
    targetOf off = .reg r := by
  have hlow : off.toNat < 0x1000 := Nat.lt_trans (lt_of_regAt h) (by decide)
  simp [targetOf, hlow, h]

theorem targetOf_of_regAt_none {off : Offset} (hlow : off.toNat < 0x1000) (h : regAt off.toNat = none) :
    targetOf off = .reserved := by
  simp [targetOf, hlow, h]

/-! ### The windows of the memories (20_memory R54) -/

theorem inWindow_iff {o : Nat} {m : MemId} :
    inWindow o m = true ↔ windowBase m ≤ o ∧ o < windowBase m + 4 * memSize m := by
  simp [inWindow]

theorem windowBase_ge (m : MemId) : 0x1000 ≤ windowBase m := by
  cases m <;> decide

/-- Two windows do not overlap: of two memories, one's window ends before the other's begins. -/
theorem windows_apart {m n : MemId} (h : m ≠ n) :
    windowBase m + 4 * memSize m ≤ windowBase n ∨ windowBase n + 4 * memSize n ≤ windowBase m := by
  revert h
  cases m <;> cases n <;> decide

theorem inWindow_unique {o : Nat} {m n : MemId} (hm : inWindow o m = true) (hn : inWindow o n = true) :
    m = n := by
  by_contra hne
  have hapart := windows_apart hne
  rw [inWindow_iff] at hm hn
  omega

theorem mem_windowOrder (m : MemId) :
    m ∈ [MemId.freqMem, .bookCode, .bookLen, .blkMem, .bwtOut, .symMem] := by
  cases m <;> decide

/-- Inside a window an offset is the element of that memory, and its index is below the memory's size. -/
theorem targetOf_inWindow {off : Offset} {m : MemId} (h : inWindow off.toNat m = true) :
    targetOf off = .cell m ((off.toNat - windowBase m) / 4) ∧
      (off.toNat - windowBase m) / 4 < memSize m := by
  have hrange := inWindow_iff.1 h
  have hbase := windowBase_ge m
  have hhigh : ¬ off.toNat < 0x1000 := by omega
  refine ⟨?target, by omega⟩
  simp only [targetOf, if_neg hhigh]
  split
  next n hn => rw [inWindow_unique (List.find?_some hn) h]
  next hnone => exact absurd h (List.find?_eq_none.1 hnone m (mem_windowOrder m))

theorem targetOf_inNoWindow {off : Offset} (hhigh : 0x1000 ≤ off.toNat)
    (h : ∀ m, ¬ inWindow off.toNat m = true) : targetOf off = .unmapped := by
  simp only [targetOf, if_neg (Nat.not_lt.2 hhigh), List.find?_eq_none.2 fun m _ => h m]

/-- Settles O43: the registers from their table, the windows as no two overlap, the gaps as no window meets them. -/
theorem addressMapIsTheTable : Obligations.AddressMapIsTheTable := by
  refine ⟨by decide, fun off h40 hFFC _ => ?reserved, fun off => ?regions⟩
  case reserved =>
    cases hr : regAt off.toNat with
    | some r => exact absurd (lt_of_regAt hr) (Nat.not_lt.2 h40)
    | none => exact targetOf_of_regAt_none (by omega) hr
  case regions =>
    refine ⟨fun hlow => ?block, fun h => ?_, fun h => ?_, fun h => ?_, fun h => ?_, fun h => ?_, fun h => ?_,
      fun hgap => ?unmapped, fun m => ?writable⟩
    case block =>
      cases hr : regAt off.toNat with
      | some r => exact .inl ⟨r, targetOf_of_regAt_some hr⟩
      | none => exact .inr (targetOf_of_regAt_none (by omega) hr)
    case unmapped =>
      refine targetOf_inNoWindow (by omega) fun m => ?_
      rw [inWindow_iff]
      cases m <;> simp only [windowBase, memSize, Config.maxBlock, Config.symCap, Config.maxAlphabet] <;> omega
    case writable => cases m <;> decide
    all_goals exact targetOf_inWindow (inWindow_iff.2 ⟨h.1, Nat.lt_succ_of_le h.2⟩)

/-! ### What a bus response and a capture leave unchanged (20_memory R57, 60_exceptions R152) -/

/-- The six memories decide what every element reads as. -/
theorem sameMemories_of_eq {s t : State} (hblk : t.blkMem = s.blkMem) (hbwt : t.bwtOut = s.bwtOut)
    (hsym : t.symMem = s.symMem) (hfreq : t.freqMem = s.freqMem) (hcode : t.bookCode = s.bookCode)
    (hlen : t.bookLen = s.bookLen) : SameMemories s t := by
  intro m i
  cases m <;> simp only [State.readCell, hblk, hbwt, hsym, hfreq, hcode, hlen]

theorem sameBlock_reply (s : State) (r : Reply) : SameBlock s { s with reply := r } :=
  ⟨⟨sameMemories_of_eq rfl rfl rfl rfl rfl rfl, ⟨rfl, rfl, rfl, rfl⟩, ⟨rfl, rfl, rfl, rfl⟩, ⟨rfl, rfl, rfl⟩,
    ⟨rfl, rfl, rfl⟩, rfl⟩, ⟨rfl, rfl, rfl, rfl⟩⟩

theorem captured_capture (code : ErrCode) (src : Bool) (info : Word) (s : State) :
    Captured code src info s (capture code src info s) :=
  ⟨capture_err code src info s, fun h => by simp [capture_first h], fun h => by simp [capture_later h]⟩

theorem sameBlockButErrors_capture (code : ErrCode) (src : Bool) (info : Word) (s : State) :
    SameBlockButErrors s (capture code src info s) :=
  ⟨sameMemories_of_eq (by simp) (by simp) (by simp) (by simp) (by simp) (by simp), by simp [SameWriter],
    by simp [SameOperands], by simp [SameBwtResult], by simp [SameBookRegs], by simp [SamePending]⟩

/-! ### Bus errors (20_memory R57) -/

theorem badForm_iff {a : Access} : badForm a = true ↔ a.off.toNat % 4 ≠ 0 ∨ a.lanes ≠ 15 := by
  simp [badForm]

theorem busAccess_badForm {a : Access} (h : badForm a = true) (s : State) :
    busAccess a s = .next { s with reply := .busError } := by
  simp [busAccess, h]

theorem busAccess_unmapped {a : Access} (h : targetOf a.off = .unmapped) (s : State) :
    busAccess a s = .next { s with reply := .busError } := by
  by_cases hbad : badForm a = true
  · exact busAccess_badForm hbad s
  · rw [busAccess, if_neg hbad, h]
    cases a.op <;> rfl

/-- A read of a mapped offset that does not fault returns data. -/
theorem hostRead_reply {g : Target} {s t : State} (hg : g ≠ .unmapped) (h : hostRead g s = .next t) :
    ∃ v, t.reply = .data v := by
  cases g with
  | unmapped => exact absurd rfl hg
  | reserved =>
    cases h
    exact ⟨_, rfl⟩
  | reg r =>
    rw [hostRead] at h
    split at h <;> cases h <;> exact ⟨_, rfl⟩
  | cell m i =>
    rw [hostRead] at h
    split at h
    · cases h
      exact ⟨_, rfl⟩
    · split at h <;> cases h
      exact ⟨_, rfl⟩

/-- A write to a mapped offset is answered, even where it is ignored or rejected. -/
theorem hostWrite_reply {g : Target} (hg : g ≠ .unmapped) (off : Offset) (d : Word) (s : State) :
    (hostWrite g off d s).reply = .done := by
  cases g with
  | unmapped => exact absurd rfl hg
  | reserved => rfl
  | reg r => rfl
  | cell m i => rfl

/-- Settles O44: each bad access only sets the response, and every mapped, well-formed one has another response. -/
theorem busErrorsChangeNothing : Obligations.BusErrorsChangeNothing := by
  refine ⟨fun s a hbad => ?bad, fun s t a hoff hlanes hmapped h => ?good⟩
  case bad =>
    have hacc : busAccess a s = .next { s with reply := .busError } := by
      obtain hoff | hlanes | hunmapped := hbad
      · exact busAccess_badForm (badForm_iff.2 (.inl hoff)) s
      · exact busAccess_badForm (badForm_iff.2 (.inr hlanes)) s
      · exact busAccess_unmapped hunmapped s
    exact ⟨_, hacc, rfl, sameBlock_reply s .busError, rfl, rfl, rfl⟩
  case good =>
    have hform : a = wordAccess a.off a.op := by rw [wordAccess, ← hlanes]
    rw [hform] at h
    cases hop : a.op with
    | read =>
      rw [hop, busAccess_wordAccess_read hoff] at h
      obtain ⟨v, hv⟩ := hostRead_reply hmapped h
      simp [hv]
    | write d =>
      rw [hop, busAccess_wordAccess_write hoff] at h
      cases h
      simp [hostWrite_reply hmapped]

/-! ### Elements (20_memory R55) -/

theorem hostRead_written {s : State} {m : MemId} {i : Nat} {v : Word} (hidle : s.busy = false)
    (h : s.readCell m i = some v) : hostRead (.cell m i) s = .next { s with reply := .data v } := by
  simp [hostRead, hidle, h]

theorem hostRead_unwritten {s : State} {m : MemId} {i : Nat} (hidle : s.busy = false)
    (h : s.readCell m i = none) : hostRead (.cell m i) s = .fault (.uninit m i) := by
  simp [hostRead, hidle, h]

theorem cellWrite_idle {s : State} {m : MemId} (hidle : s.busy = false) (hm : writableMem m = true) (i : Nat)
    (off : Offset) (d : Word) : cellWrite m i off d s = s.writeCell m i d := by
  simp [cellWrite, hidle, hm]

theorem cellWrite_readOnly {m : MemId} (hm : writableMem m = false) (i : Nat) (off : Offset) (d : Word)
    (s : State) : cellWrite m i off d s = s := by
  simp [cellWrite, hm]

theorem cellWrite_busy {s : State} {m : MemId} (hbusy : s.busy = true) (hm : writableMem m = true) (i : Nat)
    (off : Offset) (d : Word) : cellWrite m i off d s = capture .busy true (off.setWidth 32) s := by
  simp [cellWrite, rejectBusy, hbusy, hm]

/-- A write to an element touches the three writable memories at most. -/
theorem writeCell_frame (s : State) (m : MemId) (i : Nat) (d : Word) :
    s.writeCell m i d =
      { s with
        blkMem := (s.writeCell m i d).blkMem
        symMem := (s.writeCell m i d).symMem
        freqMem := (s.writeCell m i d).freqMem } := by
  cases m <;> rfl

/-- Storing the low `w` bits and reading them zero-extended. -/
theorem setWidth_setWidth_eq_ofNat_mod (d : Word) (w : Nat) :
    (d.setWidth w).setWidth 32 = BitVec.ofNat 32 (d.toNat % 2 ^ w) :=
  BitVec.eq_of_toNat_eq (by simp)

theorem readCell_writeCell_same {m : MemId} (hm : writableMem m = true) (s : State) (i : Nat) (d : Word) :
    (s.writeCell m i d).readCell m i = some (BitVec.ofNat 32 (d.toNat % 2 ^ elementWidth m)) := by
  cases m with
  | blkMem => simp [State.writeCell, State.readCell, elementWidth, setWidth_setWidth_eq_ofNat_mod]
  | symMem => simp [State.writeCell, State.readCell, elementWidth, setWidth_setWidth_eq_ofNat_mod]
  | freqMem =>
    simpa [State.writeCell, State.readCell, elementWidth] using setWidth_setWidth_eq_ofNat_mod d 32
  | bwtOut => cases hm
  | bookCode => cases hm
  | bookLen => cases hm

theorem readCell_writeCell_otherMem {m n : MemId} (h : n ≠ m) (s : State) (i j : Nat) (d : Word) :
    (s.writeCell m i d).readCell n j = s.readCell n j := by
  cases m <;> cases n <;> simp [State.writeCell, State.readCell] at h ⊢

theorem readCell_writeCell_otherIndex {i j : Nat} (h : j ≠ i) (s : State) (m : MemId) (d : Word) :
    (s.writeCell m i d).readCell m j = s.readCell m j := by
  cases m <;> simp [State.writeCell, State.readCell, read_write_other _ _ h]

theorem readCell_writeCell_other {m n : MemId} {i j : Nat} (h : (n, j) ≠ (m, i)) (s : State) (d : Word) :
    (s.writeCell m i d).readCell n j = s.readCell n j := by
  by_cases hn : n = m
  · subst hn
    exact readCell_writeCell_otherIndex (fun hj => h (by rw [hj])) s n d
  · exact readCell_writeCell_otherMem hn s i j d

/-- Settles O46: a read answers the element or faults, a write stores one element, is ignored, or is captured. -/
theorem elementAccess : Obligations.ElementAccess := by
  intro s off m i d hoff ht
  rw [busAccess_wordAccess_read hoff, busAccess_wordAccess_write hoff, ht, hostWrite]
  refine ⟨fun hidle v hv => hostRead_written hidle hv, fun hidle hnone => hostRead_unwritten hidle hnone,
    fun hidle hm => ?stored, fun hm => ?ignored, fun hbusy hm => ?rejected⟩
  case stored =>
    rw [cellWrite_idle hidle hm]
    refine ⟨_, rfl, rfl, readCell_writeCell_same hm s i d, fun n j hne => readCell_writeCell_other hne s d, ?_⟩
    rw [writeCell_frame]
    exact ⟨⟨rfl, rfl, rfl, rfl⟩, ⟨rfl, rfl, rfl, rfl⟩, ⟨rfl, rfl, rfl, rfl⟩, ⟨rfl, rfl, rfl⟩, ⟨rfl, rfl, rfl⟩, rfl,
      rfl, rfl, rfl⟩
  case ignored => rw [cellWrite_readOnly hm]
  case rejected =>
    rw [cellWrite_busy hbusy hm]
    exact ⟨_, rfl, captured_capture .busy true _ s, sameBlockButErrors_capture .busy true _ s⟩

end Sys2Proof.Proofs
end

section
/-! PROOFS. The decoder by fields: opcode, must-be-zero bits and immediate (30_encoding R80 to R83), what it has to
do with the rows of the opcode map (R85), and the engine's turn on an illegal word (R87, 40_control R97). -/

namespace Sys2Proof.Proofs

open Sys2Proof.Machine Sys2Proof.Safety Sys2Proof.Laws

/-! ### The fields of a command's word (30_encoding R80, R81) -/

/-- OPC of a command's word (30_encoding R85). -/
def opcodeNumber : Instr → Nat
  | .nop => 0x00
  | .bwBit _ => 0x01
  | .bwBits _ => 0x02
  | .bwFlush => 0x03
  | .bwClose => 0x04
  | .bwOpen => 0x05
  | .bwtRun => 0x10
  | .hcount => 0x20
  | .hbuild => 0x21
  | .hencSym _ => 0x22
  | .hencRun => 0x23

/-- How many low bits of a command's word are its immediate: one in format B, six in C, nine in S, none in N
(30_encoding R81). -/
def immediateBits : Instr → Nat
  | .bwBit _ => 1
  | .bwBits _ => 6
  | .hencSym _ => 9
  | .nop | .bwFlush | .bwClose | .bwOpen | .bwtRun | .hcount | .hbuild | .hencRun => 0

/-- The operand bits of a word that a command's format wants zero (30_encoding R81). -/
def mustBeZero (i : Instr) (w : Word) : BitVec (24 - immediateBits i) :=
  w.extractLsb' (immediateBits i) (24 - immediateBits i)

theorem immediateBits_le (i : Instr) : immediateBits i ≤ 24 := by
  cases i <;> simp [immediateBits]

theorem opcodeNumber_lt (i : Instr) : opcodeNumber i < 256 := by
  cases i <;> simp [opcodeNumber]

theorem mustBeZero_eq_zero_iff (i : Instr) (w : Word) :
    mustBeZero i w = 0 ↔ w.toNat / 2 ^ immediateBits i % 2 ^ (24 - immediateBits i) = 0 :=
  extract_eq_zero_iff w _ _

/-! ### What `decode` does (30_encoding R86) -/

/-- A word with a command's opcode and immediate is that command, if its must-be-zero bits are 0 (R83). -/
theorem decode_of_opcode {w : Word} {i : Instr} (hopc : (opcodeOf w).toNat = opcodeNumber i)
    (himm : ImmediateIs w i) : decode w = checkReserved (opcodeOf w) (mustBeZero i w) i := by
  simp only [decode, hopc]
  cases i with
  | bwBit b =>
    rw [show b = w.getLsbD 0 from himm]
    rfl
  | bwBits count =>
    rw [show count = (w.extractLsb' 0 6).toNat by simpa [ImmediateIs] using himm]
    rfl
  | hencSym sym =>
    rw [show sym = (w.extractLsb' 0 9).toNat by simpa [ImmediateIs] using himm]
    rfl
  | _ => rfl

/-- Every word has a command's opcode, and gives that command its immediate, or is refused for its opcode (R87). -/
theorem decode_cases (w : Word) :
    (∃ i, (opcodeOf w).toNat = opcodeNumber i ∧ ImmediateIs w i) ∨
      ReservedOpcode w ∧ decode w = .error (.reservedOpcode (opcodeOf w)) := by
  unfold decode
  dsimp only
  split
  next h => exact .inl ⟨.nop, h, trivial⟩
  next h => exact .inl ⟨.bwBit _, h, rfl⟩
  next h => exact .inl ⟨.bwBits _, h, rfl⟩
  next h => exact .inl ⟨.bwFlush, h, trivial⟩
  next h => exact .inl ⟨.bwClose, h, trivial⟩
  next h => exact .inl ⟨.bwOpen, h, trivial⟩
  next h => exact .inl ⟨.bwtRun, h, trivial⟩
  next h => exact .inl ⟨.hcount, h, trivial⟩
  next h => exact .inl ⟨.hbuild, h, trivial⟩
  next h => exact .inl ⟨.hencSym _, h, rfl⟩
  next h => exact .inl ⟨.hencRun, h, trivial⟩
  next =>
    refine .inr ⟨?_, rfl⟩
    have hlt := (opcodeOf w).isLt
    simp only [ReservedOpcode, ← opcodeOf_toNat, imp_false] at *
    omega

/-- A word decodes to a command exactly when it has its opcode, its immediate and zeros in between. -/
theorem decode_ok_iff {w : Word} {i : Instr} :
    decode w = .ok i ↔
      (opcodeOf w).toNat = opcodeNumber i ∧ mustBeZero i w = 0 ∧ ImmediateIs w i := by
  constructor
  · intro h
    obtain ⟨j, hopc, himm⟩ | ⟨-, herr⟩ := decode_cases w
    · rw [decode_of_opcode hopc himm, checkReserved_ok_iff] at h
      obtain ⟨hzero, rfl⟩ := h
      exact ⟨hopc, hzero, himm⟩
    · rw [herr] at h
      cases h
  · rintro ⟨hopc, hzero, himm⟩
    rw [decode_of_opcode hopc himm, checkReserved_ok_iff]
    exact ⟨hzero, rfl⟩

/-! ### The rows of the opcode map (30_encoding R85) -/

/-- The row of a command: its opcode over zeros, and a mask of all bits above the immediate. -/
def rowOf (i : Instr) : OpRow :=
  ⟨mnemonicOf i, BitVec.ofNat 32 (opcodeNumber i * 2 ^ 24), BitVec.allOnes 32 <<< immediateBits i⟩

/-- The opcode map lists the rows of the eleven commands; a row does not depend on the immediate. -/
theorem opcodeMap_eq_rows :
    opcodeMap = [.nop, .bwBit false, .bwBits 0, .bwFlush, .bwClose, .bwOpen, .bwtRun, .hcount, .hbuild,
      .hencSym 0, .hencRun].map rowOf := by
  decide +kernel

theorem rowOf_mem_opcodeMap (i : Instr) : rowOf i ∈ opcodeMap := by
  rw [opcodeMap_eq_rows]
  cases i with
  | bwBit b => exact List.mem_map.2 ⟨.bwBit false, by simp, rfl⟩
  | bwBits count => exact List.mem_map.2 ⟨.bwBits 0, by simp, rfl⟩
  | hencSym sym => exact List.mem_map.2 ⟨.hencSym 0, by simp, rfl⟩
  | _ => exact List.mem_map_of_mem (by simp)

/-- A mnemonic names one row. -/
theorem row_eq_of_mnemonic_eq : ∀ r ∈ opcodeMap, ∀ q ∈ opcodeMap, r.mnemonic = q.mnemonic → r = q := by
  decide

/-- Two rows whose patterns agree where both masks look are one row. -/
theorem row_eq_of_patterns_agree :
    ∀ r ∈ opcodeMap, ∀ q ∈ opcodeMap, r.pattern &&& q.mask = q.pattern &&& r.mask → r = q := by
  decide +kernel

/-- At most one row selects a word: both rows' patterns are that word under their masks. -/
theorem selects_unique {w : Word} {r q : OpRow} (hr : r ∈ opcodeMap) (hq : q ∈ opcodeMap)
    (hrw : r.selects w) (hqw : q.selects w) : r = q := by
  refine row_eq_of_patterns_agree r hr q hq ?_
  rw [← hrw, ← hqw, BitVec.and_assoc, BitVec.and_assoc, BitVec.and_comm r.mask]

/-- A row of a command's mnemonic selects a word exactly when the command's own row does. -/
theorem exists_row_selects_iff {w : Word} {i : Instr} :
    (∃ r ∈ opcodeMap, r.mnemonic = mnemonicOf i ∧ r.selects w) ↔ (rowOf i).selects w := by
  constructor
  · rintro ⟨r, hr, hname, hsel⟩
    rwa [row_eq_of_mnemonic_eq r hr _ (rowOf_mem_opcodeMap i) hname] at hsel
  · exact fun h => ⟨_, rowOf_mem_opcodeMap i, rfl, h⟩

/-- With its low `k` bits masked off a word is an opcode over zeros exactly when its opcode is that one and the
operand bits from `k` up are zero. -/
theorem masked_eq_opcode_iff {k : Nat} (hk : k ≤ 24) (n c : Nat) :
    n / 2 ^ k * 2 ^ k = c * 2 ^ 24 ↔ n / 2 ^ 24 = c ∧ n / 2 ^ k % 2 ^ (24 - k) = 0 := by
  have hpow : 2 ^ 24 = 2 ^ k * 2 ^ (24 - k) := by rw [← Nat.pow_add, Nat.add_sub_cancel' hk]
  have hd : 0 < 2 ^ (24 - k) := Nat.two_pow_pos _
  rw [hpow, ← Nat.div_div_eq_div_mul, Nat.mul_comm (2 ^ k), ← Nat.mul_assoc,
    Nat.mul_left_inj (Nat.two_pow_pos k).ne']
  generalize n / 2 ^ k = m
  constructor
  · rintro rfl
    exact ⟨Nat.mul_div_cancel c hd, Nat.mul_mod_left c _⟩
  · rintro ⟨rfl, hm⟩
    exact (Nat.div_mul_cancel (Nat.dvd_of_mod_eq_zero hm)).symm

/-- Masking off the low `k` bits. -/
theorem and_allOnes_shiftLeft_toNat (w : Word) (k : Nat) :
    (w &&& BitVec.allOnes 32 <<< k).toNat = w.toNat / 2 ^ k * 2 ^ k := by
  have hle := Nat.div_mul_le_self w.toNat (2 ^ k)
  rw [← BitVec.shiftLeft_ushiftRight, BitVec.toNat_shiftLeft, BitVec.toNat_ushiftRight,
    Nat.shiftRight_eq_div_pow, Nat.shiftLeft_eq, Nat.mod_eq_of_lt (Nat.lt_of_le_of_lt hle w.isLt)]

/-- A command's row looks at its opcode and its must-be-zero bits, and at nothing else. -/
theorem rowOf_selects_iff {w : Word} {i : Instr} :
    (rowOf i).selects w ↔ (opcodeOf w).toNat = opcodeNumber i ∧ mustBeZero i w = 0 := by
  have hlt := opcodeNumber_lt i
  have hpat : (BitVec.ofNat 32 (opcodeNumber i * 2 ^ 24)).toNat = opcodeNumber i * 2 ^ 24 := by
    rw [BitVec.toNat_ofNat, Nat.mod_eq_of_lt (by omega)]
  rw [OpRow.selects, rowOf, ← BitVec.toNat_inj, and_allOnes_shiftLeft_toNat, hpat, opcodeOf_toNat,
    mustBeZero_eq_zero_iff]
  exact masked_eq_opcode_iff (immediateBits_le i) _ _

/-- Settles O3: rows exclude each other by their patterns, and a row looks at what `decode` looks at. -/
theorem decodeFollowsOpcodeMap : Obligations.DecodeFollowsOpcodeMap := by
  refine ⟨fun w r hr q hq hrw hqw => selects_unique hr hq hrw hqw, fun w i => ?_⟩
  rw [exists_row_selects_iff, rowOf_selects_iff, decode_ok_iff, and_assoc]

/-! ### Illegal words (30_encoding R83, R87) -/

theorem not_reservedOpcode {w : Word} {i : Instr} (h : (opcodeOf w).toNat = opcodeNumber i) :
    ¬ ReservedOpcode w := by
  rw [opcodeOf_toNat] at h
  rw [ReservedOpcode, h]
  cases i <;> simp [opcodeNumber]

/-- The reserved operand bits of a command's opcode are those its format wants zero. -/
theorem reservedBitSet_iff {w : Word} {i : Instr} (h : (opcodeOf w).toNat = opcodeNumber i) :
    ReservedBitSet w ↔ mustBeZero i w ≠ 0 := by
  rw [opcodeOf_toNat] at h
  rw [ne_eq, mustBeZero_eq_zero_iff, ReservedBitSet, h]
  cases i <;> simp [opcodeNumber, immediateBits] <;> omega

theorem decode_error_iff (w : Word) :
    (∃ e, decode w = .error e) ↔ ReservedOpcode w ∨ ReservedBitSet w := by
  obtain ⟨i, hopc, himm⟩ | ⟨hres, herr⟩ := decode_cases w
  · rw [decode_of_opcode hopc himm, reservedBitSet_iff hopc, or_iff_right (not_reservedOpcode hopc)]
    simp [checkReserved_error_iff]
  · exact ⟨fun _ => .inl hres, fun _ => ⟨_, herr⟩⟩

/-! ### The engine's turn on a word that emits nothing (40_control R97) -/

/-- An effect that appends nothing to the sink is not delayed, and bytes accepted before play no part. -/
theorem finishTurn_sameSink {s t : State} (h : t.sink = s.sink) (sent : Nat) :
    finishTurn sent s (.next t) = .next t.complete := by
  have hnew : newBytes s t = [] := newBytes_eq (by simpa using h)
  simp [finishTurn, deliver, hnew, ← h]

theorem engineTurn_illegal {s : State} {p : Pending} {e : Illegal} (hp : s.pend = some p)
    (hd : decode p.word = .error e) :
    engineTurn s = .next (capture .illegalCommand false p.word s).complete := by
  simp only [engineTurn, hp, execWord, hd]
  exact finishTurn_sameSink (capture_sink ..) p.sent

/-- Settles O5: a word is refused for its opcode or its reserved bits, and its turn is the capture alone. -/
theorem illegalWordsOnlyCapture : Obligations.IllegalWordsOnlyCapture := by
  refine ⟨decode_error_iff, fun s p hp hill => ?_⟩
  obtain ⟨e, hd⟩ := (decode_error_iff p.word).2 hill
  obtain ⟨hmem, hwriter, hops, hbwt, hbook, -⟩ := sameBlockButErrors_capture .illegalCommand false p.word s
  have hmodel : SameModelFields s (capture .illegalCommand false p.word s) := by simp [SameModelFields]
  exact ⟨_, engineTurn_illegal hp hd, rfl, captured_capture .illegalCommand false p.word s, hmem, hwriter, hops,
    hbwt, hbook, hmodel⟩

end Sys2Proof.Proofs
end

section
/-! PROOFS. Register writes that act: CTRL, CFG, CMD, ARG0 and ARG1, idle and busy (40_control R95, R96, R99, R100);
NOP's turn (R98); and what a failing command leaves (R101, 60_exceptions R152). -/

namespace Sys2Proof.Proofs

open Sys2Proof.Machine Sys2Proof.Safety Sys2Proof.Laws

/-! ### A word write to a register (20_memory R55, R58) -/

theorem aligned_of_regAt {o : Nat} {r : Reg} (h : regAt o = some r) : o % 4 = 0 := by
  unfold regAt at h
  split at h <;> simp at h ⊢

theorem busAccess_register_write {off : Offset} {r : Reg} (h : regAt off.toNat = some r) (d : Word) (s : State) :
    busAccess (wordAccess off (.write d)) s = .next { regWrite r off d s with reply := .done } := by
  rw [busAccess_wordAccess_write (aligned_of_regAt h), targetOf_of_regAt_some h]
  rfl

/-! ### CTRL (40_control R95) -/

theorem ctrlWrite_softReset {d : Word} (h0 : d.getLsbD 0 = true) (s : State) : ctrlWrite d s = softReset s := by
  simp only [ctrlWrite, h0, if_true]

theorem ctrlWrite_clearError {d : Word} (h0 : d.getLsbD 0 = false) (h1 : d.getLsbD 1 = true) (s : State) :
    ctrlWrite d s = clearError s := by
  simp only [ctrlWrite, h0, h1, Bool.false_eq_true, if_false, if_true]

theorem ctrlWrite_noEffect {d : Word} (h0 : d.getLsbD 0 = false) (h1 : d.getLsbD 1 = false) (s : State) :
    ctrlWrite d s = s := by
  simp only [ctrlWrite, h0, h1, Bool.false_eq_true, if_false]

theorem sameBlockButErrors_clearError (s : State) : SameBlockButErrors s (clearError s) :=
  ⟨sameMemories_of_eq rfl rfl rfl rfl rfl rfl, ⟨rfl, rfl, rfl, rfl⟩, ⟨rfl, rfl, rfl, rfl⟩, ⟨rfl, rfl, rfl⟩,
    ⟨rfl, rfl, rfl⟩, rfl⟩

theorem errCodeWord_clearError (s : State) : (clearError s).errCodeWord = 0 := by
  rw [errCodeWord_eq, clearError_errSrc, clearError_errCode]
  decide

/-- Settles O42: CTRL is written at once, and bits 0 and 1 of the word select one of three effects. -/
theorem ctrlWriteResetsOrClears : Obligations.CtrlWriteResetsOrClears := by
  intro s d
  refine ⟨{ ctrlWrite d s with reply := .done }, busAccess_register_write (r := .ctrl) rfl d s,
    fun h0 => ?reset, fun h0 h1 => ?clear, fun h0 h1 => ?nothing⟩
  case reset => rw [ctrlWrite_softReset h0]
  case clear =>
    rw [ctrlWrite_clearError h0 h1]
    exact ⟨rfl, errCodeWord_clearError s, rfl, sameBlockButErrors_clearError s, rfl, rfl⟩
  case nothing => rw [ctrlWrite_noEffect h0 h1]

/-! ### CMD, CFG, ARG0 and ARG1 (40_control R96, R99, R100) -/

theorem cmdWrite_idle {s : State} (hidle : s.busy = false) (off : Offset) (d : Word) :
    cmdWrite off d s = { s with pend := some { word := d, a0 := s.arg0, a1 := s.arg1 } } := by
  simp [cmdWrite, hidle]

theorem arg0Write_idle {s : State} (hidle : s.busy = false) (off : Offset) (d : Word) :
    arg0Write off d s = { s with arg0 := d } := by
  simp [arg0Write, hidle]

theorem arg1Write_idle {s : State} (hidle : s.busy = false) (off : Offset) (d : Word) :
    arg1Write off d s = { s with arg1 := d } := by
  simp [arg1Write, hidle]

/-- A rejected CFG write (40_control R99); `cfgWrite_accepted` is the other case. -/
theorem cfgWrite_badSize {s : State} {d : Word} (hidle : s.busy = false)
    (hsize : d.toNat % 16 < 1 ∨ 9 < d.toNat % 16) (off : Offset) :
    cfgWrite off d s = capture .invalidArgument true d s := by
  have hbad : (d.extractLsb' 0 4).toNat < 1 ∨ 9 < (d.extractLsb' 0 4).toNat := by simpa using hsize
  simp only [cfgWrite, hidle, Bool.false_eq_true, if_false, if_pos hbad]

theorem regWrite_busy {s : State} {r : Reg} (hbusy : s.busy = true) (hr : r ∈ [Reg.cmd, .cfg, .arg0, .arg1])
    (off : Offset) (d : Word) : regWrite r off d s = rejectBusy off s := by
  cases r <;> simp [regWrite, cmdWrite, cfgWrite, arg0Write, arg1Write, hbusy] at hr ⊢

/-- What a host write leaves that is answered but only captures an error. -/
theorem capturedWrite_spec (code : ErrCode) (info : Word) (s : State) :
    Captured code true info s { capture code true info s with reply := .done } ∧
      ErrorsOnly s { capture code true info s with reply := .done } ∧
      { capture code true info s with reply := .done }.reply = .done ∧
      { capture code true info s with reply := .done }.draws = s.draws :=
  ⟨captured_capture code true info s,
    ⟨sameBlockButErrors_capture code true info s, capture_sinkStall code true info s,
      capture_events code true info s⟩,
    rfl, capture_draws code true info s⟩

/-- The four offsets of R96, R99 and R100 are those of four registers. -/
theorem regAt_busyRejected {off : Offset} (h : off ∈ [0x01C, 0x018, 0x020, 0x024]) :
    ∃ r ∈ [Reg.cmd, .cfg, .arg0, .arg1], regAt off.toNat = some r := by
  simp only [List.mem_cons, List.not_mem_nil, or_false] at h
  obtain rfl | rfl | rfl | rfl := h
  · exact ⟨.cmd, by simp, rfl⟩
  · exact ⟨.cfg, by simp, rfl⟩
  · exact ⟨.arg0, by simp, rfl⟩
  · exact ⟨.arg1, by simp, rfl⟩

/-- Settles O50: each register's idle write by its own rule, and one rejection for all four while busy. -/
theorem idleRegisterWrites : Obligations.IdleRegisterWrites := by
  refine ⟨fun s d hidle => ⟨?cmd, ?arg0, ?arg1, fun h1 h9 => ?accepted, fun hsize => ?badSize⟩,
    fun s d off hbusy hoff => ?busy⟩
  case cmd => rw [busAccess_register_write (r := .cmd) rfl, regWrite, cmdWrite_idle hidle]
  case arg0 => rw [busAccess_register_write (r := .arg0) rfl, regWrite, arg0Write_idle hidle]
  case arg1 => rw [busAccess_register_write (r := .arg1) rfl, regWrite, arg1Write_idle hidle]
  case accepted =>
    rw [busAccess_register_write (r := .cfg) rfl, regWrite, cfgWrite_accepted hidle h1 h9]
    exact ⟨_, rfl, by simp, rfl, rfl⟩
  case badSize =>
    rw [busAccess_register_write (r := .cfg) rfl, regWrite, cfgWrite_badSize hidle hsize]
    exact ⟨_, rfl, capturedWrite_spec .invalidArgument d s⟩
  case busy =>
    obtain ⟨r, hr, hat⟩ := regAt_busyRejected hoff
    rw [busAccess_register_write hat, regWrite_busy hbusy hr]
    exact ⟨_, rfl, capturedWrite_spec .busy _ s⟩

/-! ### NOP (40_control R98) -/

theorem exec_nop (s : State) : exec .nop s = .next s := rfl

/-- The turn of a command that emits nothing: its effect, and then nothing is pending (40_control R97). -/
theorem engineTurn_sameSink {s t : State} {p : Pending} {i : Instr} (hp : s.pend = some p)
    (hd : decode p.word = .ok i) (hexec : exec i s = .next t) (hsink : t.sink = s.sink) :
    engineTurn s = .next t.complete := by
  simp only [engineTurn, hp, execWord, hd, hexec]
  exact finishTurn_sameSink hsink p.sent

/-- Settles O9: NOP's rule is the identity, so its turn is the end of BUSY. -/
theorem nopOnlyEndsBusy : Obligations.NopOnlyEndsBusy := by
  refine ⟨by decide, exec_nop, fun s p hp hword => ⟨s.complete, ?turn, rfl, rfl⟩⟩
  have hdecode : decode p.word = .ok .nop := by
    rw [hword]
    rfl
  exact engineTurn_sameSink hp hdecode (exec_nop s) rfl

/-! ### Failing commands (40_control R101, 60_exceptions R152) -/

theorem sameModelFields_capture (code : ErrCode) (src : Bool) (info : Word) (s : State) :
    SameModelFields s (capture code src info s) := by
  simp [SameModelFields]

theorem encodeSymbols_ne_raised (syms : List Nat) (s : State) (code : ErrCode) (u : State) :
    encodeSymbols syms s ≠ .raised code u := by
  obtain ⟨bits, h⟩ | ⟨mem, i, h⟩ := encodeSymbols_cases syms s <;> simp [h]

/-- The raises of HBUILD: a bad alphabet size leaves the state, the code length cap clears BOOK_VALID
(43_huffman R129, R138). -/
theorem runHbuild_raised {s u : State} {code : ErrCode} (h : runHbuild s = .raised code u) :
    code = .invalidArgument ∧ u = s ∨ code = .encodingFailed ∧ u = { s with bookValid := false } := by
  simp only [runHbuild] at h
  split at h
  · cases h
    exact .inl ⟨rfl, rfl⟩
  · split at h
    · cases h
    · split at h <;> cases h
      exact .inr ⟨rfl, rfl⟩

/-- No command but HBUILD raises ENCODING_FAILED (60_exceptions R148). -/
theorem eq_hbuild_of_encodingFailed {i : Instr} {s u : State} (h : runCmd i s = .raised .encodingFailed u) :
    i = .hbuild := by
  cases i with
  | hbuild => rfl
  | nop => cases h
  | bwBit _ | bwBits _ | bwFlush | bwClose | bwOpen | bwtRun | hcount =>
    simp only [runCmd, runBwBit, runBwBits, runBwFlush, runBwClose, runBwOpen, runBwtRun, runHcount] at h
    repeat' split at h
    all_goals cases h
  | hencSym x =>
    simp only [runCmd, runHencSym] at h
    repeat' split at h
    case isFalse => exact absurd h (encodeSymbols_ne_raised _ _ _ _)
    all_goals cases h
  | hencRun =>
    simp only [runCmd, runHencRun] at h
    repeat' split at h
    case h_3 => exact absurd h (encodeSymbols_ne_raised _ _ _ _)
    all_goals cases h

/-- A raise carries the state the command began in; ENCODING_FAILED, and it alone, clears BOOK_VALID. -/
theorem runCmd_raised_eq {i : Instr} {s u : State} {code : ErrCode} (h : runCmd i s = .raised code u) :
    u = { s with bookValid := if code = .encodingFailed then false else s.bookValid } := by
  by_cases hcode : code = .encodingFailed
  · rw [if_pos hcode]
    subst hcode
    obtain rfl := eq_hbuild_of_encodingFailed h
    obtain ⟨hne, -⟩ | ⟨-, hu⟩ := runHbuild_raised h
    · cases hne
    · exact hu
  · rw [if_neg hcode]
    exact (runCmd_raised h).resolve_right fun hfailed => hcode hfailed.1

/-- Settles O39: a capture touches the error registers alone, and a raise carries the state it began in. -/
theorem failingCommandOnlyCaptures : Obligations.FailingCommandOnlyCaptures := by
  refine ⟨fun code src info s => ⟨captured_capture code src info s, sameBlockButErrors_capture code src info s,
    sameModelFields_capture code src info s⟩, fun s u i code h => ?_⟩
  have hexec : exec i s = .next (capture code false (encode i) u) := by rw [exec_eq_commit, h, commit_raised]
  obtain rfl := runCmd_raised_eq h
  obtain ⟨hmem, hwriter, hops, hbwt, ⟨hvalid, hn, hmax⟩, hpend⟩ :=
    sameBlockButErrors_capture code false (encode i)
      { s with bookValid := if code = .encodingFailed then false else s.bookValid }
  exact ⟨_, hexec, captured_capture code false (encode i) _, fun m k => (hmem m k).trans (by cases m <;> rfl),
    hwriter, hops, hbwt, hpend, sameModelFields_capture code false (encode i) _, hn, hmax, hvalid⟩

end Sys2Proof.Proofs
end

section
/-! PROOFS. How a command's end executes (40_control R97, R101), what the bit-writer touches and what it depends on,
which commands check the closed writer (41_bitwriter R117), and BW_OPEN (R116). -/

namespace Sys2Proof.Proofs

open Sys2Proof.Machine Sys2Proof.Safety Sys2Proof.Laws

/-! ### How a command ends (40_control R97, R101) -/

theorem onlyCaptured_capture (code : ErrCode) (w : Word) (s : State) :
    OnlyCaptured code w s (capture code false w s) :=
  ⟨captured_capture code false w s, sameBlockButErrors_capture code false w s,
    sameModelFields_capture code false w s⟩

theorem exec_of_done {i : Instr} {s t : State} (h : runCmd i s = .done t) : exec i s = .next t := by
  rw [exec_eq_commit, h, commit_done]

theorem exec_of_raised {i : Instr} {s : State} {code : ErrCode} (h : runCmd i s = .raised code s) :
    exec i s = .next (capture code false (encode i) s) := by
  rw [exec_eq_commit, h, commit_raised]

/-- A raise that carries the state the command began in has the capture as its only effect. -/
theorem exec_onlyCaptured {i : Instr} {s : State} {code : ErrCode} (h : runCmd i s = .raised code s) :
    ∃ t, exec i s = .next t ∧ OnlyCaptured code (encode i) s t :=
  ⟨_, exec_of_raised h, onlyCaptured_capture code (encode i) s⟩

/-! ### The frame of the writer -/

/-- A state that is `s` but for the cache, BW_CLOSED, BW_BYTES and the sink. -/
theorem writerOnly_of_frame {s t : State}
    (h : t = { s with cache := t.cache, bwClosed := t.bwClosed, bwBytes := t.bwBytes, sink := t.sink }) :
    WriterOnly s t := by
  rw [h]
  exact ⟨sameMemories_of_eq rfl rfl rfl rfl rfl rfl, ⟨rfl, rfl, rfl, rfl⟩, ⟨rfl, rfl, rfl, rfl⟩, ⟨rfl, rfl, rfl⟩,
    ⟨rfl, rfl, rfl⟩, rfl, ⟨rfl, rfl, rfl, rfl⟩⟩

theorem writerOnly_flushWhole (s : State) : WriterOnly s (flushWhole s) :=
  writerOnly_of_frame (by rw [flushWhole_eq])

theorem writerOnly_appendBits (s : State) (bits : List Bool) : WriterOnly s (appendBits s bits) :=
  writerOnly_of_frame (by rw [appendBits_frame])

/-! ### Nothing outside the writer has a part in it -/

theorem sameWriter_flushWhole {s t : State} (h : SameWriter s t) : SameWriter (flushWhole s) (flushWhole t) := by
  obtain ⟨hcache, hclosed, hbytes, hsink⟩ := h
  simp [SameWriter, flushWhole_eq, hcache, hclosed, hbytes, hsink]

theorem sameWriter_appendBit {s t : State} (h : SameWriter s t) (b : Bool) :
    SameWriter (appendBit s b) (appendBit t b) := by
  obtain ⟨hcacheF, -, hbytesF, hsinkF⟩ := sameWriter_flushWhole h
  obtain ⟨hcache, hclosed, hbytes, hsink⟩ := h
  by_cases hfull : s.cache.length = Config.cacheBits
  · simp [SameWriter, appendBit, hfull, hcache, hclosed, hcacheF, hbytesF, hsinkF]
  · simp [SameWriter, appendBit, hfull, hcache, hclosed, hbytes, hsink]

theorem sameWriter_appendBits {s t : State} (h : SameWriter s t) (bits : List Bool) :
    SameWriter (appendBits s bits) (appendBits t bits) := by
  induction bits generalizing s t with
  | nil => exact h
  | cons b bits ih => exact ih (sameWriter_appendBit h b)

/-! ### The closed writer (41_bitwriter R117) -/

/-- The commands that check BW_CLOSED before their arguments (41_bitwriter R117). -/
def checksClosedWriter : Instr → Bool
  | .bwBit _ | .bwBits _ | .bwFlush | .bwClose | .hencSym _ | .hencRun => true
  | .nop | .bwOpen | .bwtRun | .hcount | .hbuild => false

theorem runCmd_closed {i : Instr} {s : State} (hi : checksClosedWriter i = true) (h : s.bwClosed = true) :
    runCmd i s = .raised .closedWriter s := by
  cases i with
  | bwBit _ | bwBits _ | bwFlush | bwClose | hencSym _ | hencRun => exact if_pos h
  | nop | bwOpen | bwtRun | hcount | hbuild => cases hi

theorem checksClosedWriter_of_raised {i : Instr} {s u : State} (h : runCmd i s = .raised .closedWriter u) :
    checksClosedWriter i = true := by
  cases i with
  | bwBit _ | bwBits _ | bwFlush | bwClose | hencSym _ | hencRun => rfl
  | nop => cases h
  | hbuild => obtain ⟨hcode, -⟩ | ⟨hcode, -⟩ := runHbuild_raised h <;> cases hcode
  | bwOpen | bwtRun | hcount =>
    simp only [runCmd, runBwOpen, runBwtRun, runHcount] at h
    repeat' split at h
    all_goals cases h

/-- Settles O17: the six commands test BW_CLOSED first, and only they can raise CLOSED_WRITER. -/
theorem closedWriterIsCheckedFirst : Obligations.ClosedWriterIsCheckedFirst := by
  refine ⟨fun s i hclosed hi => exec_onlyCaptured (runCmd_closed ?six hclosed), fun s u i hi h => ?five⟩
  case six => obtain ⟨b, rfl⟩ | ⟨n, rfl⟩ | rfl | rfl | ⟨x, rfl⟩ | rfl := hi <;> rfl
  case five =>
    have hfive : ∀ j ∈ [Instr.bwOpen, .nop, .bwtRun, .hcount, .hbuild], checksClosedWriter j = false := by decide
    exact absurd (checksClosedWriter_of_raised h) (by simp [hfive i hi])

/-- Settles O16: the two branches of BW_OPEN's rule. -/
theorem bwOpenReopens : Obligations.BwOpenReopens := by
  refine ⟨by decide, fun s => ⟨fun hclosed => ?closed, fun hopen => ?opened⟩⟩
  case closed =>
    have hrun : runCmd .bwOpen s = .done { s with bwClosed := false, bwBytes := 0 } := if_pos hclosed
    exact ⟨_, exec_of_done hrun, rfl, rfl, rfl, rfl, writerOnly_of_frame rfl⟩
  case opened =>
    have hrun : runCmd .bwOpen s = .raised .sequence s := if_neg (by simp [hopen])
    exact exec_onlyCaptured hrun

end Sys2Proof.Proofs
end

section
/-! PROOFS. The bits of emitted bytes and FlushWhole (20_memory R61, 41_bitwriter R109), and the commands that write:
BW_BIT, BW_BITS, BW_FLUSH and BW_CLOSE (R110 to R115). -/

namespace Sys2Proof.Proofs

open Sys2Proof.Machine Sys2Proof.Safety Sys2Proof.Laws

/-! ### The bits of emitted bytes (20_memory R61) -/

/-- Bit `t` of byte `j` in emission order is bit 7 - t of that byte. -/
theorem unpack_getElem? (bytes : List Byte) (j : Nat) {t : Nat} (ht : t < 8) :
    (unpack bytes)[8 * j + t]? = bytes[j]?.map fun b => b.getLsbD (7 - t) := by
  induction bytes generalizing j with
  | nil => simp
  | cons b bytes ih =>
    have hcons : unpack (b :: bytes) = byteBits b ++ unpack bytes := List.flatMap_cons
    have hlen : (byteBits b).length = 8 := rfl
    rw [hcons]
    cases j with
    | zero =>
      rw [List.getElem?_append_left (by omega)]
      interval_cases t <;> rfl
    | succ j =>
      rw [List.getElem?_append_right (by omega), hlen, show 8 * (j + 1) + t - 8 = 8 * j + t by omega, ih]
      simp

/-- Settles O11: what is emitted and what is kept are the cache, so the emitted bits are its first bits. -/
theorem flushWholeEmitsWholeBytes : Obligations.FlushWholeEmitsWholeBytes := by
  intro s
  obtain ⟨out, hsink, hlen, hsplit, -, hcount⟩ := flushWhole_spec s
  refine ⟨out, hsink, hlen, fun j t hj ht => ?bit, ?count, ?rest, flushWhole_bwClosed s, writerOnly_flushWhole s⟩
  case bit =>
    have hin : 8 * j + t < (unpack out).length := by
      rw [unpack_length]
      omega
    rw [← hsplit, List.getD_append _ _ _ _ hin]
    simp [List.getD_eq_getElem?_getD, unpack_getElem? out j ht, List.getElem?_eq_getElem hj]
  case count => simp [hcount]
  case rest => rw [← unpack_length, ← hsplit, List.drop_left]

/-! ### BW_BIT and BW_BITS (41_bitwriter R108, R110 to R112) -/

/-- One bit appended below capacity emits nothing; into a full cache it comes after the cache's eight bytes. -/
theorem appended_one {s t : State} {b : Bool} (h : Appended [b] s t) :
    (s.cache.length < 64 → t.cache = s.cache ++ [b] ∧ t.sink = s.sink ∧ t.bwBytes = s.bwBytes) ∧
    (s.cache.length = 64 → ∃ out, t.cache = [b] ∧ t.sink = s.sink ++ out ∧ out.length = 8 ∧
      unpack out = s.cache ∧ t.bwBytes = s.bwBytes + 8) := by
  obtain ⟨out, hsink, hsplit, hlen, hcount, -⟩ := h
  rw [List.length_singleton, Nat.add_sub_cancel] at hlen
  refine ⟨fun hroom => ?room, fun hfull => ?full⟩
  case room =>
    obtain rfl : out = [] := List.length_eq_zero_iff.1 (by omega)
    exact ⟨hsplit, by simpa using hsink, by simpa using hcount⟩
  case full =>
    rw [hfull] at hlen
    obtain ⟨hout, hcache⟩ := List.append_inj hsplit (by rw [unpack_length, hlen, hfull])
    exact ⟨out, hcache, hsink, hlen, hout, by rw [hcount, hlen]; rfl⟩

theorem exec_bwBit_open {s : State} (hopen : s.bwClosed = false) (b : Bool) :
    exec (.bwBit b) s = .next (appendBits s [b]) :=
  exec_of_done (if_neg (by simp [hopen]))

/-- Settles O10: the bit is a sequence of one, appended. -/
theorem bwBitAppendsOneBit : Obligations.BwBitAppendsOneBit := by
  refine ⟨by decide, fun s b => ⟨fun hclosed => exec_onlyCaptured (runCmd_closed rfl hclosed),
    fun hopen hroom => ?room, fun hopen hfull => ?full⟩⟩
  case room =>
    obtain ⟨happ, -⟩ := appendBits_appended [b] s (Nat.le_of_lt hroom)
    obtain ⟨hcache, hsink, hcount⟩ := (appended_one happ).1 hroom
    exact ⟨_, exec_bwBit_open hopen b, hcache, hsink, hcount, by simpa using hopen, writerOnly_appendBits s [b]⟩
  case full =>
    obtain ⟨happ, -⟩ := appendBits_appended [b] s (Nat.le_of_eq hfull)
    obtain ⟨out, hcache, hsink, hlen, hout, hcount⟩ := (appended_one happ).2 hfull
    exact ⟨_, out, exec_bwBit_open hopen b, hcache, hsink, hlen, hout, hcount, by simpa using hopen,
      writerOnly_appendBits s [b]⟩

theorem runCmd_bwBits_tooMany {s : State} {count : Nat} (hopen : s.bwClosed = false) (h : 32 < count) :
    runCmd (.bwBits count) s = .raised .invalidArgument s := by
  simp [runCmd, runBwBits, hopen, Config.maxWriteBits, h]

theorem runCmd_bwBits_open {s : State} {count : Nat} (hopen : s.bwClosed = false) (h : count ≤ 32) :
    runCmd (.bwBits count) s = .done (appendBits s (bitsMsb s.a0 count)) := by
  simp [runCmd, runBwBits, hopen, Config.maxWriteBits, Nat.not_lt.2 h]

/-- Settles O12: the three branches of BW_BITS's rule; its bits are those of a0, appended. -/
theorem bwBitsAppendsLowBits : Obligations.BwBitsAppendsLowBits := by
  refine ⟨by decide, fun s count => ⟨fun hclosed => exec_onlyCaptured (runCmd_closed rfl hclosed),
    fun hopen hmany => exec_onlyCaptured (runCmd_bwBits_tooMany hopen hmany), fun hopen hcount hcache => ?bits⟩⟩
  obtain ⟨happ, -⟩ := appendBits_appended (bitsMsb s.a0 count) s hcache
  exact ⟨_, _, exec_of_done (runCmd_bwBits_open hopen hcount), bitsMsb_bitsOf s.a0 count, happ,
    writerOnly_appendBits s _⟩

theorem bitsMsb_congr {v w : Word} {count : Nat} (h : ∀ k, k < count → v.getLsbD k = w.getLsbD k) :
    bitsMsb v count = bitsMsb w count := by
  induction count with
  | zero => rfl
  | succ k ih => rw [bitsMsb, bitsMsb, h k (Nat.lt_succ_self k), ih fun j hj => h j (Nat.lt_succ_of_lt hj)]

/-- A command that raises the same error from both states captures it and leaves each writer as it was. -/
theorem sameWriter_exec_raised {s s' t u : State} {i : Instr} {code : ErrCode} (hw : SameWriter s s')
    (hs : runCmd i s = .raised code s) (hs' : runCmd i s' = .raised code s') (ht : exec i s = .next t)
    (hu : exec i s' = .next u) : SameWriter t u := by
  rw [exec_of_raised hs] at ht
  rw [exec_of_raised hs'] at hu
  cases ht
  cases hu
  simpa [SameWriter] using hw

/-- What BW_BITS does to the writer depends on the writer and on the bits it takes alone. -/
theorem sameWriter_exec_bwBits {s s' t u : State} {count : Nat} (hw : SameWriter s s')
    (hbits : bitsMsb s'.a0 count = bitsMsb s.a0 count) (ht : exec (.bwBits count) s = .next t)
    (hu : exec (.bwBits count) s' = .next u) : SameWriter t u := by
  have ⟨_, hclosed, _, _⟩ := hw
  cases hs : s.bwClosed with
  | true =>
    exact sameWriter_exec_raised hw (runCmd_closed rfl hs) (runCmd_closed rfl (hclosed.trans hs)) ht hu
  | false =>
    have hs' : s'.bwClosed = false := hclosed.trans hs
    by_cases hmany : 32 < count
    · exact sameWriter_exec_raised hw (runCmd_bwBits_tooMany hs hmany) (runCmd_bwBits_tooMany hs' hmany) ht hu
    · have hcount : count ≤ 32 := Nat.not_lt.1 hmany
      rw [exec_of_done (runCmd_bwBits_open hs hcount)] at ht
      rw [exec_of_done (runCmd_bwBits_open hs' hcount), hbits] at hu
      cases ht
      cases hu
      exact sameWriter_appendBits hw _

/-- Settles O13: the two runs start from the same writer and take the same bits. -/
theorem bwBitsIgnoresHighBits : Obligations.BwBitsIgnoresHighBits := by
  refine ⟨fun s t u p v count hp hlow ht hu => ?run, fun bits h => ?spec⟩
  case run =>
    have ha0 : s.a0 = p.a0 := by rw [State.a0, hp]
    have hbits : bitsMsb v count = bitsMsb s.a0 count := by rw [ha0, bitsMsb_congr hlow]
    have hw : SameWriter s { s with pend := some { p with a0 := v } } := ⟨rfl, rfl, rfl, rfl⟩
    exact sameWriter_exec_bwBits hw hbits ht hu
  case spec => exact (bitsOf_unique h (bitsMsb_bitsOf _ 4)).trans (by decide)

/-! ### BW_FLUSH and BW_CLOSE (41_bitwriter R114, R115) -/

/-- Settles O14: on an open writer BW_FLUSH is FlushWhole. -/
theorem bwFlushKeepsPartialByte : Obligations.BwFlushKeepsPartialByte := by
  refine ⟨by decide, fun s =>
    ⟨fun hclosed => exec_onlyCaptured (runCmd_closed (i := .bwFlush) rfl hclosed), fun hopen => ?_⟩⟩
  have hrun : runCmd .bwFlush s = .done (flushWhole s) := if_neg (by simp [hopen])
  obtain ⟨out, hsink, hlen, hsplit, hrest, hcount⟩ := flushWhole_spec s
  exact ⟨_, out, exec_of_done hrun, hsink, hlen, hsplit, hrest, hcount, by simpa using hopen,
    writerOnly_flushWhole s⟩

/-- The cache padded with zeros to a byte boundary (41_bitwriter R115). -/
def padded (s : State) : State :=
  { s with cache := s.cache ++ List.replicate (padBits s.cache.length) false }

theorem runCmd_bwClose_open {s : State} (hopen : s.bwClosed = false) :
    runCmd .bwClose s = .done { flushWhole (padded s) with bwClosed := true } :=
  if_neg (by simp [hopen])

/-- A padded cache is whole bytes, so FlushWhole empties it. -/
theorem flushWhole_padded_cache (s : State) : (flushWhole (padded s)).cache = [] := by
  obtain ⟨-, -, -, -, hrest, -⟩ := flushWhole_spec (padded s)
  refine List.length_eq_zero_iff.1 (hrest.trans ?_)
  simp only [padded, List.length_append, List.length_replicate, padBits]
  omega

/-- Settles O15: FlushWhole of the padded cache, which it empties. -/
theorem bwClosePadsAndCloses : Obligations.BwClosePadsAndCloses := by
  refine ⟨by decide, fun s =>
    ⟨fun hclosed => exec_onlyCaptured (runCmd_closed (i := .bwClose) rfl hclosed), fun hopen => ?_⟩⟩
  obtain ⟨out, hsink, -, hsplit, -, hcount⟩ := flushWhole_spec (padded s)
  have hempty := flushWhole_padded_cache s
  rw [hempty, List.append_nil] at hsplit
  exact ⟨_, out, padBits s.cache.length, exec_of_done (runCmd_bwClose_open hopen), rfl,
    fun hle => by rw [padBits]; omega, hsink, hsplit, hempty, hcount, rfl,
    writerOnly_of_frame (by rw [flushWhole_eq]; rfl)⟩

end Sys2Proof.Proofs
end

section
/-! PROOFS. The rotation order as the order of a key (42_bwt R121), the sorted rotations (R123), and BWT_RUN (R122 to
R124). -/

namespace Sys2Proof.Proofs

open Sys2Proof.Machine Sys2Proof.Safety Sys2Proof.Laws

/-! ### Lexicographic order of equally long byte sequences (00_scope R14) -/

/-- The model's comparison is the library's order of lists on the bytes' values. -/
theorem lexLt_iff_map_toNat_lt {u v : List Byte} (h : u.length = v.length) :
    lexLt u v = true ↔ u.map BitVec.toNat < v.map BitVec.toNat := by
  induction u generalizing v with
  | nil =>
    obtain rfl := List.length_eq_zero_iff.1 h.symm
    simp [lexLt]
  | cons a u ih =>
    cases v with
    | nil => cases h
    | cons b v => simp [lexLt, List.cons_lt_cons_iff, ih (Nat.succ.inj h), BitVec.toNat_inj]

/-- So is the order of R14: neither of two equally long sequences runs out before the other. -/
theorem map_toNat_lt_iff_lexBefore {u v : List Byte} (h : u.length = v.length) :
    u.map BitVec.toNat < v.map BitVec.toNat ↔ LexBefore u v := by
  have hshort : ¬ (u.map BitVec.toNat).length < (v.map BitVec.toNat).length := by simp [h]
  rw [List.lt_iff_exists, or_iff_right fun hp => hshort hp.2]
  constructor
  · rintro ⟨k, hu, hv, heq, hlt⟩
    have hu' : k < u.length := by simpa using hu
    have hv' : k < v.length := by simpa using hv
    refine ⟨k, hu', fun j hj => ?_, u[k], v[k], by simp, by simp, by simpa using hlt⟩
    rw [List.getElem?_eq_getElem (hj.trans hu'), List.getElem?_eq_getElem (hj.trans hv')]
    simpa [BitVec.toNat_inj] using heq j hj
  · rintro ⟨k, hu, heq, a, b, ha, hb, hlt⟩
    obtain ⟨hv, rfl⟩ := List.getElem?_eq_some_iff.1 hb
    obtain ⟨_, rfl⟩ := List.getElem?_eq_some_iff.1 ha
    refine ⟨k, by simpa using hu, by simpa using hv, fun j hj => ?_, by simpa using hlt⟩
    have hj' := heq j hj
    rw [List.getElem?_eq_getElem (hj.trans hu), List.getElem?_eq_getElem (hj.trans hv), Option.some_inj] at hj'
    simp [hj']

/-! ### The rotation order (42_bwt R121) -/

@[simp] theorem rotation_length (block : List Byte) (i : Nat) : (rotation block i).length = block.length := by
  simp only [Machine.rotation, List.length_append, List.length_drop, List.length_take]
  omega

theorem rotElem_eq_getElem?_rotation {block : List Byte} {i k : Nat} (hi : i < block.length)
    (hk : k < block.length) : rotElem block i k = (rotation block i)[k]? := by
  rw [rotElem, Machine.rotation, ← List.rotate_eq_drop_append_take hi.le, List.getElem?_rotate hk, Nat.add_comm]

/-- What the rotation order compares: the bytes' values, then the start index. -/
def rotKey (block : List Byte) (i : Nat) : List ℕ ×ₗ ℕ :=
  toLex ((rotation block i).map BitVec.toNat, i)

theorem rotKey_lt_iff {block : List Byte} {i j : Nat} :
    rotKey block i < rotKey block j ↔
      (rotation block i).map BitVec.toNat < (rotation block j).map BitVec.toNat ∨
        rotation block i = rotation block j ∧ i < j := by
  rw [rotKey, rotKey, Prod.Lex.toLex_lt_toLex, (List.map_injective_iff.2 BitVec.toNat_injective).eq_iff]

theorem rotKey_injective (block : List Byte) : Function.Injective (rotKey block) :=
  fun _ _ h => congrArg Prod.snd (toLex_inj.1 h)

theorem rotBefore_iff_rotKey_lt (block : List Byte) (i j : Nat) :
    rotBefore block i j = true ↔ rotKey block i < rotKey block j := by
  simp [rotBefore, rotKey_lt_iff, lexLt_iff_map_toNat_lt]

theorem rotationBefore_iff_rotKey_lt {block : List Byte} {i j : Nat} (hi : i < block.length)
    (hj : j < block.length) : RotationBefore block i j ↔ rotKey block i < rotKey block j := by
  rw [rotKey_lt_iff, map_toNat_lt_iff_lexBefore (by simp)]
  refine or_congr ?differ (and_congr_left' ?equal)
  case differ =>
    rw [LexBefore, rotation_length]
    refine exists_congr fun k => and_congr_right fun hk => and_congr (forall₂_congr fun m hm => ?_) ?_
    · rw [rotElem_eq_getElem?_rotation hi (hm.trans hk), rotElem_eq_getElem?_rotation hj (hm.trans hk)]
    · rw [rotElem_eq_getElem?_rotation hi hk, rotElem_eq_getElem?_rotation hj hk]
  case equal =>
    refine ⟨fun h => List.ext_getElem? fun k => ?_, fun h k hk => ?_⟩
    · by_cases hk : k < block.length
      · rw [← rotElem_eq_getElem?_rotation hi hk, ← rotElem_eq_getElem?_rotation hj hk, h k hk]
      · rw [List.getElem?_eq_none (by simpa using hk), List.getElem?_eq_none (by simpa using hk)]
    · rw [rotElem_eq_getElem?_rotation hi hk, rotElem_eq_getElem?_rotation hj hk, h]

/-- Settles O21: both orders are the order of the keys, which is linear, and different indices have different keys. -/
theorem rotationOrderIsStrictTotal : Obligations.RotationOrderIsStrictTotal := by
  refine fun block => ⟨fun i j hi hj => ?computed, fun i hi => ?irrefl, fun i j k hi hj hk => ?trans,
    fun i j hi hj hne => ?total⟩
  case computed => rw [rotBefore_iff_rotKey_lt, rotationBefore_iff_rotKey_lt hi hj]
  case irrefl =>
    rw [rotationBefore_iff_rotKey_lt hi hi]
    exact lt_irrefl _
  case trans =>
    rw [rotationBefore_iff_rotKey_lt hi hj, rotationBefore_iff_rotKey_lt hj hk, rotationBefore_iff_rotKey_lt hi hk]
    exact lt_trans
  case total =>
    rw [rotationBefore_iff_rotKey_lt hi hj, rotationBefore_iff_rotKey_lt hj hi]
    exact lt_or_gt_of_ne ((rotKey_injective block).ne hne)

/-! ### The sorted rotations (42_bwt R123) -/

theorem sortRotations_perm (block : List Byte) : (sortRotations block).Perm (List.range block.length) :=
  List.perm_insertionSort _ _

theorem mem_sortRotations {block : List Byte} {i : Nat} : i ∈ sortRotations block ↔ i < block.length := by
  rw [(sortRotations_perm block).mem_iff, List.mem_range]

@[simp] theorem sortRotations_length (block : List Byte) : (sortRotations block).length = block.length := by
  rw [(sortRotations_perm block).length_eq, List.length_range]

/-- The insertion sort sorts by key: its comparison is the order of the keys, which is total and transitive. -/
theorem sortRotations_pairwise_rotKey_le (block : List Byte) :
    (sortRotations block).Pairwise fun i j => rotKey block i ≤ rotKey block j := by
  have hle : ∀ i j, (decide (i = j) || rotBefore block i j) = true ↔ rotKey block i ≤ rotKey block j := fun i j => by
    rw [le_iff_eq_or_lt, (rotKey_injective block).eq_iff, ← rotBefore_iff_rotKey_lt, Bool.or_eq_true,
      decide_eq_true_iff]
  have : Std.Total fun i j => (decide (i = j) || rotBefore block i j) = true :=
    ⟨fun i j => by simpa only [hle] using le_total _ _⟩
  have : IsTrans ℕ fun i j => (decide (i = j) || rotBefore block i j) = true :=
    ⟨fun i j k => by simpa only [hle] using le_trans⟩
  exact (List.pairwise_insertionSort _ _).imp (hle _ _).1

theorem sortRotations_sorts (block : List Byte) : SortsRotations block (sortRotations block) := by
  have hnodup : (sortRotations block).Nodup := (sortRotations_perm block).nodup_iff.2 List.nodup_range
  refine ⟨sortRotations_perm block,
    ((sortRotations_pairwise_rotKey_le block).and hnodup).imp_of_mem fun hi hj ⟨hle, hne⟩ => ?_⟩
  rw [rotationBefore_iff_rotKey_lt (mem_sortRotations.1 hi) (mem_sortRotations.1 hj)]
  exact lt_of_le_of_ne hle ((rotKey_injective block).ne hne)

/-- A strict order leaves a set of indices one sorted list. -/
theorem eq_sortRotations_of_sorts {block : List Byte} {q : List Nat} (h : SortsRotations block q) :
    q = sortRotations block := by
  obtain ⟨hperm, hsorted⟩ := h
  obtain ⟨hperm', hsorted'⟩ := sortRotations_sorts block
  refine List.Perm.eq_of_pairwise (fun i j hi hj hij hji => ?_) hsorted hsorted' (hperm.trans hperm'.symm)
  have hi := List.mem_range.1 (hperm.mem_iff.1 hi)
  have hj := mem_sortRotations.1 hj
  rw [rotationBefore_iff_rotKey_lt hi hj] at hij
  rw [rotationBefore_iff_rotKey_lt hj hi] at hji
  exact absurd hij hji.asymm

@[simp] theorem lastColumn_length (block : List Byte) : (lastColumn block).length = block.length := by
  simp [lastColumn]

theorem lastColumn_getElem? {block : List Byte} {r i : Nat} (h : (sortRotations block)[r]? = some i) :
    (lastColumn block)[r]? = block[(i + block.length - 1) % block.length]? := by
  have hi : i < block.length := mem_sortRotations.1 (List.mem_of_getElem? h)
  have hlast : (i + block.length - 1) % block.length < block.length := Nat.mod_lt _ (by omega)
  simp [lastColumn, h, lastByte, List.getD_eq_getElem?_getD, List.getElem?_eq_getElem hlast]

theorem sortRotations_originIndex {block : List Byte} (h : 0 < block.length) :
    (sortRotations block)[originIndex block]? = some 0 :=
  List.getElem?_idxOf (mem_sortRotations.2 h)

theorem originIndex_lt {block : List Byte} (h : 0 < block.length) : originIndex block < block.length := by
  simpa [originIndex] using List.idxOf_lt_length_of_mem (mem_sortRotations.2 h)

/-! ### BWT_RUN (42_bwt R122 to R124) -/

theorem capacity_eq (s : State) : s.capacity = 100000 * s.blockSize.toNat := rfl

/-- The state BWT_RUN leaves after transforming `block` (42_bwt R123). -/
def bwtResult (s : State) (block : List Byte) : State :=
  { s with
    bwtOut := Mem.writeFrom s.bwtOut 0 (lastColumn block)
    bwtOrigin := BitVec.ofNat 32 (originIndex block)
    bwtLen := s.a0
    bwtValid := true }

theorem runCmd_bwtRun_badLength {s : State} (h : s.a0.toNat < 1 ∨ 100000 * s.blockSize.toNat < s.a0.toNat) :
    runCmd .bwtRun s = .raised .invalidArgument s :=
  if_pos h

theorem exec_bwtRun_written {s : State} {block : List Byte} (hpos : 1 ≤ block.length)
    (hcap : block.length ≤ 100000 * s.blockSize.toNat) (hlen : s.a0.toNat = block.length) (hblk : BlockIs s block) :
    exec .bwtRun s = .next (bwtResult s block) := by
  have hok : ¬ (s.a0.toNat < 1 ∨ s.capacity < s.a0.toNat) := by
    rw [capacity_eq]
    omega
  have hread : Mem.readRange s.blkMem 0 s.a0.toNat = .ok block :=
    (readRange_ok_iff _ _ _ _).2 ⟨hlen.symm, fun k hk => by rw [Nat.zero_add, hblk k (hlen ▸ hk)]⟩
  exact exec_of_done (by
    simp only [runCmd, runBwtRun, hok, if_false, hread, BitVec.ofNat_toNat, BitVec.setWidth_eq, bwtResult])

theorem read_bwtResult_bwtOut (s : State) (block : List Byte) (r : Nat) :
    Mem.read (bwtResult s block).bwtOut r =
      if r < block.length then (lastColumn block)[r]? else Mem.read s.bwtOut r := by
  simp [bwtResult, read_writeFrom]

/-- The origin is below the length ARG0 gives, so BWT_ORIGIN holds it whole. -/
theorem bwtResult_bwtOrigin_toNat {s : State} {block : List Byte} (hpos : 1 ≤ block.length)
    (hlen : s.a0.toNat = block.length) : (bwtResult s block).bwtOrigin.toNat = originIndex block := by
  have hlt : originIndex block < 2 ^ 32 := by
    have := originIndex_lt hpos
    have := s.a0.isLt
    omega
  rw [bwtResult, BitVec.toNat_ofNat, Nat.mod_eq_of_lt hlt]

theorem sameMemoriesBut_bwtResult (s : State) (block : List Byte) :
    SameMemoriesBut .bwtOut s (bwtResult s block) := by
  intro m i hm
  cases m with
  | bwtOut => exact absurd rfl hm
  | blkMem | symMem | freqMem | bookCode | bookLen => rfl

/-- Settles O22: the result is written from the insertion sort's list, the one list that sorts the rotations. -/
theorem bwtRunSortsRotations : Obligations.BwtRunSortsRotations := by
  refine ⟨by decide, fun s => ⟨capacity_eq s, fun ⟨_, hmax⟩ => ?cap⟩,
    fun s hbad => exec_onlyCaptured (runCmd_bwtRun_badLength hbad), fun s block hpos hcap hlen hblk =>
    ⟨_, sortRotations block, exec_bwtRun_written hpos hcap hlen hblk, sortRotations_sorts block,
      fun q => eq_sortRotations_of_sorts, fun r i hr => ?column, fun r hr => ?kept, ?origin, hlen, rfl,
      sameMemoriesBut_bwtResult s block, ⟨rfl, rfl, rfl, rfl⟩, ⟨rfl, rfl, rfl, rfl⟩, ⟨rfl, rfl, rfl, rfl⟩,
      ⟨rfl, rfl, rfl⟩, rfl, ⟨rfl, rfl, rfl, rfl⟩⟩⟩
  case cap =>
    rw [capacity_eq]
    omega
  case column =>
    obtain ⟨hrange, -⟩ := List.getElem?_eq_some_iff.1 hr
    rw [read_bwtResult_bwtOut, if_pos (by simpa using hrange), lastColumn_getElem? hr]
  case kept => rw [read_bwtResult_bwtOut, if_neg (Nat.not_lt.2 hr)]
  case origin => rw [bwtResult_bwtOrigin_toNat hpos hlen, sortRotations_originIndex hpos]

/-- Settles O23: the origin is the place of index 0 in the sorted list, and a block has at most 900000 bytes. -/
theorem originIsRankOfRotationZero : Obligations.OriginIsRankOfRotationZero := by
  refine ⟨rfl, fun s block ⟨_, hmax⟩ hpos hcap hlen hblk =>
    ⟨_, sortRotations block, exec_bwtRun_written hpos hcap hlen hblk, sortRotations_sorts block,
      fun r hr => ?written, ?_⟩⟩
  case written => simp [read_bwtResult_bwtOut, hr]
  have hlt := originIndex_lt hpos
  rw [bwtResult_bwtOrigin_toNat hpos hlen]
  exact ⟨sortRotations_originIndex hpos, hlt, by rw [Config.originBits]; omega⟩

end Sys2Proof.Proofs
end

section
/-! PROOFS. Symbol scans that stop or succeed (43_huffman R130, R145), and the alphabet size and HCOUNT (R129, R130). -/

namespace Sys2Proof.Proofs

open Sys2Proof.Machine Sys2Proof.Safety Sys2Proof.Laws

/-! ### The checking loop of HCOUNT and HENC_RUN -/

/-- The first element that is unwritten or too big decides, so a too big one after good ones stops the scan. -/
theorem scanSymbols_of_symbolTooBig {s : State} {bound start count : Nat}
    (h : SymbolTooBig s bound start count) : scanSymbols s.symMem bound start count = .tooBig := by
  obtain ⟨k, hk, hbelow, v, hv, hbig⟩ := h
  cases hscan : scanSymbols s.symMem bound start count with
  | tooBig => rfl
  | symbols syms =>
    obtain ⟨-, hread, hlt⟩ := (scanSymbols_symbols_iff ..).1 hscan
    have hmem : syms[k]? = some v.toNat := by rw [← hread k hk, hv, Option.map_some]
    exact absurd (hlt _ (List.mem_of_getElem? hmem)) (Nat.not_lt.2 hbig)
  | unwritten e =>
    obtain ⟨hle, -, hnone, hbefore⟩ := scanSymbols_unwritten hscan
    obtain hlt | rfl | hgt := Nat.lt_trichotomy e (start + k)
    · obtain ⟨u, hu, -⟩ := hbelow (e - start) (by omega)
      rw [Nat.add_sub_cancel' hle, hnone] at hu
      cases hu
    · rw [hv] at hnone
      cases hnone
    · obtain ⟨u, hu, hlt⟩ := hbefore (start + k) (Nat.le_add_right ..) hgt
      rw [hv, Option.some_inj] at hu
      exact absurd (hu ▸ hlt) (Nat.not_lt.2 hbig)

theorem scanSymbols_of_symbolsAre {s : State} {bound start : Nat} {syms : List Nat}
    (h : SymbolsAre s start syms) (hlt : ∀ x ∈ syms, x < bound) :
    scanSymbols s.symMem bound start syms.length = .symbols syms :=
  (scanSymbols_symbols_iff ..).2 ⟨rfl, h, hlt⟩

/-! ### The alphabet size (43_huffman R129) -/

theorem badAlphabet_iff {n : Nat} : badAlphabet n = true ↔ n < 2 ∨ 258 < n := by
  rw [badAlphabet, Bool.or_eq_true, decide_eq_true_iff, decide_eq_true_iff, Config.maxAlphabet]

theorem badAlphabet_eq_false {n : Nat} (hmin : 2 ≤ n) (hmax : n ≤ 258) : badAlphabet n = false :=
  Bool.eq_false_iff.2 fun h => by
    have := badAlphabet_iff.1 h
    omega

theorem runCmd_hbuild_badAlphabet {s : State} (h : s.a0.toNat < 2 ∨ 258 < s.a0.toNat) :
    runCmd .hbuild s = .raised .invalidArgument s :=
  if_pos (badAlphabet_iff.2 h)

theorem badAlphabet_of_runCmd_hbuild {s u : State} (h : runCmd .hbuild s = .raised .invalidArgument u) :
    badAlphabet s.a0.toNat = true := by
  simp only [runCmd, runHbuild] at h
  split at h
  · assumption
  · repeat' split at h
    all_goals cases h

/-! ### HCOUNT (43_huffman R130) -/

/-- The state HCOUNT leaves after counting `syms` (43_huffman R130). -/
def hcountResult (s : State) (syms : List Nat) : State :=
  { s with freqMem := Mem.writeFrom s.freqMem 0 ((countSymbols s.a1.toNat syms).map (BitVec.ofNat 32)) }

theorem runCmd_hcount_refused {s : State}
    (h : s.a1.toNat < 2 ∨ 258 < s.a1.toNat ∨ 900001 < s.a0.toNat ∨ SymbolTooBig s s.a1.toNat 0 s.a0.toNat) :
    runCmd .hcount s = .raised .invalidArgument s := by
  simp only [runCmd, runHcount]
  split
  case isTrue => rfl
  case isFalse hgood =>
    rw [badAlphabet_iff] at hgood
    split
    case isTrue => rfl
    case isFalse hcap =>
      rw [Config.symCap] at hcap
      have hbig : SymbolTooBig s s.a1.toNat 0 s.a0.toNat := by tauto
      rw [scanSymbols_of_symbolTooBig hbig]

theorem runCmd_hcount_symbols {s : State} {syms : List Nat} (hmin : 2 ≤ s.a1.toNat) (hmax : s.a1.toNat ≤ 258)
    (hlen : s.a0.toNat = syms.length) (hcap : syms.length ≤ 900001) (hsyms : SymbolsAre s 0 syms)
    (hlt : ∀ x ∈ syms, x < s.a1.toNat) : runCmd .hcount s = .done (hcountResult s syms) := by
  have hcap' : ¬ Config.symCap < s.a0.toNat := by
    rw [hlen]
    exact Nat.not_lt.2 hcap
  have hscan : scanSymbols s.symMem s.a1.toNat 0 s.a0.toNat = .symbols syms := by
    rw [hlen, scanSymbols_of_symbolsAre hsyms hlt]
  simp [runCmd, runHcount, badAlphabet_eq_false hmin hmax, hcap', hscan, hcountResult]

/-- Settles O27: the size is the first check of both commands and HBUILD's only one for that error; no symbol is
above the bound among none. -/
theorem badAlphabetIsRefused : Obligations.BadAlphabetIsRefused := by
  refine ⟨fun s hbad => exec_onlyCaptured (runCmd_hcount_refused ?count),
    fun s hbad => exec_onlyCaptured (runCmd_hbuild_badAlphabet hbad), fun s u hmin hmax hrun => ?build,
    fun s u hmin hmax hnone hrun => ?empty⟩
  case count => exact hbad.imp_right .inl
  case build =>
    have hbad := badAlphabet_of_runCmd_hbuild hrun
    rw [badAlphabet_eq_false hmin hmax] at hbad
    cases hbad
  case empty =>
    have hdone := runCmd_hcount_symbols (syms := []) hmin hmax hnone (by simp) (fun _ hk => by cases hk) (by simp)
    rw [hdone] at hrun
    cases hrun

theorem read_hcountResult_freqMem (s : State) (syms : List Nat) (x : Nat) :
    Mem.read (hcountResult s syms).freqMem x =
      if x < s.a1.toNat then some (BitVec.ofNat 32 (syms.count x)) else Mem.read s.freqMem x := by
  by_cases hx : x < s.a1.toNat <;> simp [hcountResult, read_writeFrom, countSymbols, hx]

theorem sameMemoriesBut_hcountResult (s : State) (syms : List Nat) :
    SameMemoriesBut .freqMem s (hcountResult s syms) := by
  intro m i hm
  cases m with
  | freqMem => exact absurd rfl hm
  | blkMem | bwtOut | symMem | bookCode | bookLen => rfl

/-- Settles O28: HCOUNT's checks, and the counts it writes, which fit 32 bits. -/
theorem hcountCountsSymbols : Obligations.HcountCountsSymbols := by
  refine ⟨by decide, fun s hbad => exec_onlyCaptured (runCmd_hcount_refused hbad),
    fun s syms hmin hmax hlen hcap hsyms hlt =>
    ⟨_, exec_of_done (runCmd_hcount_symbols hmin hmax hlen hcap hsyms hlt), fun x hx => ?counted, fun x hx => ?kept,
      sameMemoriesBut_hcountResult s syms, ⟨rfl, rfl, rfl, rfl⟩, ⟨rfl, rfl, rfl, rfl⟩, ⟨rfl, rfl, rfl, rfl⟩,
      ⟨rfl, rfl, rfl⟩, ⟨rfl, rfl, rfl⟩, rfl, ⟨rfl, rfl, rfl, rfl⟩⟩⟩
  case counted =>
    have hfits : syms.count x < 2 ^ 32 := by
      have := List.count_le_length (a := x) (l := syms)
      omega
    rw [read_hcountResult_freqMem, if_pos hx, Option.map_some, BitVec.toNat_ofNat, Nat.mod_eq_of_lt hfits]
  case kept => rw [read_hcountResult_freqMem, if_neg (Nat.not_lt.2 hx)]

end Sys2Proof.Proofs
end

section
/-! PROOFS. The greatest length and the canonical codes as numbers (43_huffman R135, R136), and HBUILD (R137, R138). -/

namespace Sys2Proof.Proofs

open Sys2Proof.Machine Sys2Proof.Safety Sys2Proof.Laws

/-! ### The code lengths (43_huffman R135) -/

@[simp] theorem huffLengths_length (tie : Bool) (freqs : List Nat) :
    (huffLengths tie freqs).length = freqs.length := by
  simp [huffLengths]

theorem maxLen_eq_max {lens : List Nat} (h : lens ≠ []) : maxLen lens = lens.max h := by
  cases lens with
  | nil => exact absurd rfl h
  | cons l lens => rw [maxLen, List.foldl_cons, Nat.zero_max, List.max]

theorem maxLen_mem {lens : List Nat} (h : lens ≠ []) : maxLen lens ∈ lens := by
  rw [maxLen_eq_max h]
  exact List.max_mem h

theorem maxLen_le_iff {lens : List Nat} {b : Nat} : maxLen lens ≤ b ↔ ∀ l ∈ lens, l ≤ b := by
  by_cases h : lens = []
  · simp [h, maxLen]
  · rw [maxLen_eq_max h, List.max_le_iff]

/-! ### The canonical codes (43_huffman R136) -/

theorem assignDepth_codes_length (d : Nat) (lens : List Nat) (s : Nat) (acc : Nat × List Nat) :
    (assignDepth d lens s acc).2.length = acc.2.length := by
  induction lens generalizing s acc with
  | nil => rfl
  | cons len lens ih =>
    rw [assignDepth]
    split <;> rw [ih]
    rw [List.length_set]

theorem assignDepths_codes_length (lens : List Nat) (d k : Nat) (acc : Nat × List Nat) :
    (assignDepths lens d k acc).2.length = acc.2.length := by
  induction k generalizing d acc with
  | zero => rfl
  | succ k ih => rw [assignDepths, ih, assignDepth_codes_length]

@[simp] theorem canonicalCodes_length (lens : List Nat) : (canonicalCodes lens).length = lens.length := by
  rw [canonicalCodes, assignDepths_codes_length, List.length_replicate]

/-- At one depth the running code goes up by one for each code of that length. -/
theorem assignDepth_running (d : Nat) (lens : List Nat) (s : Nat) (acc : Nat × List Nat) :
    (assignDepth d lens s acc).1 = acc.1 + lens.count d := by
  induction lens generalizing s acc with
  | nil => rfl
  | cons len lens ih =>
    rw [assignDepth]
    split
    case isTrue hd =>
      subst hd
      rw [ih, List.count_cons_self]
      omega
    case isFalse hd => rw [ih, List.count_cons_of_ne hd]

/-- The codes given at one depth are below the running code after it. -/
theorem assignDepth_codes_lt {d s b : Nat} {lens : List Nat} {acc : Nat × List Nat} (hcodes : ∀ c ∈ acc.2, c < b)
    (hrun : (assignDepth d lens s acc).1 ≤ b) : ∀ c ∈ (assignDepth d lens s acc).2, c < b := by
  induction lens generalizing s acc with
  | nil => exact hcodes
  | cons len lens ih =>
    have hfirst : acc.1 + (len :: lens).count d ≤ b := by rwa [← assignDepth_running d (len :: lens) s acc]
    rw [assignDepth] at hrun ⊢
    split at hrun
    case isTrue hd =>
      subst hd
      rw [List.count_cons_self] at hfirst
      rw [if_pos rfl]
      refine ih (fun c hc => ?_) hrun
      obtain hc | rfl := List.mem_or_eq_of_mem_set hc
      · exact hcodes c hc
      · omega
    case isFalse hd =>
      rw [if_neg hd]
      exact ih hcodes hrun

/-- A depth adds at most one code per symbol before the running code doubles, so `k` depths leave every code below
2^k times the running code and twice the number of symbols. -/
theorem assignDepths_codes_lt {lens : List Nat} {d k b : Nat} {acc : Nat × List Nat} (hcodes : ∀ c ∈ acc.2, c < b)
    (hrun : (acc.1 + 2 * lens.length) * 2 ^ k ≤ b) : ∀ c ∈ (assignDepths lens d k acc).2, c < b := by
  induction k generalizing d acc with
  | zero => exact hcodes
  | succ k ih =>
    have hafter := assignDepth_running d lens 0 acc
    have hcount : lens.count d ≤ lens.length := List.count_le_length
    have hdouble : (acc.1 + 2 * lens.length) * 2 ^ (k + 1) = 2 * (acc.1 + 2 * lens.length) * 2 ^ k := by ring
    have hpos : 2 * (acc.1 + 2 * lens.length) ≤ b :=
      (Nat.le_mul_of_pos_right _ (Nat.two_pow_pos k)).trans (hdouble ▸ hrun)
    rw [assignDepths]
    refine ih (assignDepth_codes_lt hcodes (by omega)) (le_trans ?_ (hdouble ▸ hrun))
    exact Nat.mul_le_mul_right _ (by simp only [hafter]; omega)

/-- The codes of an alphabet of at most 258 symbols with lengths up to the cap fit BOOK_CODE (10_state R45). -/
theorem canonicalCodes_lt {lens : List Nat} (hn : lens.length ≤ 258) (hcap : ∀ l ∈ lens, l ≤ 20) :
    ∀ c ∈ canonicalCodes lens, c < 2 ^ 32 := by
  refine assignDepths_codes_lt (fun c hc => ?_) ?_
  · rw [List.eq_of_mem_replicate hc]
    exact Nat.two_pow_pos 32
  · calc (0 + 2 * lens.length) * 2 ^ maxLen lens
        ≤ (0 + 2 * 258) * 2 ^ 20 :=
          Nat.mul_le_mul (by omega) (Nat.pow_le_pow_right (by decide) (maxLen_le_iff.2 hcap))
      _ ≤ 2 ^ 32 := by decide

/-! ### HBUILD (43_huffman R137, R138) -/

theorem readRange_of_freqsAre {s : State} {freqs : List Nat} (h : FreqsAre s freqs) :
    ∃ vs, Mem.readRange s.freqMem 0 freqs.length = .ok vs ∧ vs.map BitVec.toNat = freqs := by
  cases hread : Mem.readRange s.freqMem 0 freqs.length with
  | error e =>
    obtain ⟨-, he, hnone, -⟩ := readRange_error hread
    have hfreq := h e (by omega)
    rw [hnone, List.getElem?_eq_getElem (by omega)] at hfreq
    cases hfreq
  | ok vs =>
    obtain ⟨hlen, hvs⟩ := (readRange_ok_iff ..).1 hread
    refine ⟨vs, rfl, List.ext_getElem? fun k => ?_⟩
    by_cases hk : k < freqs.length
    · rw [List.getElem?_map, ← hvs k hk, Nat.zero_add, h k hk]
    · rw [List.getElem?_eq_none (by simpa [hlen] using hk), List.getElem?_eq_none (Nat.not_lt.1 hk)]

/-- HBUILD on written frequencies of a good alphabet: the cap of R138 decides. -/
theorem runCmd_hbuild_freqs {s : State} {freqs : List Nat} (hmin : 2 ≤ freqs.length) (hmax : freqs.length ≤ 258)
    (hlen : s.a0.toNat = freqs.length) (hfreqs : FreqsAre s freqs) :
    runCmd .hbuild s =
      if 20 < maxLen (huffLengths s.tie freqs) then .raised .encodingFailed { s with bookValid := false }
      else .done (writeBook freqs.length (huffLengths s.tie freqs) s) := by
  obtain ⟨vs, hread, hvs⟩ := readRange_of_freqsAre hfreqs
  simp [runCmd, runHbuild, hlen, badAlphabet_eq_false hmin hmax, hread, hvs, Config.maxCodeLen]

/-- Numbers that fit the element width are read back from where they were written. -/
theorem toNat_read_writeFrom_ofNat {w : Nat} {m : Mem w} {ns : List Nat} {k : Nat} (hfits : ∀ n ∈ ns, n < 2 ^ w)
    (hk : k < ns.length) : (Mem.read (Mem.writeFrom m 0 (ns.map (BitVec.ofNat w))) k).map BitVec.toNat = ns[k]? := by
  rw [read_writeFrom, if_pos (by simpa using hk)]
  simp [List.getElem?_eq_getElem hk, Nat.mod_eq_of_lt (hfits _ (List.getElem_mem hk))]

/-- Elements behind the written ones are kept. -/
theorem read_writeFrom_zero_of_le {w : Nat} {m : Mem w} {vs : List (BitVec w)} {k : Nat} (hk : vs.length ≤ k) :
    Mem.read (Mem.writeFrom m 0 vs) k = Mem.read m k := by
  rw [read_writeFrom, if_neg (by omega)]

theorem writeBook_bookIs {s : State} {lens : List Nat} (hn : lens.length ≤ 258) (hcap : ∀ l ∈ lens, l ≤ 20) :
    BookIs (writeBook lens.length lens s) lens (canonicalCodes lens) := by
  have hbookN : (writeBook lens.length lens s).bookN.toNat = lens.length :=
    Nat.mod_eq_of_lt (show lens.length < 2 ^ 9 by omega)
  refine ⟨hbookN, hbookN.trans (canonicalCodes_length lens).symm, fun k hk => ⟨?len, ?code⟩⟩
  case len =>
    exact toNat_read_writeFrom_ofNat (fun l hl => (hcap l hl).trans_lt (by decide)) hk
  case code => exact toNat_read_writeFrom_ofNat (canonicalCodes_lt hn hcap) (by simpa using hk)

theorem writeBook_bookMaxlen_toNat {s : State} {n : Nat} {lens : List Nat} (hcap : ∀ l ∈ lens, l ≤ 20) :
    (writeBook n lens s).bookMaxlen.toNat = maxLen lens :=
  Nat.mod_eq_of_lt ((maxLen_le_iff.2 hcap).trans_lt (by decide))

theorem readCell_writeBook {s : State} {n : Nat} {lens : List Nat} {m : MemId} (k : Nat) (hlen : m ≠ .bookLen)
    (hcode : m ≠ .bookCode) : (writeBook n lens s).readCell m k = s.readCell m k := by
  cases m with
  | bookLen => exact absurd rfl hlen
  | bookCode => exact absurd rfl hcode
  | blkMem | bwtOut | symMem | freqMem => rfl

/-- Settles O30: the greatest length decides between the book and the cap's error. -/
theorem hbuildWritesBook : Obligations.HbuildWritesBook := by
  refine ⟨by decide, fun s hbad => exec_onlyCaptured (runCmd_hbuild_badAlphabet hbad),
    fun s freqs lens hmin hmax hlen hfreqs hlens => ?_⟩
  have hrun := runCmd_hbuild_freqs hmin hmax hlen hfreqs
  have hn : freqs.length = lens.length := by rw [hlens, huffLengths_length]
  rw [← hlens, hn] at hrun
  refine ⟨fun hcap => ?book, fun ⟨l, hl, hlong⟩ => ?failed⟩
  case book =>
    rw [if_neg (Nat.not_lt.2 (maxLen_le_iff.2 hcap))] at hrun
    have hmaxlen := writeBook_bookMaxlen_toNat (s := s) (n := lens.length) hcap
    have hne : lens ≠ [] := List.ne_nil_of_length_pos (by omega)
    exact ⟨_, exec_of_done hrun, rfl, writeBook_bookIs (hn ▸ hmax) hcap, maxLen_le_iff.1 hmaxlen.ge,
      hmaxlen ▸ maxLen_mem hne,
      fun k hk => ⟨read_writeFrom_zero_of_le (by simpa using hk), read_writeFrom_zero_of_le (by simpa using hk)⟩,
      fun m k hm hm' => readCell_writeBook k hm hm', ⟨rfl, rfl, rfl, rfl⟩, ⟨rfl, rfl, rfl, rfl⟩,
      ⟨rfl, rfl, rfl, rfl⟩, ⟨rfl, rfl, rfl⟩, rfl, ⟨rfl, rfl, rfl, rfl⟩⟩
  case failed =>
    rw [if_pos (hlong.trans_le (maxLen_le_iff.1 le_rfl l hl))] at hrun
    obtain ⟨t, hexec, hcapt, hmem, hwriter, hops, hbwt, hpend, hmodel, hbookN, hbookMaxlen, hvalid⟩ :=
      failingCommandOnlyCaptures.2 _ _ _ _ hrun
    exact ⟨t, hexec, hvalid, hbookN, hbookMaxlen, hcapt, hmem, hwriter, hops, hbwt, hpend, hmodel⟩

end Sys2Proof.Proofs
end

section
/-! PROOFS. The encoder's commands: the codes of a run of symbols (43_huffman R143), HENC_SYM (R143) and HENC_RUN (R144,
R145). -/

namespace Sys2Proof.Proofs

open Sys2Proof.Machine Sys2Proof.Safety Sys2Proof.Laws

/-! ### The code of a symbol (43_huffman R143) -/

/-- The code bits that encoding appends for symbol `x`, highest first, where its book entry is written. -/
def codeOf (s : State) (x : Nat) : List Bool :=
  bitsMsb ((Mem.read s.bookCode x).getD 0) ((Mem.read s.bookLen x).getD 0).toNat

theorem codeBits_iff {s : State} {x : Nat} {bits : List Bool} :
    CodeBits s x bits ↔
      ((Mem.read s.bookCode x).isSome = true ∧ (Mem.read s.bookLen x).isSome = true) ∧ codeOf s x = bits := by
  constructor
  · rintro ⟨code, len, hcode, hlen, hbits⟩
    refine ⟨by simp [hcode, hlen], ?_⟩
    simpa [codeOf, hcode, hlen] using bitsOf_unique (bitsMsb_bitsOf code len.toNat) hbits
  · rintro ⟨⟨hcode, hlen⟩, rfl⟩
    obtain ⟨code, hcode⟩ := Option.isSome_iff_exists.1 hcode
    obtain ⟨len, hlen⟩ := Option.isSome_iff_exists.1 hlen
    refine ⟨code, len, hcode, hlen, ?_⟩
    simpa [codeOf, hcode, hlen] using bitsMsb_bitsOf code len.toNat

/-- Encoding symbols whose codes are written appends their codes in order. -/
theorem encodeSymbols_of_codeBits {s : State} {syms : List Nat} {codes : List (List Bool)}
    (h : List.Forall₂ (CodeBits s) syms codes) : encodeSymbols syms s = .done (appendBits s codes.flatten) := by
  obtain ⟨hwritten, hcodes⟩ := (List.forall₂_and_left ..).1 (h.imp fun _ _ => codeBits_iff.1)
  rw [← List.forall₂_map_left_iff (R := Eq), List.forall₂_eq_eq_eq] at hcodes
  rw [encodeSymbols_done hwritten, ← hcodes]
  rfl

/-- What encoding a run does on an open writer with room: the codes are appended, and nothing else changes. -/
theorem exec_appends_codes {i : Instr} {s : State} {syms : List Nat} {codes : List (List Bool)}
    (hrun : runCmd i s = encodeSymbols syms s) (hcache : s.cache.length ≤ 64)
    (hcodes : List.Forall₂ (CodeBits s) syms codes) :
    ∃ t, exec i s = .next t ∧ Appended codes.flatten s t ∧ WriterOnly s t := by
  rw [encodeSymbols_of_codeBits hcodes] at hrun
  obtain ⟨happ, -⟩ := appendBits_appended codes.flatten s hcache
  exact ⟨_, exec_of_done hrun, happ, writerOnly_appendBits s _⟩

/-! ### HENC_SYM (43_huffman R143) -/

theorem encode_hencSym {sym : Nat} (h : sym < 512) : encode (.hencSym sym) = 0x22000000 ||| BitVec.ofNat 32 sym := by
  refine BitVec.eq_of_toNat_eq ?_
  have hor : 2 ^ 24 * 0x22 + sym = 2 ^ 24 * 0x22 ||| sym := Nat.two_pow_add_eq_or_of_lt (by omega) _
  rw [encode, encodeS_toNat, Nat.mod_eq_of_lt h, BitVec.toNat_or, BitVec.toNat_ofNat sym,
    Nat.mod_eq_of_lt (show sym < 2 ^ 32 by omega)]
  simpa using hor

theorem runCmd_hencSym_noBook {s : State} (sym : Nat) (hopen : s.bwClosed = false) (hbook : s.bookValid = false) :
    runCmd (.hencSym sym) s = .raised .sequence s := by
  simp [runCmd, runHencSym, hopen, hbook]

theorem runCmd_hencSym_notInBook {s : State} {sym : Nat} (hopen : s.bwClosed = false) (hbook : s.bookValid = true)
    (h : s.bookN.toNat ≤ sym) : runCmd (.hencSym sym) s = .raised .invalidArgument s := by
  simp [runCmd, runHencSym, hopen, hbook, h]

theorem runCmd_hencSym_inBook {s : State} {sym : Nat} (hopen : s.bwClosed = false) (hbook : s.bookValid = true)
    (h : sym < s.bookN.toNat) : runCmd (.hencSym sym) s = encodeSymbols [sym] s := by
  simp [runCmd, runHencSym, hopen, hbook, h]

/-- Settles O36: the branches of HENC_SYM's rule; the last encodes a run of one symbol. -/
theorem hencSymAppendsCode : Obligations.HencSymAppendsCode := by
  refine ⟨fun sym => encode_hencSym, fun s sym => ⟨fun hclosed => exec_onlyCaptured (runCmd_closed rfl hclosed),
    fun hopen hbook => exec_onlyCaptured (runCmd_hencSym_noBook sym hopen hbook),
    fun hopen hbook hn => exec_onlyCaptured (runCmd_hencSym_notInBook hopen hbook hn),
    fun bits hopen hbook hn hcache hbits => ?_⟩⟩
  simpa using exec_appends_codes (runCmd_hencSym_inBook hopen hbook hn) hcache (.cons hbits .nil)

/-! ### HENC_RUN (43_huffman R144, R145) -/

theorem runCmd_hencRun_noBook {s : State} (hopen : s.bwClosed = false) (hbook : s.bookValid = false) :
    runCmd .hencRun s = .raised .sequence s := by
  simp [runCmd, runHencRun, hopen, hbook]

theorem runCmd_hencRun_refused {s : State} (hopen : s.bwClosed = false) (hbook : s.bookValid = true)
    (h : 900001 < s.a0.toNat + s.a1.toNat ∨ SymbolTooBig s s.bookN.toNat s.a0.toNat s.a1.toNat) :
    runCmd .hencRun s = .raised .invalidArgument s := by
  by_cases hcap : 900001 < s.a0.toNat + s.a1.toNat
  · simp [runCmd, runHencRun, hopen, hbook, Config.symCap, hcap]
  · simp [runCmd, runHencRun, hopen, hbook, Config.symCap, hcap, scanSymbols_of_symbolTooBig (h.resolve_left hcap)]

theorem runCmd_hencRun_symbols {s : State} {syms : List Nat} (hopen : s.bwClosed = false) (hbook : s.bookValid = true)
    (hlen : s.a1.toNat = syms.length) (hcap : s.a0.toNat + s.a1.toNat ≤ 900001) (hsyms : SymbolsAre s s.a0.toNat syms)
    (hlt : ∀ x ∈ syms, x < s.bookN.toNat) : runCmd .hencRun s = encodeSymbols syms s := by
  have hscan : scanSymbols s.symMem s.bookN.toNat s.a0.toNat s.a1.toNat = .symbols syms := by
    rw [hlen, scanSymbols_of_symbolsAre hsyms hlt]
  simp [runCmd, runHencRun, hopen, hbook, Config.symCap, Nat.not_lt.2 hcap, hscan]

/-- Settles O37: the branches of HENC_RUN's rule; the last encodes the symbols its scan gives. -/
theorem hencRunAppendsCodes : Obligations.HencRunAppendsCodes :=
  ⟨by decide, fun s => ⟨fun hclosed => exec_onlyCaptured (runCmd_closed (i := .hencRun) rfl hclosed),
    fun hopen hbook => exec_onlyCaptured (runCmd_hencRun_noBook hopen hbook),
    fun hopen hbook hbad => exec_onlyCaptured (runCmd_hencRun_refused hopen hbook hbad),
    fun _ _ hopen hbook hlen hcap hsyms hlt hcache hcodes =>
      exec_appends_codes (runCmd_hencRun_symbols hopen hbook hlen hcap hsyms hlt) hcache hcodes⟩⟩

end Sys2Proof.Proofs
end

section
/-! PROOFS. Host writes while a command is pending (70_reset_and_hazards R178), and what the two resets leave (R167
to R170). -/

namespace Sys2Proof.Proofs

open Sys2Proof.Machine Sys2Proof.Safety Sys2Proof.Laws

/-! ### Writes while busy (70_reset_and_hazards R178) -/

theorem writableMem_eq_true_of_mem {m : MemId} (h : m ∈ [MemId.blkMem, .symMem, .freqMem]) :
    writableMem m = true := by
  revert m
  decide

theorem writableMem_eq_false_of_mem {m : MemId} (h : m ∈ [MemId.bwtOut, .bookCode, .bookLen]) :
    writableMem m = false := by
  revert m
  decide

/-- The registers and the elements whose writes R178 rejects: the block captures BUSY and answers. -/
theorem busAccess_write_busyRejected {s : State} {off : Offset} (hbusy : s.busy = true) (hoff : off.toNat % 4 = 0)
    (hrejected : off ∈ [0x01C, 0x018, 0x020, 0x024] ∨
      ∃ m i, targetOf off = .cell m i ∧ m ∈ [MemId.blkMem, .symMem, .freqMem]) (d : Word) :
    busAccess (wordAccess off (.write d)) s =
      .next { capture .busy true (off.setWidth 32) s with reply := .done } := by
  obtain hreg | ⟨m, i, htarget, hm⟩ := hrejected
  · obtain ⟨r, hr, hat⟩ := regAt_busyRejected hreg
    rw [busAccess_register_write hat, regWrite_busy hbusy hr, rejectBusy]
  · rw [busAccess_wordAccess_write hoff, htarget, hostWrite, cellWrite_busy hbusy (writableMem_eq_true_of_mem hm)]

/-- The reserved offsets, the read-only registers and the read-only elements: a write is only answered, idle or busy
(10_state R23, 20_memory R55). -/
theorem busAccess_write_ignored {off : Offset} (hoff : off.toNat % 4 = 0)
    (hignored : targetOf off = .reserved ∨
      (∃ r, targetOf off = .reg r ∧ r ∉ [Reg.ctrl, .cmd, .cfg, .arg0, .arg1]) ∨
      ∃ m i, targetOf off = .cell m i ∧ m ∈ [MemId.bwtOut, .bookCode, .bookLen]) (d : Word) (s : State) :
    busAccess (wordAccess off (.write d)) s = .next { s with reply := .done } := by
  rw [busAccess_wordAccess_write hoff]
  obtain hres | ⟨r, htarget, hr⟩ | ⟨m, i, htarget, hm⟩ := hignored
  · rw [hres, hostWrite]
  · rw [htarget, hostWrite, regWrite_readOnly hr]
  · rw [htarget, hostWrite, cellWrite_readOnly (writableMem_eq_false_of_mem hm)]

/-- Settles O48: one capture for every rejected write, CTRL's own rule, and one answer for every ignored write. -/
theorem busyWritesAreRejected : Obligations.BusyWritesAreRejected := by
  refine fun s off d hbusy hoff => ⟨fun hrejected => ?rejected, fun hctrl => ?acts,
    fun hignored => busAccess_write_ignored hoff hignored d s⟩
  case rejected =>
    exact ⟨_, busAccess_write_busyRejected hbusy hoff hrejected d, capturedWrite_spec .busy (off.setWidth 32) s⟩
  case acts => rw [busAccess_wordAccess_write hoff, hctrl, hostWrite, regWrite]

/-! ### What the resets leave (70_reset_and_hazards R167 to R170) -/

theorem readReg_reset (r : Reg) : State.reset.readReg r = ResetValue r := by
  cases r <;> decide

/-- No register's word depends on what the reset of the registers keeps. -/
theorem readReg_resetRegisters (s : State) (r : Reg) : (resetRegisters s).readReg r = State.reset.readReg r := by
  cases r <;> rfl

theorem abortCommand_idle {s : State} (hidle : s.pend = none) : abortCommand s = s := by
  simp [abortCommand, hidle]

theorem softReset_idle {s : State} (hidle : s.pend = none) : softReset s = resetRegisters s := by
  rw [softReset, abortCommand_idle hidle]

theorem hardReset_sink (s : State) : (hardReset s).sink = (softReset s).sink := rfl

theorem allUnwritten_hardReset (s : State) : AllUnwritten (hardReset s) := by
  intro m i
  cases m <;> rfl

/-- The power-on state is its own hard reset. -/
theorem hardReset_reset : hardReset State.reset = State.reset := rfl

/-- A hard reset, too, ends in R167's reset of the registers: that reset does not look at the memories. -/
theorem resetRegisters_hardReset (s : State) : resetRegisters (hardReset s) = hardReset s := rfl

/-- Each of the three states R167 speaks of has been through its reset of the registers. -/
theorem exists_eq_resetRegisters {s t : State} (h : t = softReset s ∨ t = hardReset s ∨ t = State.reset) :
    ∃ u, t = resetRegisters u := by
  obtain rfl | rfl | rfl := h
  · exact ⟨abortCommand s, rfl⟩
  · exact ⟨hardReset s, (resetRegisters_hardReset s).symm⟩
  · exact ⟨State.reset, rfl⟩

theorem sameMemories_resetRegisters (s : State) : SameMemories s (resetRegisters s) :=
  sameMemories_of_eq rfl rfl rfl rfl rfl rfl

/-- Settles O51: both resets end in one reset of the registers, a hard one erases the memories, and with nothing
pending there is no abort to change the memories or the sink. -/
theorem resetsLeaveResetState : Obligations.ResetsLeaveResetState := by
  refine ⟨fun s t ht => ?registers, ?powerOn, fun s => ⟨allUnwritten_hardReset s, hardReset_sink s,
    fun hidle => ?idle⟩⟩
  case registers =>
    obtain ⟨u, rfl⟩ := exists_eq_resetRegisters ht
    exact ⟨fun r => (readReg_resetRegisters u r).trans (readReg_reset r), rfl, rfl, rfl⟩
  case powerOn => exact hardReset_reset ▸ allUnwritten_hardReset State.reset
  case idle =>
    rw [hardReset_sink, softReset_idle hidle]
    exact ⟨sameMemories_resetRegisters s, resetRegisters_sink s, resetRegisters_sink s⟩

end Sys2Proof.Proofs
end

section
/-! PROOFS. The encoder and the decoder are inverse to each other (30_encoding R81 to R86), and the words the assembler
emits (R91 to R94). -/

namespace Sys2Proof.Proofs

open Sys2Proof.Machine Sys2Proof.Safety Sys2Proof.Laws

/-! ### Decoding is the inverse of encoding (30_encoding R81, R86) -/

/-- The immediate field of a command's word as a number. -/
def immediateNumber : Instr → Nat
  | .bwBit b => b.toNat
  | .bwBits count => count % 64
  | .hencSym sym => sym % 512
  | .nop | .bwFlush | .bwClose | .bwOpen | .bwtRun | .hcount | .hbuild | .hencRun => 0

theorem immediateNumber_lt (i : Instr) : immediateNumber i < 2 ^ immediateBits i := by
  cases i with
  | bwBit b => exact b.toNat_lt
  | bwBits count => exact Nat.mod_lt _ (by decide)
  | hencSym sym => exact Nat.mod_lt _ (by decide)
  | _ => exact Nat.one_pos

theorem encode_toNat (i : Instr) : (encode i).toNat = opcodeNumber i * 2 ^ 24 + immediateNumber i := by
  cases i with
  | bwBit b => exact encodeB_toNat ..
  | bwBits count => exact encodeC_toNat ..
  | hencSym sym => exact encodeS_toNat ..
  | _ => exact encodeN_toNat _

/-- A command carries a word's immediate exactly when it is well formed and the word's low bits are its immediate. -/
theorem immediateIs_iff {w : Word} {i : Instr} :
    ImmediateIs w i ↔ i.wellFormed = true ∧ w.toNat % 2 ^ immediateBits i = immediateNumber i := by
  cases i with
  | bwBit b =>
    cases b <;> simp [ImmediateIs, Instr.wellFormed, immediateBits, immediateNumber, BitVec.getLsbD]
  | bwBits count =>
    simp only [ImmediateIs, Instr.wellFormed, immediateBits, immediateNumber, decide_eq_true_eq]
    omega
  | hencSym sym =>
    simp only [ImmediateIs, Instr.wellFormed, immediateBits, immediateNumber, decide_eq_true_eq]
    omega
  | _ => simp [ImmediateIs, Instr.wellFormed, immediateBits, immediateNumber, Nat.mod_one]

/-- A number is a multiple of `d` and a rest below `d` exactly when its quotient and its rest are those. -/
theorem div_mul_eq_and_mod_eq_iff {n a d m : Nat} (hd : d ∣ a) (hm : m < d) :
    n / d * d = a ∧ n % d = m ↔ a + m = n := by
  constructor
  · rintro ⟨rfl, rfl⟩
    exact Nat.div_add_mod' n d
  · rintro rfl
    obtain ⟨q, rfl⟩ := hd
    rw [Nat.mul_add_div (by omega), Nat.div_eq_of_lt hm, Nat.mul_add_mod, Nat.mod_eq_of_lt hm, Nat.add_zero]
    exact ⟨Nat.mul_comm q d, rfl⟩

/-- The words that decode are the encodings of the well-formed commands. -/
theorem decode_eq_ok_iff {w : Word} {i : Instr} : decode w = .ok i ↔ i.wellFormed = true ∧ encode i = w := by
  have hdvd : 2 ^ immediateBits i ∣ opcodeNumber i * 2 ^ 24 :=
    Dvd.dvd.mul_left (Nat.pow_dvd_pow 2 (immediateBits_le i)) _
  rw [decode_ok_iff, opcodeOf_toNat, mustBeZero_eq_zero_iff, ← and_assoc,
    ← masked_eq_opcode_iff (immediateBits_le i), immediateIs_iff, and_left_comm,
    div_mul_eq_and_mod_eq_iff hdvd (immediateNumber_lt i), ← encode_toNat, BitVec.toNat_inj]

/-- Settles O2: a well-formed command's own word is one that decodes to it. -/
theorem decodeOfEncode : Obligations.DecodeOfEncode :=
  fun _ hwf => decode_eq_ok_iff.2 ⟨hwf, rfl⟩

/-- Settles O4: a word that decodes is the encoding of the command it decodes to. -/
theorem encodeOfDecode : Obligations.EncodeOfDecode :=
  fun _ _ h => (decode_eq_ok_iff.1 h).symm

/-- Settles O1: the decoder computes on each of the seventeen words. -/
theorem specWordsDecode : Obligations.SpecWordsDecode := by
  unfold Obligations.SpecWordsDecode
  decide

/-! ### The words the assembler emits (30_encoding R91 to R94) -/

theorem decode_encode_of_asmCommand {i : Instr} {es : List Event} (h : asmCommand i = .ok es) :
    es = [busWrite 0x01C (encode i)] ∧ decode (encode i) = .ok i := by
  rw [asmCommand] at h
  split at h
  case isTrue hwf =>
    cases h
    exact ⟨rfl, decodeOfEncode i hwf⟩
  case isFalse => cases h

theorem busWrite_inj {off off' : Offset} {v v' : Word} : busWrite off v = busWrite off' v' ↔ off = off' ∧ v = v' := by
  simp [busWrite]

/-- The events of an expansion that write CMD are those of its command (30_encoding R93). -/
theorem decodes_of_asmRun {args last es : List Event} {i : Instr} {d : Word} (h : asmRun args i last = .ok es)
    (hargs : busWrite 0x01C d ∉ args) (hlast : busWrite 0x01C d ∉ last) (hd : busWrite 0x01C d ∈ es) :
    decode d = .ok i := by
  rw [asmRun] at h
  split at h
  case h_1 cmd hcmd =>
    cases h
    obtain ⟨rfl, hdec⟩ := decode_encode_of_asmCommand hcmd
    have hpoll : busWrite 0x01C d ≠ .poll := by simp [busWrite]
    simp only [List.mem_cons, List.mem_append, hpoll, hargs, hlast, busWrite_inj, List.not_mem_nil, true_and,
      false_or, or_false] at hd
    rw [hd, hdec]
  case h_2 => cases h

/-- The windows of the memories lie above the registers, so no element write is a write to CMD. -/
theorem memoryOffset_ne_cmd {m : MemId} {i : Nat} (hi : i < memSize m) :
    (0x01C : Offset) ≠ BitVec.ofNat 24 (windowBase m + 4 * i) := by
  intro h
  have hlow := windowBase_ge m
  have hhigh : windowBase m + 4 * memSize m ≤ 2 ^ 24 := by cases m <;> decide
  have hoff := congrArg BitVec.toNat h
  rw [BitVec.toNat_ofNat, Nat.mod_eq_of_lt (by omega)] at hoff
  have hcmd : (0x01C : Offset).toNat = 0x01C := rfl
  omega

theorem asmWrite_cmd_decodes {off : Offset} {v d : Word} {es : List Event} (h : asmWrite off v = .ok es)
    (hd : busWrite 0x01C d ∈ es) : ∃ i, decode d = .ok i := by
  rw [asmWrite] at h
  split at h
  case isTrue hoff =>
    split at h
    case h_1 i hi =>
      cases h
      rw [List.mem_singleton, busWrite_inj] at hd
      exact ⟨i, hd.2 ▸ hi⟩
    case h_2 => cases h
  case isFalse hoff =>
    cases h
    rw [List.mem_singleton, busWrite_inj] at hd
    exact absurd hd.1.symm hoff

theorem assemble_mem_ok {m : MemId} {i : Nat} {v : Word} {es : List Event} (h : assemble (.mem m i v) = .ok es) :
    i < memSize m ∧ es = [busWrite (BitVec.ofNat 24 (windowBase m + 4 * i)) v] := by
  rw [assemble] at h
  split at h
  · cases h
  · split at h
    · cases h
    · cases h
      exact ⟨Nat.not_le.1 ‹_›, rfl⟩

/-- No line but `.word` writes an illegal word to CMD (30_encoding R94). -/
theorem assemble_cmd_decodes {l : HostLine} {es : List Event} {d : Word} (hword : ∀ w, l ≠ .word w)
    (h : assemble l = .ok es) (hd : busWrite 0x01C d ∈ es) : ∃ i, decode d = .ok i := by
  cases l with
  | word w => exact absurd rfl (hword w)
  | wr off v => exact asmWrite_cmd_decodes h hd
  | mem m i v =>
    obtain ⟨hi, rfl⟩ := assemble_mem_ok h
    rw [List.mem_singleton, busWrite_inj] at hd
    exact absurd hd.1 (memoryOffset_ne_cmd hi)
  | cmd i =>
    obtain ⟨rfl, hdec⟩ := decode_encode_of_asmCommand h
    rw [List.mem_singleton, busWrite_inj] at hd
    exact ⟨i, hd.2 ▸ hdec⟩
  | put _ _ | bwt _ | count _ _ | build _ | encrun _ _ | close =>
    rw [assemble] at h
    exact ⟨_, decodes_of_asmRun h (by simp [busWrite]) (by simp [busWrite]) hd⟩
  | rd _ | poll | clrerr | sreset =>
    cases h
    simp [busWrite, busRead] at hd

/-- Settles O54: a raw write is checked, an expansion writes CMD with an encoding, and an element is not CMD. -/
theorem assemblerEmitsLegalWords : Obligations.AssemblerEmitsLegalWords := by
  refine ⟨fun off v hok => ?raw, fun l es d hword h hd => assemble_cmd_decodes hword h hd, fun m i v hbad => ?mem,
    fun i hwf => ?immediate⟩
  case raw =>
    rw [assemble, asmWrite]
    split
    case isTrue hoff =>
      obtain ⟨i, hi⟩ := hok.resolve_left fun hne => hne hoff
      rw [hi]
    case isFalse => rfl
  case mem =>
    cases h : assemble (.mem m i v) with
    | error r => exact ⟨r, rfl⟩
    | ok es =>
      obtain ⟨hi, -⟩ := assemble_mem_ok h
      obtain hread | hsize := hbad
      · simp [assemble, hread] at h
      · exact absurd hi (Nat.not_lt.2 hsize)
  case immediate => simp [assemble, asmCommand, hwf]

end Sys2Proof.Proofs
end

section
/-! PROOFS. What a command does when it completes, one case per command (40_control R97), the errors it may raise
(60_exceptions R148), and the unwritten inputs it faults at (10_state R49). -/

namespace Sys2Proof.Proofs

open Sys2Proof.Machine Sys2Proof.Safety Sys2Proof.Laws

/-! ### Completion, command by command (40_control R97) -/

/-- The states in which each command completes without an error, and what it leaves. -/
inductive Completes (s : State) : Instr → State → Prop where
  | nop : Completes s .nop s
  | bwBit (b : Bool) (hopen : s.bwClosed = false) : Completes s (.bwBit b) (appendBits s [b])
  | bwBits {count : Nat} (hopen : s.bwClosed = false) (hcount : count ≤ 32) :
      Completes s (.bwBits count) (appendBits s (bitsMsb s.a0 count))
  | bwFlush (hopen : s.bwClosed = false) : Completes s .bwFlush (flushWhole s)
  | bwClose (hopen : s.bwClosed = false) : Completes s .bwClose { flushWhole (padded s) with bwClosed := true }
  | bwOpen (hclosed : s.bwClosed = true) : Completes s .bwOpen { s with bwClosed := false, bwBytes := 0 }
  | bwtRun {block : List Byte} (hpos : 1 ≤ block.length) (hcap : block.length ≤ 100000 * s.blockSize.toNat)
      (hlen : s.a0.toNat = block.length) (hblk : BlockIs s block) : Completes s .bwtRun (bwtResult s block)
  | hcount {syms : List Nat} (hmin : 2 ≤ s.a1.toNat) (hmax : s.a1.toNat ≤ 258) (hlen : s.a0.toNat = syms.length)
      (hcap : syms.length ≤ 900001) (hsyms : SymbolsAre s 0 syms) (hlt : ∀ x ∈ syms, x < s.a1.toNat) :
      Completes s .hcount (hcountResult s syms)
  | hbuild {freqs : List Nat} (hmin : 2 ≤ freqs.length) (hmax : freqs.length ≤ 258)
      (hlen : s.a0.toNat = freqs.length) (hfreqs : FreqsAre s freqs)
      (hcap : maxLen (huffLengths s.tie freqs) ≤ 20) :
      Completes s .hbuild (writeBook freqs.length (huffLengths s.tie freqs) s)
  | hencSym {sym : Nat} {bits : List Bool} (hopen : s.bwClosed = false) (hbook : s.bookValid = true)
      (hsym : sym < s.bookN.toNat) (hcode : CodeBits s sym bits) : Completes s (.hencSym sym) (appendBits s bits)
  | hencRun {syms : List Nat} {codes : List (List Bool)} (hopen : s.bwClosed = false) (hbook : s.bookValid = true)
      (hlen : s.a1.toNat = syms.length) (hcap : s.a0.toNat + s.a1.toNat ≤ 900001)
      (hsyms : SymbolsAre s s.a0.toNat syms) (hlt : ∀ x ∈ syms, x < s.bookN.toNat)
      (hcodes : List.Forall₂ (CodeBits s) syms codes) : Completes s .hencRun (appendBits s codes.flatten)

theorem codeBits_emitCode {s : State} {code : Word} {len x : Nat} {bits : List Bool} :
    CodeBits (emitCode s code len) x bits ↔ CodeBits s x bits := by
  simp [CodeBits]

/-- A run of symbols that is encoded has all its codes written; their bits are appended in order. -/
theorem codeBits_of_encodeSymbols {s t : State} {syms : List Nat} (h : encodeSymbols syms s = .done t) :
    ∃ codes, List.Forall₂ (CodeBits s) syms codes := by
  induction syms generalizing s with
  | nil => exact ⟨[], .nil⟩
  | cons x syms ih =>
    rw [encodeSymbols] at h
    split at h
    case h_1 => cases h
    case h_2 code hcode =>
      split at h
      case h_1 => cases h
      case h_2 len hlen =>
        obtain ⟨codes, hcodes⟩ := ih h
        exact ⟨_ :: codes, .cons ⟨code, len, hcode, hlen, bitsMsb_bitsOf code len.toNat⟩
          (hcodes.imp fun _ _ => codeBits_emitCode.1)⟩

theorem encodeSymbols_done_iff {s t : State} {syms : List Nat} :
    encodeSymbols syms s = .done t ↔
      ∃ codes, List.Forall₂ (CodeBits s) syms codes ∧ t = appendBits s codes.flatten := by
  constructor
  · intro h
    obtain ⟨codes, hcodes⟩ := codeBits_of_encodeSymbols h
    rw [encodeSymbols_of_codeBits hcodes] at h
    cases h
    exact ⟨codes, hcodes, rfl⟩
  · rintro ⟨codes, hcodes, rfl⟩
    exact encodeSymbols_of_codeBits hcodes

theorem completes_bwtRun {s t : State} (h : runBwtRun s = .done t) : Completes s .bwtRun t := by
  simp only [runBwtRun] at h
  split at h
  case isTrue => cases h
  case isFalse hok =>
    split at h
    case h_1 => cases h
    case h_2 block hread =>
      obtain ⟨hlen, hblk⟩ := (readRange_ok_iff ..).1 hread
      rw [capacity_eq] at hok
      rw [BitVec.ofNat_toNat, BitVec.setWidth_eq] at h
      cases h
      exact .bwtRun (by omega) (by omega) hlen.symm fun k hk => by rw [← hblk k (hlen ▸ hk), Nat.zero_add]

theorem completes_hcount {s t : State} (h : runHcount s = .done t) : Completes s .hcount t := by
  simp only [runHcount] at h
  split at h
  case isTrue => cases h
  case isFalse hgood =>
    rw [badAlphabet_iff] at hgood
    split at h
    case isTrue => cases h
    case isFalse hcap =>
      split at h
      case h_1 => cases h
      case h_2 => cases h
      case h_3 syms hscan =>
        cases h
        obtain ⟨hlen, hsyms, hlt⟩ := (scanSymbols_symbols_iff ..).1 hscan
        exact .hcount (by omega) (by omega) hlen.symm (hlen ▸ Nat.not_lt.1 hcap) (fun k hk => hsyms k (hlen ▸ hk)) hlt

theorem completes_hbuild {s t : State} (h : runHbuild s = .done t) : Completes s .hbuild t := by
  simp only [runHbuild] at h
  split at h
  case isTrue => cases h
  case isFalse hgood =>
    rw [badAlphabet_iff] at hgood
    split at h
    case h_1 => cases h
    case h_2 vs hread =>
      obtain ⟨hlen, hvs⟩ := (readRange_ok_iff ..).1 hread
      split at h
      case isTrue => cases h
      case isFalse hcap =>
        cases h
        have hn : s.a0.toNat = (vs.map BitVec.toNat).length := by simp [hlen]
        rw [hn]
        refine .hbuild (by omega) (by omega) hn (fun k hk => ?_) (Nat.not_lt.1 hcap)
        rw [List.getElem?_map, ← hvs k (hn ▸ hk), Nat.zero_add]

theorem completes_hencSym {s t : State} {sym : Nat} (h : runHencSym sym s = .done t) :
    Completes s (.hencSym sym) t := by
  simp only [runHencSym] at h
  split at h
  case isTrue => cases h
  case isFalse hopen =>
    split at h
    case isTrue => cases h
    case isFalse hbook =>
      split at h
      case isTrue => cases h
      case isFalse hsym =>
        obtain ⟨codes, hcodes, rfl⟩ := encodeSymbols_done_iff.1 h
        obtain ⟨bits, rest, hbits, hrest, rfl⟩ := List.forall₂_cons_left_iff.1 hcodes
        obtain rfl := List.forall₂_nil_left_iff.1 hrest
        simpa using Completes.hencSym (Bool.eq_false_of_not_eq_true hopen) (by simpa using hbook) (Nat.not_le.1 hsym) hbits

theorem completes_hencRun {s t : State} (h : runHencRun s = .done t) : Completes s .hencRun t := by
  simp only [runHencRun] at h
  split at h
  case isTrue => cases h
  case isFalse hopen =>
    split at h
    case isTrue => cases h
    case isFalse hbook =>
      split at h
      case isTrue => cases h
      case isFalse hcap =>
        split at h
        case h_1 => cases h
        case h_2 => cases h
        case h_3 syms hscan =>
          obtain ⟨hlen, hsyms, hlt⟩ := (scanSymbols_symbols_iff ..).1 hscan
          obtain ⟨codes, hcodes, rfl⟩ := encodeSymbols_done_iff.1 h
          exact .hencRun (Bool.eq_false_of_not_eq_true hopen) (by simpa using hbook) hlen.symm (Nat.not_lt.1 hcap)
            (fun k hk => hsyms k (hlen ▸ hk)) hlt hcodes

theorem completes_of_runCmd {i : Instr} {s t : State} (h : runCmd i s = .done t) : Completes s i t := by
  cases i with
  | nop =>
    cases h
    exact .nop
  | bwBit b =>
    simp only [runCmd, runBwBit] at h
    split at h
    case isTrue => cases h
    case isFalse hopen =>
      cases h
      exact .bwBit b (Bool.eq_false_of_not_eq_true hopen)
  | bwBits count =>
    simp only [runCmd, runBwBits] at h
    split at h
    case isTrue => cases h
    case isFalse hopen =>
      split at h
      case isTrue => cases h
      case isFalse hcount =>
        cases h
        exact .bwBits (Bool.eq_false_of_not_eq_true hopen) (Nat.not_lt.1 hcount)
  | bwFlush =>
    simp only [runCmd, runBwFlush] at h
    split at h
    case isTrue => cases h
    case isFalse hopen =>
      cases h
      exact .bwFlush (Bool.eq_false_of_not_eq_true hopen)
  | bwClose =>
    simp only [runCmd, runBwClose] at h
    split at h
    case isTrue => cases h
    case isFalse hopen =>
      cases h
      exact .bwClose (Bool.eq_false_of_not_eq_true hopen)
  | bwOpen =>
    simp only [runCmd, runBwOpen] at h
    split at h
    case isTrue hclosed =>
      cases h
      exact .bwOpen hclosed
    case isFalse => cases h
  | bwtRun => exact completes_bwtRun h
  | hcount => exact completes_hcount h
  | hbuild => exact completes_hbuild h
  | hencSym sym => exact completes_hencSym h
  | hencRun => exact completes_hencRun h

/-! ### Raises (60_exceptions R148, R150) -/

theorem mem_mayRaise_of_runCmd {i : Instr} {s u : State} {code : ErrCode} (h : runCmd i s = .raised code u) :
    code ∈ MayRaise i := by
  cases i with
  | nop => cases h
  | bwBit _ | bwBits _ | bwFlush | bwClose | bwOpen | bwtRun | hcount =>
    simp only [runCmd, runBwBit, runBwBits, runBwFlush, runBwClose, runBwOpen, runBwtRun, runHcount] at h
    repeat' split at h
    all_goals cases h
    all_goals simp [MayRaise]
  | hbuild => obtain ⟨rfl, -⟩ | ⟨rfl, -⟩ := runHbuild_raised h <;> simp [MayRaise]
  | hencSym x =>
    simp only [runCmd, runHencSym] at h
    repeat' split at h
    case isFalse => exact absurd h (encodeSymbols_ne_raised _ _ _ _)
    all_goals cases h
    all_goals simp [MayRaise]
  | hencRun =>
    simp only [runCmd, runHencRun] at h
    repeat' split at h
    case h_3 => exact absurd h (encodeSymbols_ne_raised _ _ _ _)
    all_goals cases h
    all_goals simp [MayRaise]

/-- No row of R148 names code 4 or 0. -/
theorem ne_of_mem_mayRaise {i : Instr} {code : ErrCode} (h : code ∈ MayRaise i) :
    code ≠ .internalConsistency ∧ code ≠ .none := by
  constructor <;> rintro rfl <;> cases i <;> simp [MayRaise] at h

/-- Settles O40: each raise is of its command's row, and no row holds the two other codes. -/
theorem raisesAreThoseOfTheTable : Obligations.RaisesAreThoseOfTheTable :=
  fun _ _ _ _ h => ⟨mem_mayRaise_of_runCmd h, ne_of_mem_mayRaise (mem_mayRaise_of_runCmd h)⟩

/-! ### Unwritten inputs (10_state R49) -/

theorem exec_of_uninit {i : Instr} {s : State} {m : MemId} {k : Nat} (h : runCmd i s = .uninit m k) :
    exec i s = .fault (.uninit m k) := by
  rw [exec_eq_commit, h, commit_uninit]

/-- A run with an unwritten element is read up to its first one. -/
theorem readRange_of_unwritten {w : Nat} {m : Mem w} {n k : Nat} (hk : k < n) (h : Mem.read m k = none) :
    ∃ i, i ≤ k ∧ Mem.read m i = none ∧ Mem.readRange m 0 n = .error i := by
  cases hread : Mem.readRange m 0 n with
  | ok vs =>
    obtain ⟨hlen, hvs⟩ := (readRange_ok_iff ..).1 hread
    have hsome := hvs k hk
    rw [Nat.zero_add, h, List.getElem?_eq_getElem (hlen.symm ▸ hk)] at hsome
    cases hsome
  | error i =>
    obtain ⟨-, -, hnone, hbefore⟩ := readRange_error hread
    refine ⟨i, Nat.not_lt.1 fun hlt => ?_, hnone, rfl⟩
    have hsome := hbefore k (Nat.zero_le k) hlt
    rw [h] at hsome
    cases hsome

/-- There is one first index, from `start` on, at which `p` fails. -/
theorem firstFailure_unique {p : Nat → Prop} {start i e : Nat} (hi : start ≤ i) (he : start ≤ e) (hpi : ¬ p i)
    (hpe : ¬ p e) (hbefore : ∀ j, start ≤ j → j < i → p j) (hbefore' : ∀ j, start ≤ j → j < e → p j) : e = i := by
  obtain hlt | heq | hgt := Nat.lt_trichotomy e i
  · exact absurd (hbefore e he hlt) hpe
  · exact heq
  · exact absurd (hbefore' i hi hgt) hpi

/-- An unwritten element that only good ones precede stops the scan. -/
theorem scanSymbols_of_symbolUnwritten {s : State} {bound start count i : Nat}
    (h : SymbolUnwritten s bound start count i) : scanSymbols s.symMem bound start count = .unwritten i := by
  obtain ⟨hle, hlt, hnone, hbefore⟩ := h
  have hbad : ¬ ∃ v, Mem.read s.symMem i = some v ∧ v.toNat < bound := by simp [hnone]
  cases hscan : scanSymbols s.symMem bound start count with
  | symbols syms =>
    obtain ⟨hlen, hread, -⟩ := (scanSymbols_symbols_iff ..).1 hscan
    have hsome := hread (i - start) (by omega)
    rw [Nat.add_sub_cancel' hle, hnone, List.getElem?_eq_getElem (by omega)] at hsome
    cases hsome
  | tooBig =>
    obtain ⟨e, v, hle', -, hv, hbig, hbefore'⟩ := scanSymbols_tooBig hscan
    have hbad' : ¬ ∃ u, Mem.read s.symMem e = some u ∧ u.toNat < bound := by simp [hv, hbig]
    obtain rfl := firstFailure_unique hle hle' hbad hbad' hbefore hbefore'
    rw [hv] at hnone
    cases hnone
  | unwritten e =>
    obtain ⟨hle', -, hnone', hbefore'⟩ := scanSymbols_unwritten hscan
    have hbad' : ¬ ∃ u, Mem.read s.symMem e = some u ∧ u.toNat < bound := by simp [hnone']
    obtain rfl := firstFailure_unique hle hle' hbad hbad' hbefore hbefore'
    rfl

theorem runCmd_bwtRun_unwritten {s : State} {k : Nat} (hpos : 1 ≤ s.a0.toNat)
    (hcap : s.a0.toNat ≤ 100000 * s.blockSize.toNat) (hk : k < s.a0.toNat) (hnone : Mem.read s.blkMem k = none) :
    ∃ i, i ≤ k ∧ Mem.read s.blkMem i = none ∧ runCmd .bwtRun s = .uninit .blkMem i := by
  obtain ⟨i, hik, hi, hread⟩ := readRange_of_unwritten hk hnone
  have hok : ¬ (s.a0.toNat < 1 ∨ s.capacity < s.a0.toNat) := by
    rw [capacity_eq]
    omega
  exact ⟨i, hik, hi, by simp only [runCmd, runBwtRun, hok, if_false, hread]⟩

/-- Settles O38: each loop stops at its first unwritten element, and a book entry is read code first. -/
theorem unwrittenInputsFault : Obligations.UnwrittenInputsFault := by
  refine ⟨fun s k hpos hcap hk hnone => ?bwt, fun s k hmin hmax hk hnone => ?build,
    fun s i hmin hmax hcap hunw => exec_of_uninit ?count, fun s i hopen hbook hcap hunw => exec_of_uninit ?run,
    fun s x hopen hbook hx => ⟨fun hcode => exec_of_uninit ?code, fun hcode hlen => exec_of_uninit ?len⟩⟩
  case bwt =>
    obtain ⟨i, hik, hi, hrun⟩ := runCmd_bwtRun_unwritten hpos hcap hk hnone
    exact ⟨i, hik, hi, exec_of_uninit hrun⟩
  case build =>
    obtain ⟨i, hik, hi, hread⟩ := readRange_of_unwritten hk hnone
    exact ⟨i, hik, hi, exec_of_uninit (by simp [runCmd, runHbuild, badAlphabet_eq_false hmin hmax, hread])⟩
  case count =>
    simp [runCmd, runHcount, badAlphabet_eq_false hmin hmax, Config.symCap, Nat.not_lt.2 hcap,
      scanSymbols_of_symbolUnwritten hunw]
  case run =>
    simp [runCmd, runHencRun, hopen, hbook, Config.symCap, Nat.not_lt.2 hcap, scanSymbols_of_symbolUnwritten hunw]
  case code => simp [runCmd_hencSym_inBook hopen hbook hx, encodeSymbols, hcode]
  case len =>
    obtain ⟨code, hcode⟩ := Option.isSome_iff_exists.1 hcode
    simp [runCmd_hencSym_inBook hopen hbook hx, encodeSymbols, hcode, hlen]

end Sys2Proof.Proofs
end

section
/-! PROOFS. What a host access, an event and a step can do, case by case (20_memory R55 to R66, 40_control R95 to R100):
reads while a command runs, the flags each operation writes (10_state section 9), and the engine's turn. -/

namespace Sys2Proof.Proofs

open Sys2Proof.Machine Sys2Proof.Safety Sys2Proof.Laws

/-! ### Host reads (20_memory R55, R59) -/

/-- A read that is answered sets the response, and may draw a free value. -/
theorem hostRead_outside {g : Target} {s t : State} (h : hostRead g s = .next t) :
    ∃ r d, t = { s with reply := r, draws := d } := by
  cases g with
  | reg r =>
    rw [hostRead] at h
    split at h <;> cases h <;> exact ⟨_, _, rfl⟩
  | reserved | unmapped =>
    cases h
    exact ⟨_, _, rfl⟩
  | cell m i =>
    rw [hostRead] at h
    split at h
    · cases h
      exact ⟨_, _, rfl⟩
    · split at h <;> cases h
      exact ⟨_, _, rfl⟩

theorem busAccess_read_outside {a : Access} {s t : State} (hop : a.op = .read) (h : busAccess a s = .next t) :
    ∃ r d, t = { s with reply := r, draws := d } := by
  rw [busAccess, hop] at h
  split at h
  · cases h
    exact ⟨_, _, rfl⟩
  · exact hostRead_outside h

/-- Settles O45: an answered read writes the response and the draw counter alone. -/
theorem hostReadsHaveNoSideEffects : Obligations.HostReadsHaveNoSideEffects := by
  intro s t a hop h
  obtain ⟨r, d, rfl⟩ := busAccess_read_outside hop h
  exact ⟨sameBlock_reply s r, rfl, rfl⟩

theorem hostRead_reg_plain {s : State} {r : Reg} (h : s.busy = false ∨ resultReg r = false) :
    hostRead (.reg r) s = .next { s with reply := .data (s.readReg r) } := by
  obtain h | h := h <;> simp [hostRead, h]

theorem hostRead_reg_busyResult {s : State} {r : Reg} (hbusy : s.busy = true) (hr : resultReg r = true) :
    hostRead (.reg r) s = .next (replyFree s) := by
  simp [hostRead, hbusy, hr]

theorem hostRead_cell_busy {s : State} (hbusy : s.busy = true) (m : MemId) (i : Nat) :
    hostRead (.cell m i) s = .next (replyFree s) := by
  simp [hostRead, hbusy]

/-- The registers whose busy reads R59 makes unspecified, and the others. -/
theorem resultReg_iff {r : Reg} :
    resultReg r = true ↔ r ∈ [Reg.bwtOrigin, .bwtLen, .bookN, .bookMaxlen, .bwNbits, .bwBytes] := by
  cases r <;> decide

/-- Settles O47: an idle read by its rule, and a busy read by the kind of what is read. -/
theorem busyReads : Obligations.BusyReads := by
  refine ⟨fun s off hidle hoff => ⟨fun r hr => ?idleReg, fun m i v hcell hv => ?idleCell⟩, fun s off hbusy hoff =>
    ⟨fun hres => ?reserved, fun r hr hmem => ?plain, fun r hr hmem => ?result, fun m i hcell => ?element⟩⟩
  all_goals rw [busAccess_wordAccess_read hoff]
  case idleReg => rw [hr, hostRead_reg_plain (.inl hidle)]
  case idleCell => rw [hcell, hostRead_written hidle hv]
  case reserved => rw [hres, hostRead]
  case plain =>
    have hplain : resultReg r = false := by
      clear hr
      revert r
      decide
    rw [hr, hostRead_reg_plain (.inr hplain)]
  case result =>
    rw [hr, hostRead_reg_busyResult hbusy (resultReg_iff.2 hmem)]
    rfl
  case element =>
    rw [hcell, hostRead_cell_busy hbusy]
    rfl

/-! ### Accesses that write no CTRL (20_memory R55 to R59, 40_control R96, R99, R100) -/

/-- What an access that does not write CTRL can do to the block. -/
inductive Answered (s : State) : State → Prop where
  | outside (r : Reply) (d : Nat) : Answered s { s with reply := r, draws := d }
  | captured {code : ErrCode} (info : Word) (hcode : code = .busy ∨ code = .invalidArgument) :
      Answered s { capture code true info s with reply := .done }
  | configured (size : BitVec 4) (tie : Bool) (hidle : s.busy = false) (hmin : 1 ≤ size.toNat)
      (hmax : size.toNat ≤ 9) : Answered s { s with blockSize := size, tie := tie, reply := .done }
  | accepted (d : Word) (hidle : s.busy = false) :
      Answered s { s with pend := some { word := d, a0 := s.arg0, a1 := s.arg1 }, reply := .done }
  | operands (x y : Word) (hidle : s.busy = false) : Answered s { s with arg0 := x, arg1 := y, reply := .done }
  | stored (m : MemId) (i : Nat) (d : Word) (hidle : s.busy = false) (hi : i < memSize m) :
      Answered s { s.writeCell m i d with reply := .done }

theorem lt_memSize_of_targetOf {off : Offset} {m : MemId} {i : Nat} (h : targetOf off = .cell m i) : i < memSize m := by
  by_cases hwin : ∃ n, inWindow off.toNat n = true
  · obtain ⟨n, hn⟩ := hwin
    obtain ⟨htarget, hlt⟩ := targetOf_inWindow hn
    rw [htarget] at h
    cases h
    exact hlt
  · by_cases hlow : off.toNat < 0x1000
    · cases hreg : regAt off.toNat with
      | some r =>
        rw [targetOf_of_regAt_some hreg] at h
        cases h
      | none =>
        rw [targetOf_of_regAt_none hlow hreg] at h
        cases h
    · rw [targetOf_inNoWindow (Nat.not_lt.1 hlow) (not_exists.1 hwin)] at h
      cases h

theorem answered_cfgWrite {s : State} (hidle : s.busy = false) (off : Offset) (d : Word) :
    Answered s { cfgWrite off d s with reply := .done } := by
  by_cases hsize : d.toNat % 16 < 1 ∨ 9 < d.toNat % 16
  · rw [cfgWrite_badSize hidle hsize]
    exact .captured d (.inr rfl)
  · have hlow : (d.extractLsb' 0 4).toNat = d.toNat % 16 := by simp
    rw [not_or, Nat.not_lt, Nat.not_lt] at hsize
    rw [cfgWrite_accepted hidle hsize.1 hsize.2]
    rw [← hlow] at hsize
    exact .configured _ _ hidle hsize.1 hsize.2

theorem answered_regWrite {r : Reg} (hctrl : r ≠ .ctrl) (off : Offset) (d : Word) (s : State) :
    Answered s { regWrite r off d s with reply := .done } := by
  by_cases hacts : r ∈ [Reg.cmd, .cfg, .arg0, .arg1]
  · cases hidle : s.busy with
    | true =>
      rw [regWrite_busy hidle hacts]
      exact .captured _ (.inl rfl)
    | false =>
      simp only [List.mem_cons, List.not_mem_nil, or_false] at hacts
      obtain rfl | rfl | rfl | rfl := hacts
      · rw [regWrite, cmdWrite_idle hidle]
        exact .accepted d hidle
      · exact answered_cfgWrite hidle off d
      · rw [regWrite, arg0Write_idle hidle]
        exact .operands d s.arg1 hidle
      · rw [regWrite, arg1Write_idle hidle]
        exact .operands s.arg0 d hidle
  · rw [regWrite_readOnly (List.not_mem_cons_of_ne_of_not_mem hctrl hacts)]
    exact .outside .done s.draws

theorem answered_cellWrite {m : MemId} {i : Nat} (hi : i < memSize m) (off : Offset) (d : Word) (s : State) :
    Answered s { cellWrite m i off d s with reply := .done } := by
  cases hm : writableMem m with
  | false =>
    rw [cellWrite_readOnly hm]
    exact .outside .done s.draws
  | true =>
    cases hidle : s.busy with
    | true =>
      rw [cellWrite_busy hidle hm]
      exact .captured _ (.inl rfl)
    | false =>
      rw [cellWrite_idle hidle hm]
      exact .stored m i d hidle hi

/-- An access writes CTRL where it is a well-formed write at CTRL's offset (20_memory R57, 40_control R95). -/
def WritesCtrl (a : Access) (d : Word) : Prop :=
  badForm a = false ∧ targetOf a.off = .reg .ctrl ∧ a.op = .write d

/-- Every access is answered, or writes CTRL. -/
theorem busAccess_cases {a : Access} {s t : State} (h : busAccess a s = .next t) :
    Answered s t ∨ ∃ d, WritesCtrl a d ∧ t = { ctrlWrite d s with reply := .done } := by
  by_cases hbad : badForm a = true
  · rw [busAccess_badForm hbad] at h
    cases h
    exact .inl (.outside .busError s.draws)
  · cases hop : a.op with
    | read =>
      obtain ⟨r, d, rfl⟩ := busAccess_read_outside hop h
      exact .inl (.outside r d)
    | write d =>
      rw [busAccess, if_neg hbad, hop] at h
      cases h
      cases htarget : targetOf a.off with
      | reserved => exact .inl (.outside .done s.draws)
      | unmapped => exact .inl (.outside .busError s.draws)
      | cell m i => exact .inl (answered_cellWrite (lt_memSize_of_targetOf htarget) a.off d s)
      | reg r =>
        by_cases hctrl : r = .ctrl
        · subst hctrl
          exact .inr ⟨d, ⟨Bool.eq_false_of_not_eq_true hbad, htarget, hop⟩, rfl⟩
        · exact .inl (answered_regWrite hctrl a.off d s)

/-! ### Which operation writes which flag (10_state section 9) -/

/-- Of the flags and the latch a command writes BW_CLOSED, BOOK_VALID and BWT_VALID by the commands named alone. -/
theorem completes_flags {s t : State} {i : Instr} (h : Completes s i t) :
    (t.bwClosed ≠ s.bwClosed → i = .bwClose ∨ i = .bwOpen) ∧ (t.bookValid ≠ s.bookValid → i = .hbuild) ∧
      (t.bwtValid ≠ s.bwtValid → i = .bwtRun ∧ t.bwtValid = true) ∧ t.err = s.err ∧ t.pend = s.pend := by
  cases h with
  | nop | bwBit | bwBits | bwFlush | hencSym | hencRun => simp
  | bwClose | bwOpen => simp [padded]
  | bwtRun => simp [bwtResult]
  | hcount => simp [hcountResult]
  | hbuild => simp

/-- An access that writes no CTRL changes no flag but BUSY and ERR, and clears neither. -/
theorem answered_flags {s t : State} (h : Answered s t) :
    t.bwClosed = s.bwClosed ∧ t.bookValid = s.bookValid ∧ t.bwtValid = s.bwtValid ∧ (s.err = true → t.err = true) ∧
      (s.busy = true → t.busy = true) := by
  cases h with
  | outside | configured | operands => simp [State.busy]
  | captured => simp [State.busy, capture_err]
  | accepted => simp [State.busy]
  | stored =>
    rw [writeCell_frame]
    simp [State.busy]

/-- Settles O41: the flags after each command and after each access that writes no CTRL, case by case. -/
theorem onlyListedOperationsWriteFlags : Obligations.OnlyListedOperationsWriteFlags := by
  refine ⟨fun s t i h => ?command, fun s t a hctrl h => ?access⟩
  case command =>
    rw [exec_eq_commit, commit_next_iff] at h
    obtain hdone | ⟨code, u, hraised, rfl⟩ := h
    · obtain ⟨hclosed, hbook, hbwt, herr, hpend⟩ := completes_flags (completes_of_runCmd hdone)
      exact ⟨hclosed, hbook, hbwt, fun h => herr.trans h, by rw [State.busy, hpend, State.busy]⟩
    · have hbook : code = .encodingFailed → i = .hbuild := fun hcode => eq_hbuild_of_encodingFailed (hcode ▸ hraised)
      obtain rfl := runCmd_raised_eq hraised
      simp only [capture_bwClosed, capture_bookValid, capture_bwtValid, capture_err, State.busy, capture_pend]
      exact ⟨fun h => absurd rfl h, fun h => hbook (by_contra fun hcode => h (if_neg hcode)), fun h => absurd rfl h,
        fun _ => trivial, trivial⟩
  case access =>
    obtain hans | ⟨d, ⟨-, htarget, -⟩, -⟩ := busAccess_cases h
    · exact answered_flags hans
    · exact absurd htarget hctrl

/-! ### The engine's turn (40_control R97) -/

theorem engineTurn_idle {s : State} (hidle : s.pend = none) : engineTurn s = .next s := by
  rw [engineTurn, hidle]

theorem engineTurn_pending {s : State} {p : Pending} (hp : s.pend = some p) :
    engineTurn s = finishTurn p.sent s (execWord p.word s) := by
  rw [engineTurn, hp]

theorem finishTurn_stalled {s t : State} {sent : Nat} (hstall : 0 < s.sinkStall)
    (hsent : sent < (newBytes s t).length) :
    finishTurn sent s (.next t) = .next { s with sinkStall := s.sinkStall - 1 } :=
  if_pos ⟨hstall, hsent⟩

theorem execWord_decoded {w : Word} {i : Instr} (h : decode w = .ok i) (s : State) : execWord w s = exec i s := by
  rw [execWord, h]

/-- Settles O7: with nothing pending there is no effect, and a delayed one is put off whole. -/
theorem idleOrStalledTurnChangesNothing : Obligations.IdleOrStalledTurnChangesNothing := by
  refine ⟨fun s => engineTurn_idle, fun s t p k hp hstall hexec hsent => ?_⟩
  have hbytes : p.sent < (newBytes s t).length := by
    rw [newBytes, List.length_drop]
    omega
  rw [engineTurn_pending hp, hexec, finishTurn_stalled (by omega) hbytes, hstall, Nat.add_sub_cancel]

/-- A command's meaning is a next state or a fault (60_exceptions R157). -/
theorem exec_ne_refused (i : Instr) (s : State) (r : Refusal) : exec i s ≠ .refused r := by
  rw [exec_eq_commit]
  cases runCmd i s <;> simp

theorem engineTurn_fault {s : State} {p : Pending} {i : Instr} {r : Fault} (hp : s.pend = some p)
    (hd : decode p.word = .ok i) (h : exec i s = .fault r) : engineTurn s = .fault r := by
  rw [engineTurn_pending hp, execWord_decoded hd, h, finishTurn]

/-- With the sink accepting, the turn is the command's effect, with the bytes the sink does not have yet. -/
theorem engineTurn_ready {s t : State} {p : Pending} {i : Instr} (hp : s.pend = some p) (hd : decode p.word = .ok i)
    (hready : s.sinkStall = 0) (h : exec i s = .next t) :
    engineTurn s = .next (deliver p.sent s t).complete := by
  rw [engineTurn_pending hp, execWord_decoded hd, h, finishTurn_ready hready]

theorem engineTurn_ready_unsent {s t : State} {p : Pending} {i : Instr} (hp : s.pend = some p)
    (hd : decode p.word = .ok i) (hready : s.sinkStall = 0) (hsent : p.sent = 0) (h : exec i s = .next t) :
    engineTurn s = .next t.complete := by
  rw [engineTurn_ready hp hd hready h, hsent, deliver_zero (exec_sink h)]

/-! ### The agents' moves (00_scope R18, 20_memory R64) -/

theorem step_of_event {s : State} {e : Event} {es : List Event} (h : s.events = e :: es) :
    step s = runEvent e { s with events := es } := by
  rw [step, advance, h]

theorem step_of_noEvent {s : State} (h : s.events = []) : step s = engineTurn s := by
  rw [step, advance, h]

/-- A command placed with the engine's turn next and the sink accepting is the state a CMD write leaves (log
entry 2). -/
theorem step_withFetchWord (s : State) (w : Nat) :
    step (s.withFetchWord 32 w) =
      engineTurn { s with
        pend := some { word := BitVec.ofNat 32 w, a0 := s.arg0, a1 := s.arg1 }, sinkStall := 0 } := by
  have hword : BitVec.ofNat 32 (w % 2 ^ 32) = BitVec.ofNat 32 w := BitVec.eq_of_toNat_eq (by simp)
  rw [State.withFetchWord, hword]
  rfl

theorem pollTurn_busy {s : State} (hbusy : s.busy = true) :
    pollTurn s = { s with reply := .data s.statusWord, events := .engine :: .poll :: s.events } :=
  if_pos hbusy

theorem pollTurn_idle {s : State} (hidle : s.busy = false) : pollTurn s = { s with reply := .data s.statusWord } :=
  if_neg (Bool.eq_false_iff.1 hidle)

/-- What the sink takes of a command whose effect appends `out`. -/
theorem sinkTakes_eq {s u : State} {p : Pending} {out : List Byte} (n : Nat) (hp : s.pend = some p)
    (hexec : execWord p.word s = .next u) (hsink : u.sink = s.sink ++ out) :
    sinkTakes n s =
      { s with
        sink := s.sink ++ (out.drop p.sent).take n
        pend := some { p with sent := p.sent + min n (out.length - p.sent) } } := by
  simp only [sinkTakes, hp, pendingBytes_eq hp hexec, newBytes_eq hsink, List.length_take, List.length_drop]

/-- Settles O6: the due event is the step, and the engine's turn is the execution of the word pending. -/
theorem stepRunsDecodedCommand : Obligations.StepRunsDecodedCommand := by
  refine ⟨fun s => step_of_noEvent, fun s es => ⟨fun a => step_of_event, step_of_event, step_of_event,
    fun h => ⟨fun hbusy => ?pollBusy, fun hidle => ?pollIdle⟩, fun k => step_of_event, fun n h =>
      ⟨fun hnone => ?takesNone, fun p u hp hexec => ?takes⟩⟩, fun s p i hp hd =>
    ⟨exec_ne_refused i s, fun r => engineTurn_fault hp hd, fun hready t h =>
      ⟨fun hsent => engineTurn_ready_unsent hp hd hready hsent h, ?ready⟩⟩, fun s w i hd =>
    ⟨fun t h => ?placed, fun r h => ?placedFault⟩⟩
  case pollBusy =>
    rw [step_of_event h, runEvent, pollTurn_busy (s := { s with events := es }) hbusy]
    rfl
  case pollIdle =>
    rw [step_of_event h, runEvent, pollTurn_idle (s := { s with events := es }) hidle]
    rfl
  case takesNone => rw [step_of_event h, runEvent, sinkTakes, hnone]
  case takes =>
    obtain ⟨out, hout⟩ := execWord_sink hexec
    exact ⟨out, hout, by rw [step_of_event h, runEvent, sinkTakes_eq n (s := { s with events := es }) hp hexec hout]⟩
  case ready =>
    obtain ⟨out, hout⟩ := exec_sink h
    refine ⟨out, hout, ?_⟩
    rw [engineTurn_ready hp hd hready h, deliver, newBytes_eq hout]
    rfl
  case placed =>
    rw [step_withFetchWord]
    exact engineTurn_ready_unsent rfl hd rfl rfl h
  case placedFault =>
    rw [step_withFetchWord]
    exact engineTurn_fault rfl hd h

/-- What a step that is no reset can do to the block, its sink and its command. -/
inductive Moves (s : State) : State → Prop where
  | outside (stall : Nat) (events : List Event) (reply : Reply) (draws : Nat) :
      Moves s { s with sinkStall := stall, events := events, reply := reply, draws := draws }
  | answered {t : State} (h : Answered s t) : Moves s t
  | cleared : Moves s { clearError s with reply := .done }
  | taken (n : Nat) : Moves s (sinkTakes n s)
  | completed {p : Pending} {u : State} (hp : s.pend = some p) (hexec : execWord p.word s = .next u) :
      Moves s (deliver p.sent s u).complete

/-- What a reset step does, soft or hard (70_reset R166, R170). -/
inductive Resets (s : State) : State → Prop where
  | soft : Resets s { softReset s with reply := .done }
  | hard : Resets s (hardReset s)

theorem moves_of_engineTurn {s t : State} (h : engineTurn s = .next t) : Moves s t := by
  cases hp : s.pend with
  | none =>
    rw [engineTurn_idle hp] at h
    cases h
    exact .outside s.sinkStall s.events s.reply s.draws
  | some p =>
    rw [engineTurn_pending hp] at h
    cases hexec : execWord p.word s with
    | next u =>
      rw [hexec, finishTurn] at h
      split at h <;> cases h
      · exact .outside (s.sinkStall - 1) s.events s.reply s.draws
      · exact .completed hp hexec
    | fault r =>
      rw [hexec] at h
      cases h
    | refused r =>
      rw [hexec] at h
      cases h

theorem moves_or_resets_of_ctrlWrite (d : Word) (s : State) :
    Moves s { ctrlWrite d s with reply := .done } ∨
      d.getLsbD 0 = true ∧ Resets s { ctrlWrite d s with reply := .done } := by
  cases h0 : d.getLsbD 0 with
  | true =>
    rw [ctrlWrite_softReset h0]
    exact .inr ⟨rfl, .soft⟩
  | false =>
    cases h1 : d.getLsbD 1 with
    | true =>
      rw [ctrlWrite_clearError h0 h1]
      exact .inl .cleared
    | false =>
      rw [ctrlWrite_noEffect h0 h1]
      exact .inl (.outside s.sinkStall s.events .done s.draws)

theorem moves_or_resets_of_runEvent {e : Event} {s t : State} (h : runEvent e s = .next t) :
    Moves s t ∨ ¬ NoReset e ∧ Resets s t := by
  cases e with
  | access a =>
    obtain hans | ⟨d, ⟨hform, htarget, hop⟩, rfl⟩ := busAccess_cases h
    · exact .inl (.answered hans)
    · exact (moves_or_resets_of_ctrlWrite d s).imp_right fun ⟨h0, hreset⟩ =>
        ⟨fun hno => hno ⟨hform, htarget, d, hop, h0⟩, hreset⟩
  | poll =>
    rw [runEvent, pollTurn] at h
    split at h <;> cases h <;> exact .inl (.outside ..)
  | engine => exact .inl (moves_of_engineTurn h)
  | hardReset =>
    cases h
    exact .inr ⟨id, .hard⟩
  | sinkStall k =>
    cases h
    exact .inl (.outside ..)
  | sinkTakes n =>
    cases h
    exact .inl (.taken n)

/-- A step takes the oldest event off, and then moves the block or resets it. -/
theorem step_cases {s t : State} (h : step s = .next t) :
    ∃ es, Moves { s with events := es } t ∨
      (∃ e es', s.events = e :: es' ∧ ¬ NoReset e) ∧ Resets { s with events := es } t := by
  cases hev : s.events with
  | nil =>
    rw [step_of_noEvent hev] at h
    exact ⟨s.events, .inl (moves_of_engineTurn h)⟩
  | cons e es =>
    rw [step_of_event hev] at h
    exact ⟨es, (moves_or_resets_of_runEvent h).imp_right fun ⟨hno, hreset⟩ => ⟨⟨e, es, rfl, hno⟩, hreset⟩⟩

end Sys2Proof.Proofs
end

section
/-! PROOFS. What a command does not look at: the error registers, the ARG registers once latched, the sink and the
model's own fields (10_state sections 5 and 8); and the bound on the turns it takes to complete (40_control R106). -/

namespace Sys2Proof.Proofs

open Sys2Proof.Machine Sys2Proof.Safety Sys2Proof.Laws

/-! ### The outside of a command -/

/-- `t` as a command would leave it in the surroundings of `o`: with the error registers, the ARG registers, the latch
and the model's own fields of `o`, and with what `t`'s sink holds behind its first `n` bytes at the end of `o`'s. -/
def transplant (o : State) (n : Nat) (t : State) : State :=
  { t with
    err := o.err
    errCode := o.errCode
    errSrc := o.errSrc
    errInfo := o.errInfo
    arg0 := o.arg0
    arg1 := o.arg1
    pend := o.pend
    sink := o.sink ++ t.sink.drop n
    sinkStall := o.sinkStall
    events := o.events
    reply := o.reply
    draws := o.draws }

@[simp] theorem transplant_self (s : State) : transplant s s.sink.length s = s := by
  simp [transplant]

/-- A command's end with another state in it. -/
def mapEnd (f : State → State) : CmdEnd → CmdEnd
  | .done t => .done (f t)
  | .raised code t => .raised code (f t)
  | .uninit mem i => .uninit mem i

/-! ### No command looks at its outside -/

theorem flushWhole_transplant {o t : State} {n : Nat} (hn : n ≤ t.sink.length) :
    flushWhole (transplant o n t) = transplant o n (flushWhole t) := by
  simp [flushWhole_eq, transplant, List.drop_append_of_le_length hn]

theorem appendBit_transplant {o t : State} {n : Nat} (hn : n ≤ t.sink.length) (b : Bool) :
    appendBit (transplant o n t) b = transplant o n (appendBit t b) := by
  have hcache : (transplant o n t).cache = t.cache := rfl
  by_cases hfull : t.cache.length = Config.cacheBits
  · simp only [appendBit, hcache, if_pos hfull, flushWhole_transplant hn]
    rfl
  · simp only [appendBit, hcache, if_neg hfull]
    rfl

theorem le_appendBits_sink_length {t : State} {n : Nat} (hn : n ≤ t.sink.length) (bits : List Bool) :
    n ≤ (appendBits t bits).sink.length := by
  obtain ⟨out, hout⟩ := appendBits_sink bits t
  rw [hout, List.length_append]
  omega

theorem appendBits_transplant {o t : State} {n : Nat} (hn : n ≤ t.sink.length) (bits : List Bool) :
    appendBits (transplant o n t) bits = transplant o n (appendBits t bits) := by
  induction bits generalizing t with
  | nil => rfl
  | cons b bits ih =>
    have hcons : ∀ u, appendBits u (b :: bits) = appendBits (appendBit u b) bits := fun _ => rfl
    rw [hcons, hcons, appendBit_transplant hn]
    exact ih (le_appendBits_sink_length hn [b])

theorem encodeSymbols_transplant {o t : State} {n : Nat} (hn : n ≤ t.sink.length) (syms : List Nat) :
    encodeSymbols syms (transplant o n t) = mapEnd (transplant o n) (encodeSymbols syms t) := by
  induction syms generalizing t with
  | nil => rfl
  | cons x syms ih =>
    have hcodes : (transplant o n t).bookCode = t.bookCode := rfl
    have hlens : (transplant o n t).bookLen = t.bookLen := rfl
    rw [encodeSymbols, encodeSymbols, hcodes, hlens]
    cases Mem.read t.bookCode x with
    | none => rfl
    | some code =>
      cases Mem.read t.bookLen x with
      | none => rfl
      | some len =>
        simp only [emitCode]
        rw [appendBits_transplant hn]
        exact ih (le_appendBits_sink_length hn _)

/-- A check that looks at neither side's outside. -/
theorem mapEnd_ite {f : State → State} {c : Prop} [Decidable c] {a b : CmdEnd} :
    mapEnd f (if c then a else b) = if c then mapEnd f a else mapEnd f b :=
  apply_ite ..

/-- A command run in other surroundings, its operands being the same, ends the same way there. -/
theorem runCmd_transplant {o s : State} {n : Nat} (i : Instr) (h0 : (transplant o n s).a0 = s.a0)
    (h1 : (transplant o n s).a1 = s.a1) (hn : n ≤ s.sink.length) :
    runCmd i (transplant o n s) = mapEnd (transplant o n) (runCmd i s) := by
  have hclosed : (transplant o n s).bwClosed = s.bwClosed := rfl
  have hbook : (transplant o n s).bookValid = s.bookValid := rfl
  have hbookN : (transplant o n s).bookN = s.bookN := rfl
  have hsym : (transplant o n s).symMem = s.symMem := rfl
  have hfreq : (transplant o n s).freqMem = s.freqMem := rfl
  have hblk : (transplant o n s).blkMem = s.blkMem := rfl
  have hcapacity : (transplant o n s).capacity = s.capacity := rfl
  have htie : (transplant o n s).tie = s.tie := rfl
  cases i with
  | nop => rfl
  | bwBit b =>
    simp only [runCmd, runBwBit, mapEnd_ite, hclosed, appendBit_transplant hn]
    rfl
  | bwBits count =>
    simp only [runCmd, runBwBits, mapEnd_ite, hclosed, h0, appendBits_transplant hn]
    rfl
  | bwFlush =>
    simp only [runCmd, runBwFlush, mapEnd_ite, hclosed, flushWhole_transplant hn]
    rfl
  | bwClose =>
    have hpadded : padded (transplant o n s) = transplant o n (padded s) := rfl
    cases hc : s.bwClosed with
    | true =>
      rw [runCmd_closed (i := .bwClose) rfl hc, runCmd_closed (i := .bwClose) rfl (hclosed.trans hc)]
      rfl
    | false =>
      rw [runCmd_bwClose_open hc, runCmd_bwClose_open (hclosed.trans hc), hpadded,
        flushWhole_transplant (t := padded s) hn]
      rfl
  | bwOpen =>
    simp only [runCmd, runBwOpen, mapEnd_ite, hclosed]
    rfl
  | bwtRun =>
    simp only [runCmd, runBwtRun, mapEnd_ite, h0, hblk, hcapacity]
    cases Mem.readRange s.blkMem 0 s.a0.toNat <;> rfl
  | hcount =>
    simp only [runCmd, runHcount, mapEnd_ite, h0, h1, hsym]
    cases scanSymbols s.symMem s.a1.toNat 0 s.a0.toNat <;> rfl
  | hbuild =>
    simp only [runCmd, runHbuild, mapEnd_ite, h0, hfreq, htie]
    cases Mem.readRange s.freqMem 0 s.a0.toNat with
    | error e => rfl
    | ok freqs =>
      simp only [mapEnd_ite]
      rfl
  | hencSym sym =>
    simp only [runCmd, runHencSym, mapEnd_ite, hclosed, hbook, hbookN, encodeSymbols_transplant hn]
    rfl
  | hencRun =>
    simp only [runCmd, runHencRun, mapEnd_ite, h0, h1, hclosed, hbook, hbookN, hsym, encodeSymbols_transplant hn]
    cases scanSymbols s.symMem s.bookN.toNat s.a0.toNat s.a1.toNat <;> rfl

/-- A command leaves its own outside as it was, and only appends to the sink. -/
theorem transplant_of_done {i : Instr} {s t : State} (h : runCmd i s = .done t) : transplant s s.sink.length t = t := by
  have hself := runCmd_transplant (o := s) i (by rw [transplant_self]) (by rw [transplant_self]) le_rfl
  rw [transplant_self, h] at hself
  exact (CmdEnd.done.inj hself).symm

/-! ### Two states with one command -/

/-- `s'` is `s` in other surroundings, and the same command is pending in both, if any. -/
def SameCommand (s s' : State) : Prop :=
  s' = transplant s' s.sink.length s ∧
    s'.pend.map (fun p => (p.word, p.a0, p.a1)) = s.pend.map fun p => (p.word, p.a0, p.a1)

/-- The two have one word and the same operands, so it ends in both the same way. -/
theorem runCmd_of_sameCommand {s s' : State} {p : Pending} (h : SameCommand s s') (hp : s.pend = some p) :
    ∃ p', s'.pend = some p' ∧ p'.word = p.word ∧
      ∀ i, runCmd i s' = mapEnd (transplant s' s.sink.length) (runCmd i s) := by
  obtain ⟨hsame, hcmd⟩ := h
  rw [hp, Option.map_some, Option.map_eq_some_iff] at hcmd
  obtain ⟨p', hp', hfields⟩ := hcmd
  simp only [Prod.mk.injEq] at hfields
  obtain ⟨hword, h0, h1⟩ := hfields
  refine ⟨p', hp', hword, fun i => ?_⟩
  have hrun := runCmd_transplant (o := s') (s := s) (n := s.sink.length) i
    (by rw [← hsame, State.a0, State.a0, hp', hp]; exact h0) (by rw [← hsame, State.a1, State.a1, hp', hp]; exact h1)
    le_rfl
  rwa [← hsame] at hrun

theorem newBytes_transplant (s s' t : State) : newBytes s' (transplant s' s.sink.length t) = newBytes s t :=
  newBytes_eq rfl

theorem pendingBytes_of_sameCommand {s s' : State} (h : SameCommand s s') : pendingBytes s' = pendingBytes s := by
  cases hp : s.pend with
  | none =>
    have hp' : s'.pend = none := by simpa [hp] using h.2
    simp only [pendingBytes, hp, hp']
  | some p =>
    obtain ⟨p', hp', hword, hrun⟩ := runCmd_of_sameCommand h hp
    simp only [pendingBytes, hp, hp', hword]
    cases decode p.word with
    | error e => rfl
    | ok i =>
      simp only [hrun]
      cases runCmd i s with
      | done t => exact newBytes_transplant s s' t
      | raised code t => rfl
      | uninit m k => rfl

/-- A pending word that answers a next state answers one in other surroundings. -/
theorem execWord_next_of_sameCommand {s s' u : State} {p : Pending} (h : SameCommand s s') (hp : s.pend = some p)
    (hexec : execWord p.word s = .next u) : ∃ u', execWord p.word s' = .next u' := by
  obtain ⟨-, -, -, hrun⟩ := runCmd_of_sameCommand h hp
  cases hd : decode p.word with
  | error e =>
    rw [execWord, hd]
    exact ⟨_, rfl⟩
  | ok i =>
    rw [execWord_decoded hd, exec_eq_commit] at hexec ⊢
    rw [hrun]
    cases hend : runCmd i s with
    | done t => exact ⟨_, rfl⟩
    | raised code t => exact ⟨_, rfl⟩
    | uninit m k =>
      rw [hend, commit_uninit] at hexec
      cases hexec

/-! ### The latched operands (10_state R48) -/

theorem capture_args (code : ErrCode) (src : Bool) (info x y : Word) (s : State) :
    capture code src info { s with arg0 := x, arg1 := y } = { capture code src info s with arg0 := x, arg1 := y } := by
  unfold capture
  split <;> rfl

/-- While a command is pending the ARG registers are outside it. -/
theorem runCmd_args {s : State} {p : Pending} (hp : s.pend = some p) (i : Instr) (x y : Word) :
    runCmd i { s with arg0 := x, arg1 := y } = mapEnd (fun t => { t with arg0 := x, arg1 := y }) (runCmd i s) := by
  have hsame : SameCommand s { s with arg0 := x, arg1 := y } := ⟨by simp [transplant], rfl⟩
  obtain ⟨-, -, -, hrun⟩ := runCmd_of_sameCommand hsame hp
  rw [hrun]
  cases hend : runCmd i s with
  | done t => exact congrArg (fun u : State => CmdEnd.done { u with arg0 := x, arg1 := y }) (transplant_of_done hend)
  | raised code u =>
    obtain rfl := runCmd_raised_eq hend
    simp [mapEnd, transplant]
  | uninit m k => rfl

/-- Settles O53: the registers are outside the command, in its rule and in its capture. -/
theorem latchedOperandsAreUsed : Obligations.LatchedOperandsAreUsed := by
  intro s i p x y hp
  rw [exec_eq_commit, exec_eq_commit, runCmd_args hp i x y]
  cases runCmd i s with
  | done t =>
    refine ⟨fun u h => ?_, fun r h => (by cases h)⟩
    cases h
    rfl
  | raised code t =>
    refine ⟨fun u h => ?_, fun r h => (by cases h)⟩
    cases h
    rw [mapEnd, commit_raised, capture_args]
  | uninit m k => exact ⟨fun u h => (by cases h), fun r h => h⟩

/-! ### Completion (40_control R106) -/

theorem sameCommand_sinkStall (s : State) (k : Nat) : SameCommand s { s with sinkStall := k } :=
  ⟨by simp [transplant], rfl⟩

/-- One turn completes the command, or takes one from the sink's delay. -/
theorem engineTurn_progress {s u : State} {p : Pending} (hp : s.pend = some p) (hexec : execWord p.word s = .next u) :
    (∃ t, engineTurn s = .next t ∧ t.pend = none) ∨
      ∃ k, s.sinkStall = k + 1 ∧ engineTurn s = .next { s with sinkStall := k } := by
  rw [engineTurn_pending hp, hexec]
  by_cases hstall : 0 < s.sinkStall ∧ p.sent < (newBytes s u).length
  · refine .inr ⟨s.sinkStall - 1, by omega, ?_⟩
    rw [finishTurn_stalled hstall.1 hstall.2]
  · exact .inl ⟨_, if_neg hstall, rfl⟩

/-- Settles O8, by induction on the sink's delay. -/
theorem commandsCompleteInBoundedTurns : Obligations.CommandsCompleteInBoundedTurns := by
  intro s u p hp hexec
  generalize hn : s.sinkStall = n
  induction n generalizing s u with
  | zero =>
    obtain ⟨t, hturn, hdone⟩ | ⟨k, hk, -⟩ := engineTurn_progress hp hexec
    · exact ⟨1, t, le_rfl, by rw [engineTurns, hturn]; rfl, hdone⟩
    · omega
  | succ n ih =>
    obtain ⟨t, hturn, hdone⟩ | ⟨k, hk, hturn⟩ := engineTurn_progress hp hexec
    · exact ⟨1, t, by omega, by rw [engineTurns, hturn]; rfl, hdone⟩
    · obtain rfl : k = n := by omega
      obtain ⟨u', hexec'⟩ := execWord_next_of_sameCommand (sameCommand_sinkStall s k) hp hexec
      obtain ⟨j, t, hj, hrun, hdone⟩ := ih { s with sinkStall := k } u' hp hexec' rfl
      exact ⟨j + 1, t, by omega, by rw [engineTurns, hturn]; exact hrun, hdone⟩

end Sys2Proof.Proofs
end

section
/-! PROOFS. The stream law (41_bitwriter section 3): what each command emits and keeps in the cache, and BW_CLOSE. -/

namespace Sys2Proof.Proofs

open Sys2Proof.Machine Sys2Proof.Safety Sys2Proof.Laws

/-- What a completing command emits and then holds in the cache are the old cache and the bits of its rule; every
command but BW_OPEN counts the bytes. -/
theorem completes_emits {s t : State} {i : Instr} (h : Completes s i t) (hcache : s.cache.length ≤ 64) :
    ∃ out more, BitsAppendedBy s i more ∧ t.sink = s.sink ++ out ∧ unpack out ++ t.cache = s.cache ++ more ∧
      (i ≠ .bwOpen → t.bwBytes = s.bwBytes + BitVec.ofNat 32 out.length) := by
  have append : ∀ bits, BitsAppendedBy s i bits → ∃ out more, BitsAppendedBy s i more ∧
      (appendBits s bits).sink = s.sink ++ out ∧ unpack out ++ (appendBits s bits).cache = s.cache ++ more ∧
      (i ≠ .bwOpen → (appendBits s bits).bwBytes = s.bwBytes + BitVec.ofNat 32 out.length) := by
    intro bits hbits
    obtain ⟨⟨out, hsink, hsplit, -, hcount, -⟩, -⟩ := appendBits_appended bits s hcache
    exact ⟨out, bits, hbits, hsink, hsplit, fun _ => hcount⟩
  cases h with
  | bwBit b => exact append [b] rfl
  | bwBits => exact append _ (bitsMsb_bitsOf s.a0 _)
  | hencSym _ _ _ hcode => exact append _ hcode
  | hencRun _ _ hlen _ hsyms _ hcodes => exact append _ ⟨_, _, hlen.symm, hsyms, hcodes, rfl⟩
  | bwFlush =>
    obtain ⟨out, hsink, -, hsplit, -, hcount⟩ := flushWhole_spec s
    exact ⟨out, [], rfl, hsink, by simpa using hsplit, fun _ => hcount⟩
  | bwClose =>
    obtain ⟨out, hsink, -, hsplit, -, hcount⟩ := flushWhole_spec (padded s)
    exact ⟨out, _, rfl, hsink, hsplit, fun _ => hcount⟩
  | bwOpen => exact ⟨[], [], rfl, by simp, by simp, fun hne => absurd rfl hne⟩
  | nop | bwtRun | hcount | hbuild => exact ⟨[], [], rfl, by simp [bwtResult, hcountResult],
      by simp [bwtResult, hcountResult], fun _ => by simp [bwtResult, hcountResult]⟩

theorem streamLaw_extend {s t : State} {start out : List Byte} {bits more : List Bool} (h : StreamLaw start bits s)
    (hsink : t.sink = s.sink ++ out) (hsplit : unpack out ++ t.cache = s.cache ++ more)
    (hcount : t.bwBytes = s.bwBytes + BitVec.ofNat 32 out.length) : StreamLaw start (bits ++ more) t := by
  obtain ⟨out', hsink', hsplit', hcount'⟩ := h
  refine ⟨out' ++ out, by rw [hsink, hsink', List.append_assoc], ?_, ?_⟩
  · rw [unpack_append, List.append_assoc, hsplit, ← List.append_assoc, hsplit']
  · rw [hcount, hcount', List.length_append, BitVec.ofNat_add]

/-- Settles O18: a completing command extends the stream by its bits, and a raise leaves the writer as it was. -/
theorem streamLawIsKept : Obligations.StreamLawIsKept := by
  intro s t i start bits hcache hlaw hi h
  rw [exec_eq_commit, commit_next_iff] at h
  obtain hdone | ⟨code, u, hraised, rfl⟩ := h
  · obtain ⟨out, more, hmore, hsink, hsplit, hcount⟩ := completes_emits (completes_of_runCmd hdone) hcache
    refine ⟨more, fun _ _ => hmore, fun code u hraised => ?_, streamLaw_extend hlaw hsink hsplit (hcount hi)⟩
    rw [hdone] at hraised
    cases hraised
  · refine ⟨[], fun v hdone => ?_, fun _ _ _ => rfl, ?_⟩
    · rw [hraised] at hdone
      cases hdone
    · obtain rfl := runCmd_raised_eq hraised
      simpa [StreamLaw] using hlaw

/-- Settles O19: the bytes since `start` are whole, so their number is the bits' rounded up. -/
theorem closeCountsBytes : Obligations.CloseCountsBytes := by
  intro s start bits hopen hlaw
  obtain ⟨t, out, p, hexec, hp, -, hsink, hsplit, hempty, hcount, -⟩ := (bwClosePadsAndCloses.2 s).2 hopen
  have hclosed : StreamLaw start (bits ++ List.replicate p false) t :=
    streamLaw_extend hlaw hsink (by rw [hempty, List.append_nil, hsplit]) hcount
  obtain ⟨all, hall, hbits, hbytes⟩ := hclosed
  rw [hempty, List.append_nil] at hbits
  have hlen : 8 * all.length = bits.length + p := by
    rw [← unpack_length, hbits, List.length_append, List.length_replicate]
  refine ⟨t, all, p, hexec, by omega, hall, hbits, hempty, ?_⟩
  rw [hbytes, BitVec.toNat_ofNat]
  congr 1
  omega

end Sys2Proof.Proofs
end

section
/-! PROOFS. What a reset does to a pending command (70_reset R171), and the invariants of every step: the memories'
canonical form, the error registers and the BWT result (10_state sections 4, 6 and 7). -/

namespace Sys2Proof.Proofs

open Sys2Proof.Machine Sys2Proof.Safety Sys2Proof.Laws

/-! ### The abort of a pending command (70_reset R171) -/

/-- An abort takes nothing back, or unwrites a command's targets and gives the sink some bytes. -/
theorem abortCommand_cases (s : State) :
    (∃ d, abortCommand s = { s with draws := d }) ∨
      ∃ i bytes, abortCommand s = { unwriteTargets i (sinkTakesSome bytes s) with draws := s.draws + 1 } := by
  rw [abortCommand]
  split
  · exact .inl ⟨s.draws, rfl⟩
  · split
    · exact .inl ⟨s.draws, rfl⟩
    · split
      · exact .inr ⟨_, _, rfl⟩
      · exact .inl ⟨_, rfl⟩
      · exact .inl ⟨_, rfl⟩

/-- The abort of a command that would have completed. -/
theorem abortCommand_done {s t : State} {p : Pending} {i : Instr} (hp : s.pend = some p) (hd : decode p.word = .ok i)
    (h : abortedEnd i s = .done t) :
    abortCommand s =
      { unwriteTargets i (sinkTakesSome ((newBytes s t).drop p.sent) s) with draws := s.draws + 1 } := by
  simp only [abortCommand, hp, hd, h]

/-- The abort of a command that would have raised an error. -/
theorem abortCommand_raised {s t : State} {p : Pending} {i : Instr} {code : ErrCode} (hp : s.pend = some p)
    (hd : decode p.word = .ok i) (h : abortedEnd i s = .raised code t) :
    abortCommand s = { s with draws := s.draws + 1 } := by
  simp only [abortCommand, hp, hd, h]

@[simp] theorem unwriteTargets_sink (i : Instr) (s : State) : (unwriteTargets i s).sink = s.sink := by
  cases i <;> rfl

/-- The abort unwrites the elements the command would have written. -/
theorem readCell_unwriteTargets_target {s : State} {i : Instr} {m : MemId} {k : Nat} (h : WriteTarget s i m k) :
    (unwriteTargets i s).readCell m k = none := by
  cases i with
  | bwtRun =>
    obtain ⟨rfl, hk⟩ := h
    simp [unwriteTargets, State.readCell, read_unwrite, Nat.not_le.2 hk]
  | hcount =>
    obtain ⟨rfl, hk⟩ := h
    simp [unwriteTargets, State.readCell, read_unwrite, Nat.not_le.2 hk]
  | hbuild => obtain ⟨rfl | rfl, hk⟩ := h <;> simp [unwriteTargets, State.readCell, read_unwrite, Nat.not_le.2 hk]
  | nop | bwBit | bwBits | bwFlush | bwClose | bwOpen | hencSym | hencRun => exact h.elim

/-- Unwriting leaves an element it is not asked to unwrite. -/
theorem read_unwrite_of_le {w : Nat} {m : Mem w} {n k : Nat} (h : n ≤ k) :
    Mem.read (Mem.unwrite m n) k = Mem.read m k := by
  rw [read_unwrite, if_pos h]

/-- The abort leaves every other element alone. -/
theorem readCell_unwriteTargets_other {s : State} {i : Instr} {m : MemId} {k : Nat} (h : ¬ WriteTarget s i m k) :
    (unwriteTargets i s).readCell m k = s.readCell m k := by
  cases i with
  | bwtRun =>
    cases m with
    | bwtOut => simp [unwriteTargets, State.readCell, read_unwrite_of_le (Nat.not_lt.1 fun hk => h ⟨rfl, hk⟩)]
    | blkMem | symMem | freqMem | bookCode | bookLen => rfl
  | hcount =>
    cases m with
    | freqMem => simp [unwriteTargets, State.readCell, read_unwrite_of_le (Nat.not_lt.1 fun hk => h ⟨rfl, hk⟩)]
    | blkMem | bwtOut | symMem | bookCode | bookLen => rfl
  | hbuild =>
    cases m with
    | bookCode => simp [unwriteTargets, State.readCell, read_unwrite_of_le (Nat.not_lt.1 fun hk => h ⟨.inl rfl, hk⟩)]
    | bookLen => simp [unwriteTargets, State.readCell, read_unwrite_of_le (Nat.not_lt.1 fun hk => h ⟨.inr rfl, hk⟩)]
    | blkMem | bwtOut | symMem | freqMem => rfl
  | nop | bwBit | bwBits | bwFlush | bwClose | bwOpen | hencSym | hencRun => rfl

/-! ### Unwritten inputs of an aborted BWT_RUN (10_state R49, log entry 11) -/

/-- Filling a run leaves what is written, and gives every other element of the run its fill. -/
theorem read_fillRange {w : Nat} (f : Nat → BitVec w) (m : Mem w) (i n k : Nat) :
    Mem.read (fillRange f m i n) k =
      if i ≤ k ∧ k < i + n then some ((Mem.read m k).getD (f k)) else Mem.read m k := by
  induction n generalizing m i with
  | zero => rw [fillRange, if_neg (by omega)]
  | succ n ih =>
    rw [fillRange]
    by_cases hk : k = i
    · subst hk
      rw [if_pos (by omega)]
      cases hread : Mem.read m k with
      | some v => simp [ih, hread]
      | none => simp [ih]
    · have hsame : Mem.read (Mem.write m i (f i)) k = Mem.read m k := read_write_other m _ hk
      have hrange : (i + 1 ≤ k ∧ k < i + 1 + n) ↔ (i ≤ k ∧ k < i + (n + 1)) := by omega
      cases Mem.read m i <;> simp only [ih, hsame, hrange]

/-- A BWT_RUN in range over a written block completes. -/
theorem runCmd_bwtRun_written {s : State} (hpos : 1 ≤ s.a0.toNat) (hcap : s.a0.toNat ≤ 100000 * s.blockSize.toNat)
    (hwritten : ∀ k, k < s.a0.toNat → (Mem.read s.blkMem k).isSome = true) : ∃ t, runCmd .bwtRun s = .done t := by
  have hok : ¬ (s.a0.toNat < 1 ∨ s.capacity < s.a0.toNat) := by
    rw [capacity_eq]
    omega
  simp only [runCmd, runBwtRun, hok, if_false]
  cases hread : Mem.readRange s.blkMem 0 s.a0.toNat with
  | ok block => exact ⟨_, rfl⟩
  | error e =>
    obtain ⟨-, hlt, hnone, -⟩ := readRange_error hread
    have hsome := hwritten e (by omega)
    rw [hnone] at hsome
    cases hsome

/-- An aborted BWT_RUN in range would have completed, whatever its unwritten inputs hold. -/
theorem abortedEnd_bwtRun {s : State} (hpos : 1 ≤ s.a0.toNat) (hcap : s.a0.toNat ≤ 100000 * s.blockSize.toNat) :
    ∃ t, abortedEnd .bwtRun s = .done t := by
  by_cases hwritten : ∀ k, k < s.a0.toNat → (Mem.read s.blkMem k).isSome = true
  · obtain ⟨t, hdone⟩ := runCmd_bwtRun_written hpos hcap hwritten
    exact ⟨t, by rw [abortedEnd, hdone]⟩
  · simp only [not_forall, Bool.not_eq_true, Option.isSome_eq_false_iff, Option.isNone_iff_eq_none] at hwritten
    obtain ⟨k, hk, hnone⟩ := hwritten
    obtain ⟨i, -, -, hrun⟩ := runCmd_bwtRun_unwritten hpos hcap hk hnone
    have hfilled : ∀ j, j < s.a0.toNat → (Mem.read (fillInputs .bwtRun s).blkMem j).isSome = true := fun j hj => by
      simp [fillInputs, read_fillRange, hj]
    obtain ⟨t, hdone⟩ := runCmd_bwtRun_written (s := fillInputs .bwtRun s) hpos hcap hfilled
    exact ⟨t, by rw [abortedEnd, hrun]; exact hdone⟩

/-- What the sink takes of an aborted command's bytes is a first part of them. -/
theorem sinkTakesSome_sink_eq (bytes : List Byte) (s : State) :
    ∃ k, k ≤ bytes.length ∧ (sinkTakesSome bytes s).sink = s.sink ++ bytes.take k :=
  ⟨Config.freeLength s.draws % (bytes.length + 1), Nat.le_of_lt_succ (Nat.mod_lt _ (Nat.succ_pos _)), rfl⟩

/-- A soft reset keeps what the abort leaves in the memories. -/
theorem readCell_softReset (s : State) (m : MemId) (k : Nat) :
    (softReset s).readCell m k = (abortCommand s).readCell m k :=
  sameMemories_resetRegisters (abortCommand s) m k

/-- The elements after the reset of a command that would have completed. -/
theorem readCell_softReset_done {s t : State} {p : Pending} {i : Instr} (hp : s.pend = some p)
    (hd : decode p.word = .ok i) (h : abortedEnd i s = .done t) (m : MemId) (k : Nat) :
    (WriteTarget s i m k → (softReset s).readCell m k = none) ∧
      (¬ WriteTarget s i m k → (softReset s).readCell m k = s.readCell m k) := by
  have htarget : WriteTarget (sinkTakesSome ((newBytes s t).drop p.sent) s) i m k ↔ WriteTarget s i m k := Iff.rfl
  have hread : (softReset s).readCell m k =
      (unwriteTargets i (sinkTakesSome ((newBytes s t).drop p.sent) s)).readCell m k := by
    rw [readCell_softReset, abortCommand_done hp hd h]
    cases m <;> rfl
  rw [hread]
  refine ⟨fun hin => readCell_unwriteTargets_target (htarget.2 hin), fun hout => ?_⟩
  rw [readCell_unwriteTargets_other (mt htarget.1 hout)]
  cases m <;> rfl

/-- Settles O52: the abort unwrites the targets of what would have completed, and does nothing for a raise. -/
theorem resetAbortsPendingCommand : Obligations.ResetAbortsPendingCommand := by
  refine fun s p i hp hd => ⟨rfl, rfl, rfl, fun t h => ?done, fun code t h => ?raised, fun hi hpos hcap k hk => ?bwt⟩
  case done =>
    have hend : abortedEnd i s = .done t := by rw [abortedEnd, h]
    refine ⟨?sink, fun m k => (readCell_softReset_done hp hd hend m k).1,
      fun m k => (readCell_softReset_done hp hd hend m k).2⟩
    obtain ⟨out, hout⟩ := runCmd_sink h
    obtain ⟨k, hk, hsink⟩ := sinkTakesSome_sink_eq ((newBytes s t).drop p.sent) s
    rw [newBytes_eq hout] at hk hsink
    refine ⟨out, k, hout, by simpa using hk, ?_⟩
    rw [softReset, resetRegisters_sink, abortCommand_done hp hd hend, newBytes_eq hout]
    simpa using hsink
  case raised =>
    have hend : abortedEnd i s = .raised code t := by rw [abortedEnd, h]
    have habort := abortCommand_raised hp hd hend
    refine ⟨by rw [softReset, resetRegisters_sink, habort], fun m k => ?_⟩
    rw [readCell_softReset, habort]
    cases m <;> rfl
  case bwt =>
    subst hi
    obtain ⟨t, hend⟩ := abortedEnd_bwtRun hpos hcap
    have hnone := (readCell_softReset_done hp hd hend .bwtOut k).1 ⟨rfl, hk⟩
    simpa [State.readCell] using hnone

/-! ### Invariants of every step -/

/-- A property that no event list plays a part in, and that moves and resets keep, is kept by every step. -/
theorem step_keeps {P : State → Prop} (hevents : ∀ s es, P s → P { s with events := es })
    (hmoves : ∀ s t, P s → Moves s t → P t) (hresets : ∀ s t, P s → Resets s t → P t) (s t : State) (hs : P s)
    (h : step s = .next t) : P t := by
  obtain ⟨es, hmove | ⟨-, hreset⟩⟩ := step_cases h
  · exact hmoves _ _ (hevents s es hs) hmove
  · exact hresets _ _ (hevents s es hs) hreset

/-- Both resets end in R167's reset of the registers. -/
theorem exists_resetRegisters_of_resets {s t : State} (h : Resets s t) : ∃ u, t = resetRegisters u := by
  cases h with
  | soft => exact ⟨{ abortCommand s with reply := .done }, rfl⟩
  | hard => exact ⟨hardReset s, (resetRegisters_hardReset s).symm⟩

/-- A word completes, or its error is captured: of the command's row, or ILLEGAL_COMMAND. -/
theorem execWord_cases {w : Word} {s u : State} (h : execWord w s = .next u) :
    (∃ i, decode w = .ok i ∧ runCmd i s = .done u) ∨
      ∃ code valid, code ≠ .none ∧ code ≠ .internalConsistency ∧ (valid = true → s.bookValid = true) ∧
        u = capture code false w { s with bookValid := valid } := by
  cases hd : decode w with
  | error e =>
    rw [execWord, hd] at h
    cases h
    exact .inr ⟨.illegalCommand, s.bookValid, by simp, by simp, id, rfl⟩
  | ok i =>
    rw [execWord_decoded hd, exec_eq_commit, commit_next_iff, (decode_eq_ok_iff.1 hd).2] at h
    refine h.imp (fun hdone => ⟨i, rfl, hdone⟩) fun ⟨code, v, hraised, hu⟩ => ?_
    obtain ⟨hinternal, hnone⟩ := ne_of_mem_mayRaise (mem_mayRaise_of_runCmd hraised)
    rw [runCmd_raised_eq hraised] at hu
    refine ⟨code, _, hnone, hinternal, fun hvalid => ?_, hu⟩
    split at hvalid
    · cases hvalid
    · exact hvalid

/-! ### ERR, ERRCODE and ERRINFO (60_exceptions R150, R152) -/

theorem errorInv_capture {code : ErrCode} (hnone : code ≠ .none) (hinternal : code ≠ .internalConsistency)
    (src : Bool) (info : Word) {s : State} (hs : ErrorInv s) : ErrorInv (capture code src info s) := by
  cases herr : s.err with
  | true => rwa [capture_later herr]
  | false =>
    rw [capture_first herr]
    exact ⟨fun h => (by cases h), fun _ => hnone, hinternal⟩

theorem errorInv_of_answered {s t : State} (hs : ErrorInv s) (h : Answered s t) : ErrorInv t := by
  cases h with
  | outside | configured | accepted | operands => exact hs
  | captured info hcode => exact errorInv_capture (by rintro rfl; simp at hcode) (by rintro rfl; simp at hcode) true info hs
  | stored m i d =>
    rw [writeCell_frame]
    exact hs

theorem errorInv_of_moves {s t : State} (hs : ErrorInv s) (h : Moves s t) : ErrorInv t := by
  cases h with
  | outside => exact hs
  | answered h => exact errorInv_of_answered hs h
  | cleared => exact ⟨fun _ => ⟨rfl, rfl, rfl⟩, fun h => (by cases h), by simp⟩
  | taken n => simpa [ErrorInv] using hs
  | completed hp hexec =>
    obtain ⟨i, -, hdone⟩ | ⟨code, valid, hnone, hinternal, -, rfl⟩ := execWord_cases hexec
    · rw [← transplant_of_done hdone]
      exact hs
    · exact errorInv_capture hnone hinternal false _ (s := { s with bookValid := valid }) hs

/-- Settles O57: a capture brings a code of R148 to a clear error state alone, and the rest clears or keeps. -/
theorem errorRegistersStayConsistent : Obligations.ErrorRegistersStayConsistent := by
  refine step_keeps (fun _ _ hs => hs) (fun _ _ => errorInv_of_moves) fun s t _ h => ?_
  obtain ⟨u, rfl⟩ := exists_resetRegisters_of_resets h
  exact ⟨fun _ => ⟨rfl, rfl, rfl⟩, fun h => (by cases h), (by decide : State.reset.errCode ≠ .internalConsistency)⟩

/-! ### The memories (10_state section 7) -/

theorem configOk_reset : ConfigOk State.reset := ⟨by decide, by decide⟩

theorem memWf_iff (s : State) :
    s.memWf = true ↔ Mem.wf Config.maxBlock s.blkMem = true ∧ Mem.wf Config.maxBlock s.bwtOut = true ∧
      Mem.wf Config.symCap s.symMem = true ∧ Mem.wf Config.maxAlphabet s.freqMem = true ∧
      Mem.wf Config.maxAlphabet s.bookCode = true ∧ Mem.wf Config.maxAlphabet s.bookLen = true := by
  simp [State.memWf, and_assoc]

theorem memoryInv_of_answered {s t : State} (hs : MemoryInv s) (h : Answered s t) : MemoryInv t := by
  cases h with
  | outside | accepted | operands => exact hs
  | captured => simpa [MemoryInv, ConfigOk, State.memWf] using hs
  | configured size tie _ hmin hmax => exact ⟨⟨hmin, hmax⟩, hs.2⟩
  | stored m i d _ hi =>
    obtain ⟨hcfg, hwf⟩ := hs
    obtain ⟨hblk, hbwt, hsym, hfreq, hcode, hlen⟩ := (memWf_iff s).1 hwf
    cases m with
    | blkMem => exact ⟨hcfg, (memWf_iff _).2 ⟨wf_write _ hblk hi, hbwt, hsym, hfreq, hcode, hlen⟩⟩
    | symMem => exact ⟨hcfg, (memWf_iff _).2 ⟨hblk, hbwt, wf_write _ hsym hi, hfreq, hcode, hlen⟩⟩
    | freqMem => exact ⟨hcfg, (memWf_iff _).2 ⟨hblk, hbwt, hsym, wf_write _ hfreq hi, hcode, hlen⟩⟩
    | bwtOut | bookCode | bookLen => exact ⟨hcfg, hwf⟩

theorem memoryInv_of_completes {s t : State} {i : Instr} (hs : MemoryInv s) (h : Completes s i t) : MemoryInv t := by
  cases h with
  | nop | bwOpen => exact hs
  | bwBit | bwBits | bwFlush | hencSym | hencRun => simpa [MemoryInv, ConfigOk, State.memWf] using hs
  | bwClose => simpa [MemoryInv, ConfigOk, State.memWf, padded] using hs
  | bwtRun _ hcap =>
    obtain ⟨⟨hmin, hmax⟩, hwf⟩ := hs
    obtain ⟨hblk, hbwt, hrest⟩ := (memWf_iff s).1 hwf
    refine ⟨⟨hmin, hmax⟩, (memWf_iff _).2 ⟨hblk, wf_writeFrom _ hbwt ?_, hrest⟩⟩
    rw [lastColumn_length, Config.maxBlock]
    omega
  | hcount _ hmax =>
    obtain ⟨hcfg, hwf⟩ := hs
    obtain ⟨hblk, hbwt, hsym, hfreq, hrest⟩ := (memWf_iff s).1 hwf
    refine ⟨hcfg, (memWf_iff _).2 ⟨hblk, hbwt, hsym, wf_writeFrom _ hfreq ?_, hrest⟩⟩
    simpa [countSymbols, Config.maxAlphabet] using hmax
  | hbuild _ hmax =>
    obtain ⟨hcfg, hwf⟩ := hs
    obtain ⟨hblk, hbwt, hsym, hfreq, hcode, hlen⟩ := (memWf_iff s).1 hwf
    refine ⟨hcfg, (memWf_iff _).2 ⟨hblk, hbwt, hsym, hfreq, wf_writeFrom _ hcode ?_, wf_writeFrom _ hlen ?_⟩⟩ <;>
      simpa [Config.maxAlphabet] using hmax

theorem memoryInv_of_moves {s t : State} (hs : MemoryInv s) (h : Moves s t) : MemoryInv t := by
  cases h with
  | outside | cleared => exact hs
  | answered h => exact memoryInv_of_answered hs h
  | taken n => simpa [MemoryInv, ConfigOk, State.memWf] using hs
  | completed hp hexec =>
    obtain ⟨i, -, hdone⟩ | ⟨code, valid, -, -, -, rfl⟩ := execWord_cases hexec
    · exact (memoryInv_of_completes hs (completes_of_runCmd hdone) :)
    · simpa [MemoryInv, ConfigOk, State.memWf] using hs

theorem memWf_unwriteTargets (i : Instr) {s : State} (hs : s.memWf = true) : (unwriteTargets i s).memWf = true := by
  obtain ⟨hblk, hbwt, hsym, hfreq, hcode, hlen⟩ := (memWf_iff s).1 hs
  cases i with
  | bwtRun => exact (memWf_iff _).2 ⟨hblk, wf_unwrite _ hbwt, hsym, hfreq, hcode, hlen⟩
  | hcount => exact (memWf_iff _).2 ⟨hblk, hbwt, hsym, wf_unwrite _ hfreq, hcode, hlen⟩
  | hbuild => exact (memWf_iff _).2 ⟨hblk, hbwt, hsym, hfreq, wf_unwrite _ hcode, wf_unwrite _ hlen⟩
  | nop | bwBit | bwBits | bwFlush | bwClose | bwOpen | hencSym | hencRun => exact hs

theorem memoryInv_of_resets {s t : State} (hs : MemoryInv s) (h : Resets s t) : MemoryInv t := by
  cases h with
  | soft =>
    have hwf : (abortCommand s).memWf = true := by
      obtain ⟨d, habort⟩ | ⟨i, bytes, habort⟩ := abortCommand_cases s
      · rw [habort]
        exact hs.2
      · rw [habort]
        exact memWf_unwriteTargets i (s := sinkTakesSome bytes s) hs.2
    exact ⟨configOk_reset, hwf⟩
  | hard => exact ⟨configOk_reset, (by decide : State.reset.memWf = true)⟩

/-- Settles O55: every write is below its memory's size, and unwriting only takes entries away. -/
theorem memoryStaysCanonical : Obligations.MemoryStaysCanonical :=
  step_keeps (fun _ _ hs => hs) (fun _ _ => memoryInv_of_moves) fun _ _ => memoryInv_of_resets

/-! ### The BWT result (10_state R32, R38) -/

theorem bwtInv_of_answered {s t : State} (hs : BwtInv s) (h : Answered s t) : BwtInv t := by
  cases h with
  | outside | accepted | operands => exact hs
  | captured => simpa [BwtInv, ConfigOk] using hs
  | configured size tie _ hmin hmax => exact ⟨⟨hmin, hmax⟩, hs.2⟩
  | stored m i d => cases m <;> exact hs

theorem bwtInv_bwtResult {s : State} {block : List Byte} (hcfg : ConfigOk s) (hpos : 1 ≤ block.length)
    (hcap : block.length ≤ 100000 * s.blockSize.toNat) (hlen : s.a0.toNat = block.length) :
    BwtInv (bwtResult s block) := by
  have hbwtLen : (bwtResult s block).bwtLen.toNat = block.length := hlen
  refine ⟨hcfg, fun _ => ?_, fun h => (by cases h)⟩
  rw [hbwtLen, bwtResult_bwtOrigin_toNat hpos hlen, Config.maxBlock]
  obtain ⟨-, hmax⟩ := hcfg
  exact ⟨hpos, by omega, originIndex_lt hpos, fun i hi => by simp [read_bwtResult_bwtOut, hi]⟩

theorem bwtInv_of_completes {s t : State} {i : Instr} (hs : BwtInv s) (h : Completes s i t) : BwtInv t := by
  cases h with
  | nop | bwOpen | hcount | hbuild => exact hs
  | bwBit | bwBits | bwFlush | hencSym | hencRun => simpa [BwtInv, ConfigOk] using hs
  | bwClose => simpa [BwtInv, ConfigOk, padded] using hs
  | bwtRun hpos hcap hlen => exact bwtInv_bwtResult hs.1 hpos hcap hlen

theorem bwtInv_of_moves {s t : State} (hs : BwtInv s) (h : Moves s t) : BwtInv t := by
  cases h with
  | outside | cleared => exact hs
  | answered h => exact bwtInv_of_answered hs h
  | taken n => simpa [BwtInv, ConfigOk] using hs
  | completed hp hexec =>
    obtain ⟨i, -, hdone⟩ | ⟨code, valid, -, -, -, rfl⟩ := execWord_cases hexec
    · exact (bwtInv_of_completes hs (completes_of_runCmd hdone) :)
    · simpa [BwtInv, ConfigOk] using hs

/-- Settles O58: only BWT_RUN brings a result, from a block within the capacity, and only a reset takes it away. -/
theorem bwtResultStaysLegal : Obligations.BwtResultStaysLegal := by
  refine step_keeps (fun _ _ hs => hs) (fun _ _ => bwtInv_of_moves) fun s t _ h => ?_
  obtain ⟨u, rfl⟩ := exists_resetRegisters_of_resets h
  exact ⟨configOk_reset, fun h => (by cases h), fun _ => ⟨rfl, rfl⟩⟩

/-! ### The state after reset -/

/-- Settles O60: the memories and the cache are empty, the flags are down, and nothing is pending. -/
theorem resetMeetsInvariants : Obligations.ResetMeetsInvariants :=
  ⟨⟨configOk_reset, by decide⟩,
    ⟨by decide, fun h => (by cases h), fun p h => (by cases h), [], rfl⟩,
    ⟨fun _ => ⟨rfl, rfl, rfl⟩, fun h => (by cases h), by decide⟩,
    ⟨configOk_reset, fun h => (by cases h), fun _ => ⟨rfl, rfl⟩⟩, fun h => (by cases h)⟩

end Sys2Proof.Proofs
end

section
/-! PROOFS. The writer over steps: the cache's bound, the bytes the sink accepts early, and that no bit is dropped
(20_memory R60 to R66, 41_bitwriter R107 and section 3). -/

namespace Sys2Proof.Proofs

open Sys2Proof.Machine Sys2Proof.Safety Sys2Proof.Laws

/-! ### Moves that leave the writer alone -/

/-- The sink has accepted no more bytes of the pending command than there are. -/
def SentBounded (s : State) : Prop := ∀ p, s.pend = some p → p.sent ≤ (pendingBytes s).length

/-- A move that leaves the writer, the sink and the bytes accepted early as they were. -/
structure LeavesWriter (s t : State) : Prop where
  cache : t.cache = s.cache
  bwClosed : t.bwClosed = s.bwClosed
  sink : t.sink = s.sink
  takenBytes : takenBytes t = takenBytes s
  sentBounded : SentBounded s → SentBounded t

/-- The same command is pending, with the same bytes accepted. -/
theorem leavesWriter_of_sameCommand {s t : State} (h : SameCommand s t) (hsink : t.sink = s.sink)
    (hpend : t.pend = s.pend) : LeavesWriter s t where
  cache := by rw [h.1]; rfl
  bwClosed := by rw [h.1]; rfl
  sink := hsink
  takenBytes := by simp only [takenBytes, hpend, pendingBytes_of_sameCommand h]
  sentBounded hs p hp := by
    rw [pendingBytes_of_sameCommand h]
    exact hs p (hpend ▸ hp)

/-- Nothing was pending, and of what is pending now no byte is accepted. -/
theorem leavesWriter_of_idle {s t : State} (hidle : s.busy = false) (hcache : t.cache = s.cache)
    (hclosed : t.bwClosed = s.bwClosed) (hsink : t.sink = s.sink) (hunsent : ∀ p, t.pend = some p → p.sent = 0) :
    LeavesWriter s t where
  cache := hcache
  bwClosed := hclosed
  sink := hsink
  takenBytes := by
    have hnone : s.pend = none := by simpa [State.busy] using hidle
    simp only [takenBytes, hnone]
    split
    · rfl
    · rw [hunsent _ ‹_›, List.take_zero]
  sentBounded _ p hp := by
    rw [hunsent p hp]
    exact Nat.zero_le _

theorem sameCommand_capture (code : ErrCode) (src : Bool) (info : Word) (s : State) (r : Reply) :
    SameCommand s { capture code src info s with reply := r } := by
  rw [capture]
  split <;> exact ⟨by simp [transplant], rfl⟩

theorem leavesWriter_of_answered {s t : State} (h : Answered s t) : LeavesWriter s t := by
  have hunsent : s.busy = false → ∀ p, s.pend = some p → p.sent = 0 := fun hidle p hp => by
    simp [State.busy, hp] at hidle
  cases h with
  | outside r d => exact leavesWriter_of_sameCommand ⟨by simp [transplant], rfl⟩ rfl rfl
  | captured info => exact leavesWriter_of_sameCommand (sameCommand_capture _ true info s .done) (by simp) (by simp)
  | configured size tie hidle => exact leavesWriter_of_idle hidle rfl rfl rfl (hunsent hidle)
  | operands x y hidle => exact leavesWriter_of_idle hidle rfl rfl rfl (hunsent hidle)
  | accepted d hidle =>
    refine leavesWriter_of_idle hidle rfl rfl rfl fun p hp => ?_
    cases hp
    rfl
  | stored m i d hidle =>
    rw [writeCell_frame]
    exact leavesWriter_of_idle hidle rfl rfl rfl (hunsent hidle)

/-- A move leaves the writer alone, or the sink takes bytes early, or a command completes. -/
theorem moves_writer_cases {s t : State} (h : Moves s t) :
    LeavesWriter s t ∨ (∃ n, t = sinkTakes n s) ∨
      ∃ p u, s.pend = some p ∧ execWord p.word s = .next u ∧ t = (deliver p.sent s u).complete := by
  cases h with
  | outside => exact .inl (leavesWriter_of_sameCommand ⟨by simp [transplant], rfl⟩ rfl rfl)
  | answered h => exact .inl (leavesWriter_of_answered h)
  | cleared => exact .inl (leavesWriter_of_sameCommand ⟨by simp [transplant, clearError], rfl⟩ rfl rfl)
  | taken n => exact .inr (.inl ⟨n, rfl⟩)
  | completed hp hexec => exact .inr (.inr ⟨_, _, hp, hexec, rfl⟩)

/-! ### Bytes accepted early (20_memory R66) -/

theorem sinkTakes_idle {s : State} (hidle : s.pend = none) (n : Nat) : sinkTakes n s = s := by
  rw [sinkTakes, hidle]

/-- Taking bytes early leaves the command, and so its bytes, as they were. -/
theorem pendingBytes_sinkTakes (n : Nat) (s : State) : pendingBytes (sinkTakes n s) = pendingBytes s := by
  cases hp : s.pend with
  | none => rw [sinkTakes_idle hp]
  | some p =>
    refine pendingBytes_of_sameCommand ⟨?_, ?_⟩
    · simp [sinkTakes, hp, transplant]
    · simp [sinkTakes, hp]

/-- What the sink has of the command stays a first part of its bytes, at the sink's end. -/
theorem sinkTakes_settled {s : State} {settled : List Byte} (n : Nat) (hbound : SentBounded s)
    (hsink : s.sink = settled ++ takenBytes s) :
    SentBounded (sinkTakes n s) ∧ (sinkTakes n s).sink = settled ++ takenBytes (sinkTakes n s) := by
  cases hp : s.pend with
  | none =>
    rw [sinkTakes_idle hp]
    exact ⟨hbound, hsink⟩
  | some p =>
    have hle := hbound p hp
    obtain ⟨hsink', hpend'⟩ := sinkTakes_pending n hp
    rw [takenBytes, hp] at hsink
    refine ⟨fun q hq => ?_, ?_⟩
    · rw [hpend'] at hq
      cases hq
      rw [pendingBytes_sinkTakes]
      simp only [List.length_take, List.length_drop]
      omega
    · simp only [takenBytes, hpend', pendingBytes_sinkTakes]
      rw [hsink', hsink, List.append_assoc, List.take_add]
      simp

/-- Completion appends the bytes not accepted early: the sink then holds each byte of the command once. -/
theorem deliver_settled {s u : State} {p : Pending} {settled : List Byte} (hp : s.pend = some p)
    (hexec : execWord p.word s = .next u) (hsink : s.sink = settled ++ takenBytes s) :
    (deliver p.sent s u).sink = settled ++ newBytes s u := by
  simp only [takenBytes, hp, pendingBytes_eq hp hexec] at hsink
  rw [deliver_sink, hsink, List.append_assoc, List.take_append_drop]

/-! ### The cache (10_state R47, 41_bitwriter R107) -/

/-- The cache is within its capacity, and empty while the writer is closed. -/
def CacheBounded (s : State) : Prop := s.cache.length ≤ 64 ∧ (s.bwClosed = true → s.cache = [])

theorem cacheBounded_appendBits {s : State} (hopen : s.bwClosed = false) (hs : CacheBounded s) (bits : List Bool) :
    CacheBounded (appendBits s bits) :=
  ⟨(appendBits_appended bits s hs.1).2, fun h => by simp [hopen] at h⟩

theorem cacheBounded_of_completes {s t : State} {i : Instr} (hs : CacheBounded s) (h : Completes s i t) :
    CacheBounded t := by
  cases h with
  | bwBit b hopen => exact cacheBounded_appendBits hopen hs [b]
  | bwBits hopen => exact cacheBounded_appendBits hopen hs _
  | hencSym hopen => exact cacheBounded_appendBits hopen hs _
  | hencRun hopen => exact cacheBounded_appendBits hopen hs _
  | bwFlush hopen =>
    obtain ⟨-, -, -, -, hrest, -⟩ := flushWhole_spec s
    exact ⟨by omega, fun h => by simp [hopen] at h⟩
  | bwClose =>
    have hempty := flushWhole_padded_cache s
    exact ⟨by simp [hempty], fun _ => hempty⟩
  | bwOpen => exact ⟨hs.1, fun h => (by cases h)⟩
  | nop | bwtRun | hcount | hbuild => exact hs

theorem cacheBounded_of_execWord {w : Word} {s u : State} (hs : CacheBounded s) (h : execWord w s = .next u) :
    CacheBounded u := by
  obtain ⟨i, -, hdone⟩ | ⟨code, valid, -, -, -, rfl⟩ := execWord_cases h
  · exact cacheBounded_of_completes hs (completes_of_runCmd hdone)
  · simpa [CacheBounded] using hs

/-! ### The invariant of the writer -/

theorem writerInv_iff {s : State} :
    WriterInv s ↔ CacheBounded s ∧ SentBounded s ∧ ∃ settled, s.sink = settled ++ takenBytes s := by
  rw [WriterInv, CacheBounded, SentBounded, Config.cacheBits, and_assoc]

/-- With nothing pending every byte of the sink has settled. -/
theorem writerInv_of_noPending {s : State} (hs : CacheBounded s) (hidle : s.pend = none) : WriterInv s :=
  writerInv_iff.2 ⟨hs, fun p hp => by simp [hidle] at hp, s.sink, by simp [takenBytes, hidle]⟩

theorem writerInv_of_moves {s t : State} (hs : WriterInv s) (h : Moves s t) : WriterInv t := by
  obtain ⟨hcache, hbound, settled, hsink⟩ := writerInv_iff.1 hs
  obtain hleaves | ⟨n, rfl⟩ | ⟨p, u, hp, hexec, rfl⟩ := moves_writer_cases h
  · refine writerInv_iff.2 ⟨?_, hleaves.sentBounded hbound, settled, ?_⟩
    · rwa [CacheBounded, hleaves.cache, hleaves.bwClosed]
    · rw [hleaves.sink, hleaves.takenBytes, hsink]
  · obtain ⟨hbound', hsink'⟩ := sinkTakes_settled n hbound hsink
    exact writerInv_iff.2 ⟨by simpa [CacheBounded] using hcache, hbound', settled, hsink'⟩
  · exact writerInv_of_noPending (s := (deliver p.sent s u).complete) (cacheBounded_of_execWord hcache hexec :) rfl

/-- Settles O56: bytes taken early stay a first part of the command's, and its completion or a reset ends them. -/
theorem writerStaysWithinCache : Obligations.WriterStaysWithinCache := by
  refine step_keeps (fun s es hs => ?_) (fun _ _ => writerInv_of_moves) fun s t _ h => ?_
  · exact writerInv_of_moves hs (.outside s.sinkStall es s.reply s.draws)
  · obtain ⟨u, rfl⟩ := exists_resetRegisters_of_resets h
    exact writerInv_of_noPending ⟨Nat.zero_le _, fun _ => rfl⟩ rfl

/-! ### No bit is dropped (41_bitwriter section 3) -/

theorem moves_sink {s t : State} (h : Moves s t) : ∃ out, t.sink = s.sink ++ out := by
  obtain hleaves | ⟨n, rfl⟩ | ⟨p, u, -, -, rfl⟩ := moves_writer_cases h
  · exact ⟨[], by rw [hleaves.sink, List.append_nil]⟩
  · cases hp : s.pend with
    | none => exact ⟨[], by rw [sinkTakes_idle hp, List.append_nil]⟩
    | some p => exact ⟨_, (sinkTakes_pending n hp).1⟩
  · exact ⟨_, rfl⟩

theorem resets_sink {s t : State} (h : Resets s t) : ∃ out, t.sink = s.sink ++ out := by
  have hsink : t.sink = (abortCommand s).sink := by cases h <;> rfl
  rw [hsink]
  obtain ⟨d, habort⟩ | ⟨i, bytes, habort⟩ := abortCommand_cases s
  · exact ⟨[], by rw [habort, List.append_nil]⟩
  · obtain ⟨k, -, hk⟩ := sinkTakesSome_sink_eq bytes s
    exact ⟨bytes.take k, by rw [habort, ← hk]; exact unwriteTargets_sink i _⟩

/-- The bits of the cache are in the bytes an executed word emits and in the cache it leaves, in order. -/
theorem execWord_emits {w : Word} {s u : State} (hcache : s.cache.length ≤ 64) (h : execWord w s = .next u) :
    ∃ more, unpack (newBytes s u) ++ u.cache = s.cache ++ more := by
  obtain ⟨i, -, hdone⟩ | ⟨code, valid, -, -, -, rfl⟩ := execWord_cases h
  · obtain ⟨out, more, -, hsink, hsplit, -⟩ := completes_emits (completes_of_runCmd hdone) hcache
    exact ⟨more, by rw [newBytes_eq hsink, hsplit]⟩
  · exact ⟨[], by simp [newBytes]⟩

/-- What had settled stays; the newly settled bytes and the cache hold the old cache and then some bits. -/
theorem moves_settled {s t : State} {settled : List Byte} (hcache : s.cache.length ≤ 64) (hbound : SentBounded s)
    (hsink : s.sink = settled ++ takenBytes s) (h : Moves s t) :
    ∃ out more, t.sink = settled ++ out ++ takenBytes t ∧ unpack out ++ t.cache = s.cache ++ more := by
  obtain hleaves | ⟨n, rfl⟩ | ⟨p, u, hp, hexec, rfl⟩ := moves_writer_cases h
  · exact ⟨[], [], by rw [hleaves.sink, hleaves.takenBytes, hsink, List.append_nil], by simp [hleaves.cache]⟩
  · obtain ⟨-, hsink'⟩ := sinkTakes_settled n hbound hsink
    exact ⟨[], [], by rw [hsink', List.append_nil], by simp⟩
  · obtain ⟨more, hmore⟩ := execWord_emits hcache hexec
    refine ⟨newBytes s u, more, ?_, hmore⟩
    rw [complete_sink, deliver_settled hp hexec hsink]
    simp [takenBytes]

theorem takenBytes_events (s : State) (es : List Event) : takenBytes { s with events := es } = takenBytes s :=
  (leavesWriter_of_sameCommand (s := s) (t := { s with events := es }) ⟨by simp [transplant], rfl⟩ rfl rfl).takenBytes

/-- Settles O20: each move and each reset appends to the sink, and a move's newly settled bytes and cache hold the old
cache's bits. -/
theorem noBitIsDropped : Obligations.NoBitIsDropped := by
  refine ⟨fun s t h => ?appends, fun s t hs hno h => ?keeps⟩
  case appends =>
    obtain ⟨es, hmove | ⟨-, hreset⟩⟩ := step_cases h
    · exact (moves_sink hmove :)
    · exact (resets_sink hreset :)
  case keeps =>
    obtain ⟨es, hmove | ⟨⟨e, es', hev, hreset⟩, -⟩⟩ := step_cases h
    · obtain ⟨⟨hcache, -⟩, hbound, settled, hsink⟩ :=
        writerInv_iff.1 (writerInv_of_moves hs (.outside s.sinkStall es s.reply s.draws))
      obtain ⟨out, more, hsink', hsplit⟩ := moves_settled hcache hbound hsink hmove
      exact ⟨settled, out, more, takenBytes_events s es ▸ hsink, hsink', hsplit⟩
    · exact absurd (hno e es' hev) hreset

end Sys2Proof.Proofs
end

section
/-! PROOFS. The Huffman tree (43_huffman R131 to R135): the initial order, the merges, the leaf depths, and Kraft's
equality for them. -/

namespace Sys2Proof.Proofs

open Sys2Proof.Machine Sys2Proof.Safety Sys2Proof.Laws

/-! ### The leaves in their initial order (43_huffman R131, R132) -/

/-- Two leaves in ascending symbol order. -/
def LeafBefore (a b : HuffNode) : Prop := ∃ u v, a.tree = .leaf u ∧ b.tree = .leaf v ∧ u < v

/-- The initial order: by frequency, and by symbol where the frequencies are equal. -/
def InitialBefore (a b : HuffNode) : Prop := a.freq < b.freq ∨ a.freq = b.freq ∧ LeafBefore a b

theorem initialNodes_iff {freqs : List Nat} {nodes : List HuffNode} :
    InitialNodes freqs nodes ↔ nodes.Perm (huffLeaves freqs) ∧ nodes.Pairwise InitialBefore :=
  Iff.rfl

theorem InitialBefore.freq_le {a b : HuffNode} (h : InitialBefore a b) : a.freq ≤ b.freq := by
  obtain h | ⟨h, -⟩ := h <;> omega

theorem InitialBefore.asymm {a b : HuffNode} (hab : InitialBefore a b) : ¬ InitialBefore b a := by
  rintro (hlt | ⟨heq, v, u, hv, hu, hvu⟩)
  · have := hab.freq_le
    omega
  · obtain hlt | ⟨-, u', v', hu', hv', huv⟩ := hab
    · omega
    · rw [hu] at hu'
      rw [hv] at hv'
      cases hu'
      cases hv'
      omega

theorem huffLeaves_pairwise (freqs : List Nat) : (huffLeaves freqs).Pairwise LeafBefore := by
  have hidx : (freqs.zipIdx.map Prod.snd).Pairwise (· < ·) := by
    rw [List.zipIdx_map_snd]
    exact List.pairwise_lt_range'
  rw [huffLeaves, List.pairwise_map]
  exact (List.pairwise_map.1 hidx).imp fun h => ⟨_, _, rfl, rfl, h⟩

/-- Inserting a leaf among leaves of greater symbols puts it before the first one that is not less frequent. -/
theorem orderedInsert_pairwise {a : HuffNode} {l : List HuffNode} (ha : ∀ b ∈ l, LeafBefore a b)
    (hl : l.Pairwise InitialBefore) :
    (l.orderedInsert (fun a b => a.freq ≤ b.freq) a).Pairwise InitialBefore := by
  induction l with
  | nil => simp
  | cons b l ih =>
    obtain ⟨hb, hl'⟩ := List.pairwise_cons.1 hl
    rw [List.orderedInsert]
    split
    case isTrue hle =>
      refine List.pairwise_cons.2 ⟨fun c hc => ?_, hl⟩
      have hbc : b.freq ≤ c.freq := by
        obtain rfl | hc := List.mem_cons.1 hc
        · exact le_rfl
        · exact (hb c hc).freq_le
      obtain hlt | heq := Nat.lt_or_eq_of_le (hle.trans hbc)
      · exact .inl hlt
      · exact .inr ⟨heq, ha c hc⟩
    case isFalse hlt =>
      refine List.pairwise_cons.2 ⟨fun c hc => ?_, ih (fun c hc => ha c (List.mem_cons_of_mem b hc)) hl'⟩
      obtain rfl | hc := (List.mem_orderedInsert _).1 hc
      · exact .inl (Nat.not_le.1 hlt)
      · exact hb c hc

/-- The insertion sort of leaves in symbol order is stable. -/
theorem insertionSort_pairwise {l : List HuffNode} (hl : l.Pairwise LeafBefore) :
    (l.insertionSort fun a b => a.freq ≤ b.freq).Pairwise InitialBefore := by
  induction l with
  | nil => exact .nil
  | cons a l ih =>
    obtain ⟨ha, hl'⟩ := List.pairwise_cons.1 hl
    exact orderedInsert_pairwise (fun b hb => ha b ((List.mem_insertionSort _).1 hb)) (ih hl')

theorem initialNodes_huffInitial (freqs : List Nat) : InitialNodes freqs (huffInitial freqs) :=
  initialNodes_iff.2 ⟨List.perm_insertionSort _ _, insertionSort_pairwise (huffLeaves_pairwise freqs)⟩

/-- There is one initial list. -/
theorem eq_huffInitial {freqs : List Nat} {nodes : List HuffNode} (h : InitialNodes freqs nodes) :
    nodes = huffInitial freqs := by
  obtain ⟨hperm, hsorted⟩ := initialNodes_iff.1 h
  obtain ⟨hperm', hsorted'⟩ := initialNodes_iff.1 (initialNodes_huffInitial freqs)
  exact List.Perm.eq_of_pairwise (fun a b _ _ hab hba => absurd hba hab.asymm) hsorted hsorted'
    (hperm.trans hperm'.symm)

@[simp] theorem huffInitial_length (freqs : List Nat) : (huffInitial freqs).length = freqs.length := by
  rw [(initialNodes_huffInitial freqs).1.length_eq, huffLeaves, List.length_map, List.length_zipIdx]

/-! ### The merges (43_huffman R133, R134) -/

/-- The nodes that stay before a node inserted under a tie policy (43_huffman R134). -/
def staysBefore (tie : Bool) (z e : HuffNode) : Bool :=
  if tie then decide (e.freq < z.freq) else decide (e.freq ≤ z.freq)

theorem huffPos_eq (tie : Bool) (z : HuffNode) (nodes : List HuffNode) :
    huffPos tie z nodes = nodes.countP (staysBefore tie z) := by
  cases tie <;> rfl

theorem staysBefore_iff {tie : Bool} {z e : HuffNode} :
    staysBefore tie z e = true ↔ if tie then e.freq < z.freq else e.freq ≤ z.freq := by
  cases tie <;> simp [staysBefore]

theorem not_staysBefore_iff {tie : Bool} {z e : HuffNode} :
    staysBefore tie z e = false ↔ if tie then z.freq ≤ e.freq else z.freq < e.freq := by
  cases tie <;> simp [staysBefore]

/-- A merge step takes the first two nodes and splits the others into those that stay before and those that do not. -/
theorem mergeStep_iff {tie : Bool} {nodes after : List HuffNode} :
    MergeStep tie nodes after ↔
      ∃ x y front back, nodes = x :: y :: (front ++ back) ∧ after = front ++ [huffJoin x y] ++ back ∧
        (∀ e ∈ front, staysBefore tie (huffJoin x y) e = true) ∧
        ∀ e ∈ back, staysBefore tie (huffJoin x y) e = false := by
  simp only [MergeStep, staysBefore_iff, not_staysBefore_iff, huffJoin]

/-- The insertion of R134 goes between such a split. -/
theorem huffInsert_append {tie : Bool} {z : HuffNode} {front back : List HuffNode}
    (hfront : ∀ e ∈ front, staysBefore tie z e = true) (hback : ∀ e ∈ back, staysBefore tie z e = false) :
    huffInsert tie z (front ++ back) = front ++ [z] ++ back := by
  have hpos : huffPos tie z (front ++ back) = front.length := by
    rw [huffPos_eq, List.countP_append, List.countP_eq_length.2 hfront,
      List.countP_eq_zero.2 fun e he => by simp [hback e he], Nat.add_zero]
  rw [huffInsert, hpos, List.take_left, List.drop_left]

theorem eq_huffInsert_of_mergeStep {tie : Bool} {nodes after : List HuffNode} (h : MergeStep tie nodes after) :
    ∃ x y rest, nodes = x :: y :: rest ∧ after = huffInsert tie (huffJoin x y) rest := by
  obtain ⟨x, y, front, back, rfl, rfl, hfront, hback⟩ := mergeStep_iff.1 h
  exact ⟨x, y, front ++ back, rfl, (huffInsert_append hfront hback).symm⟩

/-- The merges of R133 are those the model computes. -/
theorem huffMerge_of_mergeRun {tie : Bool} {k : Nat} {nodes after : List HuffNode} (h : MergeRun tie k nodes after) :
    huffMerge tie k nodes = after := by
  induction h with
  | stop nodes => rfl
  | next hstep _ ih =>
    obtain ⟨x, y, rest, rfl, rfl⟩ := eq_huffInsert_of_mergeStep hstep
    exact ih

/-- Nodes in ascending frequency: the order every list of the construction has. -/
def Ascending (nodes : List HuffNode) : Prop := nodes.Pairwise fun a b => a.freq ≤ b.freq

/-- Among nodes of ascending frequency those that stay before come first. -/
theorem exists_split_of_ascending (tie : Bool) (z : HuffNode) {nodes : List HuffNode} (h : Ascending nodes) :
    ∃ front back, nodes = front ++ back ∧ (∀ e ∈ front, staysBefore tie z e = true) ∧
      ∀ e ∈ back, staysBefore tie z e = false := by
  induction nodes with
  | nil => exact ⟨[], [], rfl, by simp, by simp⟩
  | cons a nodes ih =>
    obtain ⟨ha, hrest⟩ := List.pairwise_cons.1 h
    by_cases hstays : staysBefore tie z a = true
    · obtain ⟨front, back, rfl, hfront, hback⟩ := ih hrest
      exact ⟨a :: front, back, rfl, List.forall_mem_cons.2 ⟨hstays, hfront⟩, hback⟩
    · rw [Bool.not_eq_true] at hstays
      refine ⟨[], a :: nodes, rfl, by simp, List.forall_mem_cons.2 ⟨hstays, fun e he => ?_⟩⟩
      have hle := ha e he
      rw [not_staysBefore_iff] at hstays ⊢
      cases tie <;> simp only [Bool.false_eq_true, if_false, if_true] at hstays ⊢ <;> omega

/-- The insertion keeps ascending frequency, and the model's merge is a merge step. -/
theorem mergeStep_huffInsert {tie : Bool} {x y : HuffNode} {rest : List HuffNode} (h : Ascending (x :: y :: rest)) :
    MergeStep tie (x :: y :: rest) (huffInsert tie (huffJoin x y) rest) ∧
      Ascending (huffInsert tie (huffJoin x y) rest) := by
  have hrest : Ascending rest := (List.pairwise_cons.1 (List.pairwise_cons.1 h).2).2
  obtain ⟨front, back, rfl, hfront, hback⟩ := exists_split_of_ascending tie (huffJoin x y) hrest
  rw [huffInsert_append hfront hback]
  refine ⟨mergeStep_iff.2 ⟨x, y, front, back, rfl, rfl, hfront, hback⟩, ?_⟩
  have hlow : ∀ e ∈ front, e.freq ≤ (huffJoin x y).freq := fun e he => by
    have := staysBefore_iff.1 (hfront e he)
    cases tie <;> simp only [Bool.false_eq_true, if_false, if_true] at this <;> omega
  have hhigh : ∀ e ∈ back, (huffJoin x y).freq ≤ e.freq := fun e he => by
    have := not_staysBefore_iff.1 (hback e he)
    cases tie <;> simp only [Bool.false_eq_true, if_false, if_true] at this <;> omega
  obtain ⟨hf, hb, hfb⟩ := List.pairwise_append.1 hrest
  rw [Ascending, List.append_assoc, List.singleton_append, List.pairwise_append, List.pairwise_cons]
  exact ⟨hf, ⟨hhigh, hb⟩, fun a ha => List.forall_mem_cons.2 ⟨hlow a ha, hfb a ha⟩⟩

theorem huffInsert_perm (tie : Bool) (z : HuffNode) (nodes : List HuffNode) :
    (huffInsert tie z nodes).Perm (z :: nodes) := by
  rw [huffInsert, List.append_assoc, List.singleton_append]
  exact List.perm_middle.trans (by rw [List.take_append_drop])

/-- N - 1 merges of N nodes are possible, and leave one. -/
theorem mergeRun_huffMerge {tie : Bool} {k : Nat} {nodes : List HuffNode} (h : Ascending nodes)
    (hlen : nodes.length = k + 1) :
    MergeRun tie k nodes (huffMerge tie k nodes) ∧ ∃ root, huffMerge tie k nodes = [root] := by
  induction k generalizing nodes with
  | zero => exact ⟨.stop nodes, List.length_eq_one_iff.1 hlen⟩
  | succ k ih =>
    match nodes, hlen with
    | x :: y :: rest, hlen =>
      obtain ⟨hstep, hsorted⟩ := mergeStep_huffInsert (tie := tie) h
      have hlen' : (huffInsert tie (huffJoin x y) rest).length = k + 1 := by
        rw [(huffInsert_perm ..).length_eq]
        simpa using hlen
      obtain ⟨hrun, hroot⟩ := ih hsorted hlen'
      exact ⟨.next hstep hrun, hroot⟩

/-! ### Leaves and their depths (43_huffman R135) -/

/-- The symbols of a tree's leaves, left to right. -/
def treeSymbols : HuffTree → List Nat
  | .leaf s => [s]
  | .node l r => treeSymbols l ++ treeSymbols r

theorem depths_map_fst (t : HuffTree) (d : Nat) : (t.depths d).map Prod.fst = treeSymbols t := by
  induction t generalizing d with
  | leaf s => rfl
  | node l r ihl ihr => rw [HuffTree.depths, List.map_append, ihl, ihr, treeSymbols]

theorem mem_depths_iff {t : HuffTree} {d s e : Nat} : (s, e) ∈ t.depths d ↔ ∃ k, e = d + k ∧ LeafDepth s t k := by
  induction t generalizing d with
  | leaf u =>
    simp only [HuffTree.depths, List.mem_singleton, Prod.mk.injEq]
    constructor
    · rintro ⟨rfl, rfl⟩
      exact ⟨0, rfl, .here⟩
    · rintro ⟨k, rfl, h⟩
      cases h
      exact ⟨rfl, rfl⟩
  | node l r ihl ihr =>
    simp only [HuffTree.depths, List.mem_append, ihl, ihr]
    constructor
    · rintro (⟨k, rfl, h⟩ | ⟨k, rfl, h⟩)
      · exact ⟨k + 1, by omega, .left h⟩
      · exact ⟨k + 1, by omega, .right h⟩
    · rintro ⟨k, rfl, h⟩
      cases h with
      | left h => exact .inl ⟨_, by omega, h⟩
      | right h => exact .inr ⟨_, by omega, h⟩

theorem mem_depths_zero_iff {t : HuffTree} {s d : Nat} : (s, d) ∈ t.depths 0 ↔ LeafDepth s t d := by
  simp [mem_depths_iff]

theorem depthOf_eq_of_mem {l : List (Nat × Nat)} (hnodup : (l.map Prod.fst).Nodup) {s d : Nat} (h : (s, d) ∈ l) :
    depthOf s l = d := by
  induction l with
  | nil => cases h
  | cons c l ih =>
    obtain ⟨t, e⟩ := c
    rw [List.map_cons, List.nodup_cons] at hnodup
    obtain heq | hmem := List.mem_cons.1 h
    · cases heq
      exact if_pos rfl
    · have hne : s ≠ t := fun hst => hnodup.1 (List.mem_map.2 ⟨(s, d), hmem, hst⟩)
      rw [depthOf, if_neg hne, ih hnodup.2 hmem]

/-- The merges keep the symbols. -/
theorem huffMerge_symbols (tie : Bool) (k : Nat) (nodes : List HuffNode) :
    ((huffMerge tie k nodes).flatMap fun e => treeSymbols e.tree).Perm (nodes.flatMap fun e => treeSymbols e.tree) := by
  induction k generalizing nodes with
  | zero => exact .rfl
  | succ k ih =>
    match nodes with
    | [] => exact .rfl
    | [x] => exact .rfl
    | x :: y :: rest =>
      refine (ih _).trans (((huffInsert_perm ..).flatMap_right _).trans ?_)
      simp [huffJoin, treeSymbols, List.append_assoc]

theorem huffLeaves_symbols (freqs : List Nat) :
    ((huffLeaves freqs).flatMap fun e => treeSymbols e.tree) = List.range freqs.length := by
  rw [huffLeaves, List.flatMap_map]
  simp only [treeSymbols]
  rw [← List.map_eq_flatMap, List.zipIdx_map_snd, List.range_eq_range']

/-- The finished tree: N - 1 merges of the sorted leaves give one root, and its leaves are the symbols. -/
theorem exists_root (tie : Bool) {freqs : List Nat} (h : 1 ≤ freqs.length) :
    ∃ root, MergeRun tie (freqs.length - 1) (huffInitial freqs) [root] ∧
      huffDepths tie freqs = root.tree.depths 0 ∧ (treeSymbols root.tree).Perm (List.range freqs.length) := by
  have hsorted : Ascending (huffInitial freqs) :=
    (initialNodes_huffInitial freqs).2.imp fun h => InitialBefore.freq_le h
  obtain ⟨hrun, root, hroot⟩ := mergeRun_huffMerge (tie := tie) (k := freqs.length - 1) hsorted
    (by rw [huffInitial_length]; omega)
  rw [hroot] at hrun
  refine ⟨root, hrun, by rw [huffDepths, hroot], ?_⟩
  have hsymbols := huffMerge_symbols tie (freqs.length - 1) (huffInitial freqs)
  rw [hroot, List.flatMap_singleton] at hsymbols
  rw [← huffLeaves_symbols]
  exact hsymbols.trans ((initialNodes_huffInitial freqs).1.flatMap_right _)

theorem nodup_depths_symbols {t : HuffTree} {n : Nat} (h : (treeSymbols t).Perm (List.range n)) :
    ((t.depths 0).map Prod.fst).Nodup := by
  rw [depths_map_fst]
  exact h.nodup_iff.2 List.nodup_range

/-- Each symbol's computed length is a leaf's depth, and each leaf's depth is its symbol's length. -/
theorem huffLengths_getElem?_iff {tie : Bool} {freqs : List Nat} {t : HuffTree}
    (hdepths : huffDepths tie freqs = t.depths 0) (hsymbols : (treeSymbols t).Perm (List.range freqs.length)) {s d : Nat} :
    (huffLengths tie freqs)[s]? = some d ↔ LeafDepth s t d := by
  have hnodup := nodup_depths_symbols hsymbols
  have hmem : ∀ {u}, u < freqs.length ↔ u ∈ (t.depths 0).map Prod.fst := by
    intro u
    rw [depths_map_fst, hsymbols.mem_iff, List.mem_range]
  rw [← mem_depths_zero_iff, huffLengths, hdepths]
  constructor
  · intro h
    obtain ⟨hs, hd⟩ : s < freqs.length ∧ depthOf s (t.depths 0) = d := by
      simpa [List.getElem?_eq_some_iff] using h
    obtain ⟨⟨u, e⟩, hue, rfl⟩ := List.mem_map.1 (hmem.1 hs)
    rwa [← hd, depthOf_eq_of_mem hnodup hue]
  · intro h
    have hs : s < freqs.length := hmem.2 (List.mem_map_of_mem (f := Prod.fst) h)
    simp [hs, depthOf_eq_of_mem hnodup h]

/-- Settles O29: the initial order and each merge leave one list, and one leaf holds each symbol. -/
theorem lengthsAreTreeDepths : Obligations.LengthsAreTreeDepths := by
  intro tie freqs lens hmin
  obtain ⟨root, hrun, hdepths, hsymbols⟩ := exists_root tie (freqs := freqs) (by omega)
  constructor
  · rintro ⟨hlen, nodes, root', hinit, hrun', hlens⟩
    rw [eq_huffInitial hinit] at hrun'
    have hroot : [root] = [root'] := (huffMerge_of_mergeRun hrun).symm.trans (huffMerge_of_mergeRun hrun')
    obtain rfl : root = root' := List.singleton_inj.1 hroot
    refine List.ext_getElem? fun s => ?_
    by_cases hs : s < lens.length
    · rw [List.getElem?_eq_getElem hs]
      exact ((huffLengths_getElem?_iff hdepths hsymbols).2 (hlens s _ (List.getElem?_eq_getElem hs))).symm
    · rw [List.getElem?_eq_none (Nat.not_lt.1 hs), List.getElem?_eq_none (by rw [huffLengths_length]; omega)]
  · rintro rfl
    exact ⟨huffLengths_length tie freqs, huffInitial freqs, root, initialNodes_huffInitial freqs, hrun,
      fun s d => (huffLengths_getElem?_iff hdepths hsymbols).1⟩

/-! ### Kraft's equality (43_huffman section 3) -/

theorem le_of_mem_depths {t : HuffTree} {d s e : Nat} (h : (s, e) ∈ t.depths d) : d ≤ e := by
  obtain ⟨k, rfl, -⟩ := mem_depths_iff.1 h
  exact Nat.le_add_right d k

theorem depths_ne_nil (t : HuffTree) (d : Nat) : t.depths d ≠ [] := by
  induction t generalizing d with
  | leaf s => simp [HuffTree.depths]
  | node l r ihl _ => simp [HuffTree.depths, ihl]

/-- A subtree rooted at depth `d` fills a share of 2^-d. -/
theorem depths_kraft {t : HuffTree} {d m : Nat} (h : ∀ c ∈ t.depths d, c.2 ≤ m) :
    ((t.depths d).map fun c => 2 ^ (m - c.2)).sum = 2 ^ (m - d) := by
  induction t generalizing d with
  | leaf s => simp [HuffTree.depths]
  | node l r ihl ihr =>
    rw [HuffTree.depths] at h ⊢
    have hl : ∀ c ∈ l.depths (d + 1), c.2 ≤ m := fun c hc => h c (List.mem_append_left _ hc)
    have hr : ∀ c ∈ r.depths (d + 1), c.2 ≤ m := fun c hc => h c (List.mem_append_right _ hc)
    obtain ⟨⟨s, e⟩, hleaf⟩ := List.exists_mem_of_ne_nil _ (depths_ne_nil l (d + 1))
    have hle := le_of_mem_depths hleaf
    have hem := hl _ hleaf
    rw [List.map_append, List.sum_append, ihl hl, ihr hr, show m - d = m - (d + 1) + 1 by omega, Nat.pow_succ]
    omega

/-- The lengths are, in some order, the depths of the leaves. -/
theorem huffLengths_perm {tie : Bool} {freqs : List Nat} {t : HuffTree}
    (hdepths : huffDepths tie freqs = t.depths 0) (hsymbols : (treeSymbols t).Perm (List.range freqs.length)) :
    (huffLengths tie freqs).Perm ((t.depths 0).map Prod.snd) := by
  have hnodup := nodup_depths_symbols hsymbols
  have hsnd : (t.depths 0).map Prod.snd = (treeSymbols t).map fun s => depthOf s (t.depths 0) := by
    rw [← depths_map_fst t 0, List.map_map]
    exact List.map_congr_left fun c hc => (depthOf_eq_of_mem hnodup hc).symm
  rw [hsnd, huffLengths, hdepths]
  exact hsymbols.symm.map _

/-- What the lengths of a complete code satisfy (43_huffman section 3). -/
structure CompleteLengths (lens : List Nat) : Prop where
  pos : ∀ l ∈ lens, 1 ≤ l
  kraft : (lens.map fun l => 2 ^ (maxLen lens - l)).sum = 2 ^ maxLen lens

theorem completeLengths_huffLengths (tie : Bool) {freqs : List Nat} (h : 2 ≤ freqs.length) :
    CompleteLengths (huffLengths tie freqs) := by
  obtain ⟨root, -, hdepths, hsymbols⟩ := exists_root tie (freqs := freqs) (by omega)
  have hperm := huffLengths_perm hdepths hsymbols
  constructor
  case pos =>
    intro l hl
    obtain ⟨⟨s, e⟩, hleaf, rfl⟩ := List.mem_map.1 (hperm.mem_iff.1 hl)
    cases htree : root.tree with
    | leaf u =>
      have hlen := hsymbols.length_eq
      rw [htree, List.length_range] at hlen
      simp only [treeSymbols, List.length_singleton] at hlen
      omega
    | node left right =>
      rw [htree, HuffTree.depths, List.mem_append] at hleaf
      obtain hleaf | hleaf := hleaf <;> exact le_of_mem_depths hleaf
  case kraft =>
    have hle : ∀ c ∈ root.tree.depths 0, c.2 ≤ maxLen (huffLengths tie freqs) := fun c hc =>
      maxLen_le_iff.1 le_rfl _ (hperm.mem_iff.2 (List.mem_map_of_mem hc))
    rw [(hperm.map _).sum_eq, List.map_map]
    exact depths_kraft hle

end Sys2Proof.Proofs
end

section
/-! PROOFS. The canonical codes in closed form (43_huffman R136), the laws of a built book (43_huffman section 3), and
the book as an invariant (10_state R31, R39). -/

namespace Sys2Proof.Proofs

open Sys2Proof.Machine Sys2Proof.Safety Sys2Proof.Laws

/-! ### The running code (43_huffman R136) -/

/-- The running code at the start of depth `d`: each code of a shorter length, shifted. -/
def firstCode (lens : List Nat) (d : Nat) : Nat :=
  ((lens.filter fun e => decide (e < d)).map fun e => 2 ^ (d - e)).sum

theorem canonicalValue_eq (lens : List Nat) (s : Nat) :
    canonicalValue lens s = firstCode lens (lens.getD s 0) + (lens.take s).count (lens.getD s 0) := rfl

theorem firstCode_cons (l : Nat) (lens : List Nat) (d : Nat) :
    firstCode (l :: lens) d = (if l < d then 2 ^ (d - l) else 0) + firstCode lens d := by
  by_cases h : l < d <;> simp [firstCode, h]

/-- The next depth starts at twice the running code after this one. -/
theorem firstCode_succ (lens : List Nat) (d : Nat) :
    firstCode lens (d + 1) = 2 * (firstCode lens d + lens.count d) := by
  induction lens with
  | nil => rfl
  | cons l lens ih =>
    rw [firstCode_cons, firstCode_cons, ih]
    obtain hlt | rfl | hgt := Nat.lt_trichotomy l d
    · have hpow : 2 ^ (d + 1 - l) = 2 * 2 ^ (d - l) := by rw [Nat.succ_sub hlt.le, Nat.pow_succ']
      rw [if_pos (by omega), if_pos hlt, List.count_cons_of_ne (by omega), hpow]
      ring
    · rw [if_pos (by omega), if_neg (by omega), List.count_cons_self, Nat.add_sub_cancel_left]
      ring
    · rw [if_neg (by omega), if_neg (by omega), List.count_cons_of_ne (by omega)]
      ring

/-- With no length 0 the running code starts at 0 at depth 1. -/
theorem firstCode_one {lens : List Nat} (h : ∀ l ∈ lens, 1 ≤ l) : firstCode lens 1 = 0 := by
  have hnone : lens.filter (fun e => decide (e < 1)) = [] :=
    List.filter_eq_nil_iff.2 fun l hl => by simpa using Nat.ne_of_gt (h l hl)
  rw [firstCode, hnone, List.map_nil, List.sum_nil]

/-- At depth `d` the symbols of that length get the running code and the codes after it, in symbol order. -/
theorem assignDepth_getElem? {d s j : Nat} {lens : List Nat} {acc : Nat × List Nat} (hj : j < acc.2.length) :
    (assignDepth d lens s acc).2[j]? =
      if s ≤ j ∧ lens[j - s]? = some d then some (acc.1 + (lens.take (j - s)).count d) else acc.2[j]? := by
  induction lens generalizing s acc with
  | nil => simp [assignDepth]
  | cons len lens ih =>
    obtain hlt | rfl | hgt := Nat.lt_trichotomy j s
    · rw [if_neg (by omega), assignDepth]
      split
      · rw [ih (by simpa using hj), if_neg (by omega), List.getElem?_set_ne (by omega)]
      · rw [ih hj, if_neg (by omega)]
    · rw [assignDepth]
      split
      case isTrue hd => rw [ih (by simpa using hj), if_neg (by omega)]; simp [hd, hj]
      case isFalse hd => rw [ih hj, if_neg (by omega)]; simp [hd]
    · have hsub : j - s = (j - (s + 1)) + 1 := by omega
      have hle : s + 1 ≤ j ∧ s ≤ j := by omega
      rw [assignDepth, hsub]
      split
      case isTrue hd =>
        rw [ih (by simpa using hj), List.getElem?_set_ne (by omega), List.take_succ_cons, hd, List.count_cons_self]
        simp only [hle, true_and, List.getElem?_cons_succ]
        congr 2
        omega
      case isFalse hd =>
        rw [ih hj, List.take_succ_cons, List.count_cons_of_ne hd]
        simp only [hle, true_and, List.getElem?_cons_succ]

/-- From depth `d` on, `k` depths give the symbols of those lengths their codes. -/
theorem assignDepths_getElem? {lens : List Nat} {d k j l : Nat} {codes : List Nat} (hj : j < codes.length)
    (hl : lens[j]? = some l) :
    (assignDepths lens d k (firstCode lens d, codes)).2[j]? =
      if d ≤ l ∧ l < d + k then some (firstCode lens l + (lens.take j).count l) else codes[j]? := by
  induction k generalizing d codes with
  | zero => rw [if_neg (by omega), assignDepths]
  | succ k ih =>
    have hrun : 2 * (assignDepth d lens 0 (firstCode lens d, codes)).1 = firstCode lens (d + 1) := by
      rw [assignDepth_running, firstCode_succ]
    rw [assignDepths]
    simp only [hrun]
    rw [ih (by rwa [assignDepth_codes_length]), assignDepth_getElem? hj]
    simp only [Nat.zero_le, Nat.sub_zero, true_and, hl, Option.some_inj]
    obtain hlt | rfl | hgt := Nat.lt_trichotomy l d
    · rw [if_neg (by omega), if_neg (by omega), if_neg (by omega)]
    · rw [if_neg (by omega), if_pos rfl, if_pos (by omega)]
    · have hrange : (d + 1 ≤ l ∧ l < d + 1 + k) ↔ (d ≤ l ∧ l < d + (k + 1)) := by omega
      simp only [hrange, if_neg (Nat.ne_of_gt hgt)]

/-- Settles O31: every length is among the depths the outer loop runs over. -/
theorem canonicalCodesClosedForm : Obligations.CanonicalCodesClosedForm := by
  refine fun lens hpos => ⟨canonicalCodes_length lens, fun s hs => ?_⟩
  have hmem : lens[s] ∈ lens := List.getElem_mem hs
  have hlow := hpos _ hmem
  have hhigh : lens[s] ≤ maxLen lens := maxLen_le_iff.1 le_rfl _ hmem
  have hgetD : lens.getD s 0 = lens[s] := by simp [List.getD_eq_getElem?_getD, hs]
  rw [canonicalCodes, ← firstCode_one hpos, canonicalValue_eq, hgetD,
    assignDepths_getElem? (by simpa using hs) (List.getElem?_eq_getElem hs), if_pos (by omega)]

/-! ### Codes of complete lengths (43_huffman section 3) -/

theorem canonicalValue_of_getElem? {lens : List Nat} {s l : Nat} (h : lens[s]? = some l) :
    canonicalValue lens s = firstCode lens l + (lens.take s).count l := by
  rw [canonicalValue_eq, List.getD_eq_getElem?_getD, h, Option.getD_some]

theorem count_take_succ {lens : List Nat} {s l : Nat} (h : lens[s]? = some l) :
    (lens.take (s + 1)).count l = (lens.take s).count l + 1 := by
  rw [List.take_add_one, h, List.count_append]
  simp

theorem firstCode_le_canonicalValue {lens : List Nat} {s l : Nat} (h : lens[s]? = some l) :
    firstCode lens l ≤ canonicalValue lens s := by
  rw [canonicalValue_of_getElem? h]
  exact Nat.le_add_right ..

/-- A code of length `l` is among the codes of that length, which follow the running code. -/
theorem canonicalValue_lt {lens : List Nat} {s l : Nat} (h : lens[s]? = some l) :
    canonicalValue lens s < firstCode lens l + lens.count l := by
  have hle := (List.take_sublist (s + 1) lens).count_le l
  rw [count_take_succ h] at hle
  rw [canonicalValue_of_getElem? h]
  omega

/-- Deeper codes start behind the codes of depth `d`, shifted. -/
theorem shifted_le_firstCode (lens : List Nat) {d e : Nat} (h : d < e) :
    (firstCode lens d + lens.count d) * 2 ^ (e - d) ≤ firstCode lens e := by
  induction e, h using Nat.le_induction with
  | base => rw [firstCode_succ, Nat.succ_sub le_rfl, Nat.sub_self]; omega
  | succ e hle ih =>
    rw [firstCode_succ, Nat.succ_sub (by omega), Nat.pow_succ]
    calc (firstCode lens d + lens.count d) * (2 ^ (e - d) * 2)
        = 2 * ((firstCode lens d + lens.count d) * 2 ^ (e - d)) := by ring
      _ ≤ 2 * (firstCode lens e + lens.count e) := by omega

/-- Codes of one length are consecutive in symbol order. -/
theorem canonicalValue_add_count {lens : List Nat} {x y l : Nat} (hxy : x < y) (hx : lens[x]? = some l)
    (hy : lens[y]? = some l) :
    canonicalValue lens y = canonicalValue lens x + ((lens.take (y + 1)).drop (x + 1)).count l := by
  have htake : lens.take (x + 1) = (lens.take (y + 1)).take (x + 1) := by
    rw [List.take_take, Nat.min_eq_left (by omega)]
  have hsplit : (lens.take (x + 1)).count l + ((lens.take (y + 1)).drop (x + 1)).count l =
      (lens.take (y + 1)).count l := by
    rw [htake, ← List.count_append, List.take_append_drop]
  rw [count_take_succ hx, count_take_succ hy] at hsplit
  rw [canonicalValue_of_getElem? hx, canonicalValue_of_getElem? hy]
  omega

theorem canonicalValue_lt_canonicalValue {lens : List Nat} {x y l : Nat} (hxy : x < y) (hx : lens[x]? = some l)
    (hy : lens[y]? = some l) : canonicalValue lens x < canonicalValue lens y := by
  have hle : (lens.take (x + 1)).count l ≤ (lens.take y).count l := by
    rw [show lens.take (x + 1) = (lens.take y).take (x + 1) by rw [List.take_take, Nat.min_eq_left hxy]]
    exact (List.take_sublist ..).count_le l
  rw [count_take_succ hx] at hle
  rw [canonicalValue_of_getElem? hx, canonicalValue_of_getElem? hy]
  omega

/-- A code of length `l` is never the first `l` bits of another symbol's code. -/
theorem not_codePrefix {lens : List Nat} {x y lx ly : Nat} (hxy : x ≠ y) (hx : lens[x]? = some lx)
    (hy : lens[y]? = some ly) : ¬ CodePrefix (canonicalValue lens x) lx (canonicalValue lens y) ly := by
  rintro ⟨hle, heq⟩
  obtain hlt | rfl := Nat.lt_or_eq_of_le hle
  · have hshift : firstCode lens lx + lens.count lx ≤ canonicalValue lens y / 2 ^ (ly - lx) :=
      (Nat.le_div_iff_mul_le (Nat.two_pow_pos _)).2
        ((shifted_le_firstCode lens hlt).trans (firstCode_le_canonicalValue hy))
    have := canonicalValue_lt hx
    omega
  · rw [Nat.sub_self, Nat.pow_zero, Nat.div_one] at heq
    obtain hlt | hgt := Nat.lt_or_gt_of_ne hxy
    · exact absurd heq.symm (Nat.ne_of_lt (canonicalValue_lt_canonicalValue hlt hx hy))
    · exact absurd heq (Nat.ne_of_lt (canonicalValue_lt_canonicalValue hgt hy hx))

/-- After the last depth every code is used: twice the complete sum. -/
theorem firstCode_maxLen_succ {lens : List Nat} (h : CompleteLengths lens) :
    firstCode lens (maxLen lens + 1) = 2 * 2 ^ maxLen lens := by
  have hall : lens.filter (fun e => decide (e < maxLen lens + 1)) = lens :=
    List.filter_eq_self.2 fun l hl => by simpa using Nat.lt_succ_of_le (maxLen_le_iff.1 le_rfl l hl)
  rw [firstCode, hall, ← h.kraft, ← List.sum_map_mul_left]
  congr 1
  refine List.map_congr_left fun l hl => ?_
  rw [Nat.succ_sub (maxLen_le_iff.1 le_rfl l hl), Nat.pow_succ']

/-- A code of a complete list of lengths fits its length. -/
theorem canonicalValue_lt_two_pow {lens : List Nat} (h : CompleteLengths lens) {s l : Nat} (hs : lens[s]? = some l) :
    canonicalValue lens s < 2 ^ l := by
  have hle : l ≤ maxLen lens := maxLen_le_iff.1 le_rfl l (List.mem_of_getElem? hs)
  have hshift : (firstCode lens l + lens.count l) * 2 ^ (maxLen lens + 1 - l) ≤ 2 ^ l * 2 ^ (maxLen lens + 1 - l) := by
    calc (firstCode lens l + lens.count l) * 2 ^ (maxLen lens + 1 - l)
        ≤ 2 * 2 ^ maxLen lens := firstCode_maxLen_succ h ▸ shifted_le_firstCode lens (Nat.lt_succ_of_le hle)
      _ = 2 ^ l * 2 ^ (maxLen lens + 1 - l) := by rw [← Nat.pow_succ', ← Nat.pow_add]; congr 1; omega
  exact (canonicalValue_lt hs).trans_le (Nat.le_of_mul_le_mul_right hshift (Nat.two_pow_pos _))

/-! ### The book HBUILD writes (43_huffman R137) -/

/-- A built book has complete lengths within the cap, and their canonical codes. -/
theorem completes_hbuild_book {s t : State} (h : Completes s .hbuild t) :
    ∃ lens, CompleteLengths lens ∧ (2 ≤ lens.length ∧ lens.length ≤ 258) ∧ BookIs t lens (canonicalCodes lens) ∧
      t.bookMaxlen.toNat = maxLen lens ∧ maxLen lens ≤ 20 := by
  cases h with
  | @hbuild freqs hmin hmax hlen hfreqs hcap =>
    have hlens := maxLen_le_iff.1 hcap
    have hn : (huffLengths s.tie freqs).length = freqs.length := huffLengths_length ..
    refine ⟨huffLengths s.tie freqs, completeLengths_huffLengths s.tie hmin, by omega, ?_,
      writeBook_bookMaxlen_toNat hlens, hcap⟩
    rw [← hn]
    exact writeBook_bookIs (by omega) hlens

theorem canonicalCodes_getElem? {lens : List Nat} (h : CompleteLengths lens) {s : Nat} (hs : s < lens.length) :
    (canonicalCodes lens)[s]? = some (canonicalValue lens s) :=
  (canonicalCodesClosedForm lens h.pos).2 s hs

/-- Settles O32: the lengths are the depths of a binary tree's leaves. -/
theorem bookSatisfiesKraft : Obligations.BookSatisfiesKraft := by
  intro s t h
  obtain ⟨lens, hcomplete, -, hbook, hmaxlen, -⟩ := completes_hbuild_book (completes_of_runCmd h)
  rw [hmaxlen]
  exact ⟨lens, _, hbook, maxLen_le_iff.1 le_rfl, hcomplete.kraft⟩

/-- Settles O33: longer codes start behind the shorter ones, and codes of one length differ. -/
theorem bookIsPrefixFree : Obligations.BookIsPrefixFree := by
  intro s t h
  obtain ⟨lens, hcomplete, -, hbook, -⟩ := completes_hbuild_book (completes_of_runCmd h)
  refine ⟨lens, _, hbook, fun x y a la b lb hxy ha hla hb hlb => ?_⟩
  rw [canonicalCodes_getElem? hcomplete (List.getElem?_eq_some_iff.1 hla).1] at ha
  rw [canonicalCodes_getElem? hcomplete (List.getElem?_eq_some_iff.1 hlb).1] at hb
  cases ha
  cases hb
  exact not_codePrefix hxy hla hlb

/-- Settles O34: from the closed form, and from the complete sum for the codes' size. -/
theorem bookCodesAreCanonical : Obligations.BookCodesAreCanonical := by
  intro s t h
  obtain ⟨lens, hcomplete, -, hbook, hmaxlen, hcap⟩ := completes_hbuild_book (completes_of_runCmd h)
  have hcode : ∀ {x}, x < lens.length → (canonicalCodes lens).getD x 0 = canonicalValue lens x := fun hx => by
    rw [List.getD_eq_getElem?_getD, canonicalCodes_getElem? hcomplete hx, Option.getD_some]
  have hlen : ∀ {x}, x < lens.length → lens[x]? = some (lens.getD x 0) := fun hx => by simp [hx]
  rw [hmaxlen]
  refine ⟨lens, _, hbook, fun x y hxy hy heq => ?consecutive, fun x hx => ?fits,
    fun l hl => ⟨hcomplete.pos l hl, maxLen_le_iff.1 le_rfl l hl⟩, hcap⟩
  case consecutive =>
    rw [hcode hy, hcode (hxy.trans hy)]
    exact canonicalValue_add_count hxy (heq.trans (hlen hy)) (hlen hy)
  case fits =>
    rw [hcode hx]
    exact canonicalValue_lt_two_pow hcomplete (hlen hx)

/-- Settles O35: the lengths come from the frequencies and the tie policy, and the codes from the lengths. -/
theorem bookDependsOnFrequenciesAlone : Obligations.BookDependsOnFrequenciesAlone := by
  intro s u t ha0 htie hfreq h
  cases completes_of_runCmd h with
  | @hbuild freqs hmin hmax hlen hfreqs hcap =>
    have hfreqs' : FreqsAre u freqs := fun k hk => by rw [← hfreq k (hlen ▸ hk), hfreqs k hk]
    have hrun := runCmd_hbuild_freqs hmin hmax (ha0 ▸ hlen) hfreqs'
    rw [← htie, if_neg (Nat.not_lt.2 hcap)] at hrun
    refine ⟨_, hrun, rfl, rfl, fun k hk => ?_⟩
    simp [read_writeFrom, hlen ▸ hk]

/-! ### A valid book (10_state R31, R39, R45, R46) -/

theorem bookInv_of_hbuild {s t : State} (h : Completes s .hbuild t) : BookInv t := by
  obtain ⟨lens, hcomplete, ⟨hmin, hmax⟩, ⟨hn, -, hentries⟩, hmaxlen, hcap⟩ := completes_hbuild_book h
  refine fun _ => ⟨hn ▸ hmin, hn ▸ hmax, hmaxlen ▸ hcap, fun i hi => ?_⟩
  rw [hn] at hi
  obtain ⟨hlen, hcode⟩ := hentries i hi
  rw [List.getElem?_eq_getElem hi, Option.map_eq_some_iff] at hlen
  obtain ⟨len, hread, hval⟩ := hlen
  rw [canonicalCodes_getElem? hcomplete hi, Option.map_eq_some_iff] at hcode
  obtain ⟨code, hread', -⟩ := hcode
  have hmem : len.toNat ∈ lens := hval ▸ List.getElem_mem hi
  exact ⟨by rw [hread', Option.isSome_some], len, hread, hcomplete.pos _ hmem,
    hmaxlen ▸ maxLen_le_iff.1 le_rfl _ hmem⟩

theorem bookInv_of_answered {s t : State} (hs : BookInv s) (h : Answered s t) : BookInv t := by
  cases h with
  | outside | configured | accepted | operands => exact hs
  | captured => simpa [BookInv] using hs
  | stored m i d => cases m <;> exact hs

theorem bookInv_of_completes {s t : State} {i : Instr} (hs : BookInv s) (h : Completes s i t) : BookInv t := by
  cases h with
  | nop | bwOpen | hcount | bwtRun => exact hs
  | bwBit | bwBits | bwFlush | hencSym | hencRun => simpa [BookInv] using hs
  | bwClose => simpa [BookInv, padded] using hs
  | hbuild hmin hmax hlen hfreqs hcap => exact bookInv_of_hbuild (.hbuild hmin hmax hlen hfreqs hcap)

theorem bookInv_of_moves {s t : State} (hs : BookInv s) (h : Moves s t) : BookInv t := by
  cases h with
  | outside | cleared => exact hs
  | answered h => exact bookInv_of_answered hs h
  | taken n => simpa [BookInv] using hs
  | completed hp hexec =>
    obtain ⟨i, -, hdone⟩ | ⟨code, valid, -, -, hvalid, rfl⟩ := execWord_cases hexec
    · exact (bookInv_of_completes hs (completes_of_runCmd hdone) :)
    · simpa [BookInv] using fun h => hs (hvalid h)

/-- Settles O59: HBUILD alone brings a book, of complete lengths within the cap; a failed one takes it away. -/
theorem bookStaysLegal : Obligations.BookStaysLegal := by
  refine step_keeps (fun _ _ hs => hs) (fun _ _ => bookInv_of_moves) fun s t _ h => ?_
  obtain ⟨u, rfl⟩ := exists_resetRegisters_of_resets h
  exact fun h => (by cases h)

end Sys2Proof.Proofs
end

section
/-! PROOFS. The laws of the Burrows-Wheeler transform (42_bwt, derived rules R125, R126): the last column is a permutation
of the block, equal rotations, and the inverse transform of 95_test_vectors section 10. -/

namespace Sys2Proof.Proofs

open Sys2Proof.Machine Sys2Proof.Safety Sys2Proof.Laws

/-! ### The permutation law (R126) -/

/-- Each index's predecessor, in index order, is the list turned by one place. -/
theorem map_pred_range_eq_rotate {α : Type} (l : List α) (f : Nat → α)
    (hf : ∀ i (h : i < l.length), f i = l[(i + (l.length - 1)) % l.length]'(Nat.mod_lt _ (by omega))) :
    (List.range l.length).map f = l.rotate (l.length - 1) := by
  refine List.ext_getElem (by simp) fun i hi _ => ?_
  rw [List.getElem_map, List.getElem_range, List.getElem_rotate]
  exact hf i (by simpa using hi)

theorem lastByte_eq_getElem {block : List Byte} {i : Nat} (h : i < block.length) :
    lastByte block i = block[(i + (block.length - 1)) % block.length]'(Nat.mod_lt _ (by omega)) := by
  have hlt : (i + (block.length - 1)) % block.length < block.length := Nat.mod_lt _ (by omega)
  rw [lastByte, Nat.add_sub_assoc (by omega), List.getD_eq_getElem?_getD, List.getElem?_eq_getElem hlt,
    Option.getD_some]

/-- Settles O24: in any order of the rotations each byte of the block is last in one of them. -/
theorem lastColumnPermutesBlock : Obligations.LastColumnPermutesBlock := by
  intro block
  refine ((sortRotations_perm block).map (lastByte block)).trans ?_
  rw [map_pred_range_eq_rotate block (lastByte block) fun i hi => lastByte_eq_getElem hi]
  exact List.rotate_perm ..

/-! ### Equal rotations (R125) -/

/-- A rotation of smaller key has a smaller rank. -/
theorem idxOf_lt_of_rotKey_lt {block : List Byte} {i j : Nat} (hi : i < block.length) (hj : j < block.length)
    (h : rotKey block i < rotKey block j) : (sortRotations block).idxOf i < (sortRotations block).idxOf j := by
  by_contra hle
  have hilt := List.idxOf_lt_length_of_mem (mem_sortRotations.2 hi)
  have hjlt := List.idxOf_lt_length_of_mem (mem_sortRotations.2 hj)
  have hmono := List.pairwise_iff_getElem.1 (sortRotations_pairwise_rotKey_le block)
  obtain hlt | heq := Nat.lt_or_eq_of_le (Nat.not_lt.1 hle)
  · have hkey := hmono _ _ hjlt hilt hlt
    rw [List.getElem_idxOf, List.getElem_idxOf] at hkey
    exact absurd h (not_lt_of_ge hkey)
  · rw [List.idxOf_inj (mem_sortRotations.2 hj)] at heq
    exact lt_irrefl _ (heq ▸ h)

theorem lastByte_eq_of_rotElem_eq {block : List Byte} {i j : Nat} (hi : i < block.length) (hj : j < block.length)
    (h : ∀ k, k < block.length → rotElem block i k = rotElem block j k) : lastByte block i = lastByte block j := by
  have hlast := h (block.length - 1) (by omega)
  have hlt : ∀ m, m % block.length < block.length := fun m => Nat.mod_lt _ (by omega)
  rw [rotElem, rotElem, List.getElem?_eq_getElem (hlt _), List.getElem?_eq_getElem (hlt _), Option.some_inj] at hlast
  rw [lastByte_eq_getElem hi, lastByte_eq_getElem hj, hlast]

theorem idxOf_zero_lt_of_rotElem_eq {block : List Byte} {j : Nat} (hpos : 0 < j) (hj : j < block.length)
    (h : ∀ k, k < block.length → rotElem block 0 k = rotElem block j k) :
    (sortRotations block).idxOf 0 < (sortRotations block).idxOf j :=
  idxOf_lt_of_rotKey_lt (by omega) hj ((rotationBefore_iff_rotKey_lt (by omega) hj).1 (.inr ⟨h, hpos⟩))

/-- The rank of rotation 0 is 0 where it equals every other rotation. -/
theorem originIndex_of_rotElem_eq {block : List Byte} (hpos : 0 < block.length)
    (h : ∀ j, j < block.length → ∀ k, k < block.length → rotElem block 0 k = rotElem block j k) :
    originIndex block = 0 := by
  have hlen : 0 < (sortRotations block).length := by rwa [sortRotations_length]
  have hfirst : (sortRotations block)[0] < block.length := mem_sortRotations.1 (List.getElem_mem hlen)
  by_cases hzero : (sortRotations block)[0] = 0
  · have hidx := List.Nodup.idxOf_getElem ((sortRotations_perm block).nodup_iff.2 List.nodup_range) 0 hlen
    rwa [hzero] at hidx
  · have hlt := idxOf_zero_lt_of_rotElem_eq (Nat.pos_of_ne_zero hzero) hfirst (h _ hfirst)
    rw [List.Nodup.idxOf_getElem ((sortRotations_perm block).nodup_iff.2 List.nodup_range) 0 hlen] at hlt
    exact absurd hlt (Nat.not_lt_zero _)

/-- Settles O26: equal rotations are ordered by their start, and a constant block permutes to itself. -/
theorem equalRotationsShareLastByte : Obligations.EqualRotationsShareLastByte := by
  refine ⟨fun block i j => lastByte_eq_of_rotElem_eq, fun block j => idxOf_zero_lt_of_rotElem_eq,
    fun c n => ⟨List.perm_replicate.1 (lastColumnPermutesBlock _), originIndex_of_rotElem_eq (by simp) ?_⟩⟩
  intro j _ k _
  have hlt : ∀ m, m % (n + 1) < n + 1 := fun m => Nat.mod_lt _ (Nat.succ_pos n)
  simp [rotElem, hlt]

/-! ### A place in a sorted list -/

/-- In a sorted list the places from the number of smaller elements up to that of the elements not greater hold `x`. -/
theorem getElem?_of_countP {α : Type} [LinearOrder α] {x : α} {l : List α} (hl : l.Pairwise (· ≤ ·)) {q : Nat}
    (hlow : (l.countP fun a => decide (a < x)) ≤ q) (hhigh : q < l.countP fun a => decide (a ≤ x)) :
    l[q]? = some x := by
  induction l generalizing q with
  | nil => simp at hhigh
  | cons a l ih =>
    obtain ⟨ha, hl'⟩ := List.pairwise_cons.1 hl
    obtain hlt | rfl | hgt := lt_trichotomy a x
    · rw [List.countP_cons_of_pos (by simpa using hlt)] at hlow
      rw [List.countP_cons_of_pos (by simpa using hlt.le)] at hhigh
      obtain ⟨q, rfl⟩ : ∃ p, q = p + 1 := ⟨q - 1, by omega⟩
      exact ih hl' (by omega) (by omega)
    · cases q with
      | zero => rfl
      | succ q =>
        have hnone : (l.countP fun b => decide (b < a)) = 0 :=
          List.countP_eq_zero.2 fun b hb => by simpa using ha b hb
        rw [List.countP_cons_of_pos (by simp)] at hhigh
        exact ih hl' (by omega) (by omega)
    · have hnone : ((a :: l).countP fun b => decide (b ≤ x)) = 0 :=
        List.countP_eq_zero.2 (List.forall_mem_cons.2
          ⟨by simpa using hgt, fun b hb => by simpa using hgt.trans_le (ha b hb)⟩)
      omega

/-! ### A rotation and the one before it -/

/-- The start index before `i`, cyclically. -/
def predIndex (block : List Byte) (i : Nat) : Nat := (i + (block.length - 1)) % block.length

/-- A rotation as the numbers of its bytes, which the rotation order compares. -/
def rotWord (block : List Byte) (i : Nat) : List Nat := (rotation block i).map BitVec.toNat

theorem rotation_eq_rotate {block : List Byte} {i : Nat} (h : i ≤ block.length) : rotation block i = block.rotate i := by
  rw [Machine.rotation, List.rotate_eq_drop_append_take h]

/-- The rotation before one moves its last byte to the front. -/
theorem exists_rotation_split {block : List Byte} {i : Nat} (h : i < block.length) :
    ∃ u, u.length = block.length - 1 ∧ rotation block i = u ++ [lastByte block i] ∧
      rotation block (predIndex block i) = lastByte block i :: u := by
  have hpred : predIndex block i < block.length := Nat.mod_lt _ (by omega)
  have hturn : (rotation block (predIndex block i)).rotate 1 = rotation block i := by
    rw [rotation_eq_rotate hpred.le, rotation_eq_rotate h.le, List.rotate_rotate, predIndex, ← List.rotate_mod,
      Nat.mod_add_mod, show i + (block.length - 1) + 1 = i + block.length by omega, Nat.add_mod_right,
      Nat.mod_eq_of_lt h]
  have hlen := rotation_length block (predIndex block i)
  cases hrot : rotation block (predIndex block i) with
  | nil =>
    rw [hrot, List.length_nil] at hlen
    omega
  | cons c u =>
    have hc : c = lastByte block i := by
      have hfirst := rotElem_eq_getElem?_rotation (k := 0) hpred (by omega)
      rw [hrot, rotElem, Nat.add_zero, Nat.mod_eq_of_lt hpred, List.getElem?_eq_getElem hpred,
        List.getElem?_cons_zero, Option.some_inj] at hfirst
      rw [lastByte_eq_getElem h, ← hfirst]
      rfl
    rw [hrot, List.rotate_cons_succ, List.rotate_zero] at hturn
    rw [hrot, List.length_cons] at hlen
    exact ⟨u, by omega, hc ▸ hturn.symm, by rw [hc]⟩

/-- Sequences of one length compare as they do with anything behind them. -/
theorem append_lt_append {u v x y : List Nat} (hlen : u.length = v.length) (h : u < v) : u ++ x < v ++ y := by
  induction u generalizing v with
  | nil =>
    obtain rfl := List.length_eq_zero_iff.1 hlen.symm
    exact absurd h (lt_irrefl _)
  | cons a u ih =>
    cases v with
    | nil => cases hlen
    | cons b v =>
      rw [List.cons_append, List.cons_append, List.cons_lt_cons_iff]
      exact (List.cons_lt_cons_iff.1 h).imp_right fun ⟨hab, huv⟩ => ⟨hab, ih (Nat.succ.inj hlen) huv⟩

/-- Of two rotations the one with the smaller last byte has the smaller predecessor. -/
theorem rotWord_pred_lt_of_lastByte_lt {block : List Byte} {i j : Nat} (hi : i < block.length) (hj : j < block.length)
    (h : (lastByte block j).toNat < (lastByte block i).toNat) :
    rotWord block (predIndex block j) < rotWord block (predIndex block i) := by
  obtain ⟨u, -, -, hu⟩ := exists_rotation_split hi
  obtain ⟨v, -, -, hv⟩ := exists_rotation_split hj
  rw [rotWord, rotWord, hu, hv, List.map_cons, List.map_cons, List.cons_lt_cons_iff]
  exact .inl h

/-- With one last byte, rotations and their predecessors are in one order. -/
theorem rotWord_pred_le_of_le {block : List Byte} {i j : Nat} (hi : i < block.length) (hj : j < block.length)
    (hbyte : lastByte block j = lastByte block i) (h : rotWord block j ≤ rotWord block i) :
    rotWord block (predIndex block j) ≤ rotWord block (predIndex block i) := by
  obtain ⟨u, hulen, hui, hu⟩ := exists_rotation_split hi
  obtain ⟨v, hvlen, hvj, hv⟩ := exists_rotation_split hj
  rw [rotWord, rotWord, hui, hvj, List.map_append, List.map_append] at h
  rw [rotWord, rotWord, hu, hv, List.map_cons, List.map_cons, hbyte]
  refine List.cons_le_cons _ (le_of_not_gt fun hlt => ?_)
  exact absurd h (not_le_of_gt (append_lt_append (by simp [hulen, hvlen]) hlt))

/-! ### The LF step (95_test_vectors section 10) -/

/-- The sorted rotations' words ascend. -/
theorem sortRotations_pairwise_rotWord_le (block : List Byte) :
    (sortRotations block).Pairwise fun i j => rotWord block i ≤ rotWord block j :=
  (sortRotations_pairwise_rotKey_le block).imp fun {i j} h => by
    obtain heq | hlt := le_iff_eq_or_lt.1 h
    · exact (congrArg Prod.fst (toLex_inj.1 heq)).le
    · obtain hlt | ⟨heq, -⟩ := rotKey_lt_iff.1 hlt
      · exact hlt.le
      · exact (congrArg (List.map BitVec.toNat) heq).le

theorem predIndex_perm (block : List Byte) : ((sortRotations block).map (predIndex block)).Perm (sortRotations block) := by
  have hturn : (List.range block.length).map (predIndex block) = (List.range block.length).rotate (block.length - 1) := by
    simpa using map_pred_range_eq_rotate (List.range block.length) (predIndex block)
      fun i hi => by simp [predIndex]
  refine ((sortRotations_perm block).map _).trans ?_
  rw [hturn]
  exact (List.rotate_perm ..).trans (sortRotations_perm block).symm

/-- The row the inverse goes to from row `r`: behind the rows of smaller last bytes and the earlier ones of its own. -/
def nextRow (column : List Byte) (r : Nat) : Nat :=
  let c := column.getD r 0
  (column.filter fun b => decide (b.toNat < c.toNat)).length + (column.take r).count c

theorem inverseWalk_succ (column : List Byte) (rows r : Nat) :
    inverseWalk column (rows + 1) r = inverseWalk column rows (nextRow column r) ++ [column.getD r 0] := rfl

/-- `nextRow` by counts over the rows. -/
theorem nextRow_lastColumn {block : List Byte} {r i : Nat} (hr : (sortRotations block)[r]? = some i) :
    nextRow (lastColumn block) r =
      ((sortRotations block).countP fun j => decide ((lastByte block j).toNat < (lastByte block i).toNat)) +
        ((sortRotations block).take r).countP fun j => decide (lastByte block j = lastByte block i) := by
  have hbyte : (lastColumn block).getD r 0 = lastByte block i := by
    simp [lastColumn, List.getD_eq_getElem?_getD, hr]
  rw [nextRow, hbyte, lastColumn, ← List.countP_eq_length_filter, List.countP_map, ← List.map_take, List.count,
    List.countP_map]
  rfl

theorem countP_le_add_countP {α : Type} {p c e : α → Bool} {l : List α} (h : ∀ a ∈ l, p a → c a ∨ e a) :
    l.countP p ≤ l.countP c + l.countP e := by
  induction l with
  | nil => simp
  | cons a l ih =>
    have hl := ih fun b hb => h b (List.mem_cons_of_mem a hb)
    have ha := h a List.mem_cons_self
    rw [List.countP_cons, List.countP_cons, List.countP_cons]
    cases hp : p a
    · simp only [Bool.false_eq_true, if_false]
      omega
    · obtain hc | he := ha hp
      · simp only [hc, if_true]
        omega
      · simp only [he, if_true]
        omega

theorem countP_add_countP_le {α : Type} {p c e : α → Bool} {l : List α} (hc : ∀ a ∈ l, c a → p a)
    (he : ∀ a ∈ l, e a → p a) (hdisj : ∀ a ∈ l, e a → c a = false) : l.countP c + l.countP e ≤ l.countP p := by
  induction l with
  | nil => simp
  | cons a l ih =>
    obtain ⟨hca, hcl⟩ := List.forall_mem_cons.1 hc
    obtain ⟨hea, hel⟩ := List.forall_mem_cons.1 he
    obtain ⟨hda, hdl⟩ := List.forall_mem_cons.1 hdisj
    have hl := ih hcl hel hdl
    rw [List.countP_cons, List.countP_cons, List.countP_cons]
    cases hev : e a
    · cases hcv : c a
      · simp only [Bool.false_eq_true, if_false]
        omega
      · simp only [hca hcv, Bool.false_eq_true, if_true, if_false]
        omega
    · simp only [hda hev, hea hev, Bool.false_eq_true, if_true, if_false]
      omega

/-- The rows' predecessors have the rows' own words, in another order. -/
theorem countP_map_rotWord (block : List Byte) (p : List Nat → Bool) :
    ((sortRotations block).map (rotWord block)).countP p =
      (sortRotations block).countP fun j => p (rotWord block (predIndex block j)) := by
  rw [← ((predIndex_perm block).map (rotWord block)).countP_eq p, List.countP_map, List.countP_map]
  rfl

/-- Row `r` among the rows: those before it have no greater word, those behind it no smaller one. -/
theorem sortRotations_split {block : List Byte} {r i : Nat} (hr : (sortRotations block)[r]? = some i) :
    ∃ A B, sortRotations block = A ++ i :: B ∧ (sortRotations block).take r = A ∧
      (∀ j ∈ A, j < block.length ∧ rotWord block j ≤ rotWord block i) ∧
      ∀ j ∈ B, j < block.length ∧ rotWord block i ≤ rotWord block j := by
  obtain ⟨hlt, hi⟩ := List.getElem?_eq_some_iff.1 hr
  have hsplit : sortRotations block = (sortRotations block).take r ++ i :: (sortRotations block).drop (r + 1) := by
    rw [← hi, List.getElem_cons_drop, List.take_append_drop]
  have hle := sortRotations_pairwise_rotWord_le block
  rw [hsplit, List.pairwise_append, List.pairwise_cons] at hle
  obtain ⟨-, ⟨hbehind, -⟩, hbefore⟩ := hle
  exact ⟨_, _, hsplit, rfl,
    fun j hj => ⟨mem_sortRotations.1 (List.mem_of_mem_take hj), hbefore j hj i List.mem_cons_self⟩,
    fun j hj => ⟨mem_sortRotations.1 (List.mem_of_mem_drop hj), hbehind j hj⟩⟩

/-- Rows with a predecessor below that of row `r` have a smaller last byte, or the same one and stand before row `r`. -/
theorem countP_rotWord_lt_le_nextRow {block : List Byte} {r i : Nat} (hr : (sortRotations block)[r]? = some i) :
    (((sortRotations block).map (rotWord block)).countP fun a => decide (a < rotWord block (predIndex block i))) ≤
      nextRow (lastColumn block) r := by
  have hi := mem_sortRotations.1 (List.mem_of_getElem? hr)
  obtain ⟨A, B, hrows, htake, hA, hB⟩ := sortRotations_split hr
  have hbyte : ∀ j < block.length, rotWord block (predIndex block j) < rotWord block (predIndex block i) →
      (lastByte block j).toNat ≤ (lastByte block i).toNat := fun j hj hlt =>
    not_lt.1 fun hgt => lt_asymm hlt (rotWord_pred_lt_of_lastByte_lt hj hi hgt)
  have hbefore : (A.countP fun j => decide (rotWord block (predIndex block j) < rotWord block (predIndex block i))) ≤
      (A.countP fun j => decide ((lastByte block j).toNat < (lastByte block i).toNat)) +
        A.countP fun j => decide (lastByte block j = lastByte block i) :=
    countP_le_add_countP fun j hj hlt => by
      obtain hless | heq := Nat.lt_or_eq_of_le (hbyte j (hA j hj).1 (of_decide_eq_true hlt))
      · exact .inl (decide_eq_true hless)
      · exact .inr (decide_eq_true (BitVec.eq_of_toNat_eq heq))
  have hfrom : ((i :: B).countP fun j => decide (rotWord block (predIndex block j) < rotWord block (predIndex block i))) ≤
      (i :: B).countP fun j => decide ((lastByte block j).toNat < (lastByte block i).toNat) := by
    refine List.countP_mono_left fun j hj hlt => decide_eq_true ?_
    have hpred := of_decide_eq_true hlt
    have hrow : j < block.length ∧ rotWord block i ≤ rotWord block j := by
      obtain rfl | hj := List.mem_cons.1 hj
      · exact ⟨hi, le_rfl⟩
      · exact hB j hj
    refine lt_of_le_of_ne (hbyte j hrow.1 hpred) fun heq => ?_
    exact absurd hpred (not_lt.2 (rotWord_pred_le_of_le hrow.1 hi (BitVec.eq_of_toNat_eq heq).symm hrow.2))
  rw [countP_map_rotWord, nextRow_lastColumn hr, htake, hrows, List.countP_append, List.countP_append]
  omega

/-- The rows with a smaller last byte, those with the same one before row `r`, and row `r` itself have predecessors not
above that of row `r`. -/
theorem nextRow_lt_countP_rotWord_le {block : List Byte} {r i : Nat} (hr : (sortRotations block)[r]? = some i) :
    nextRow (lastColumn block) r <
      ((sortRotations block).map (rotWord block)).countP fun a => decide (a ≤ rotWord block (predIndex block i)) := by
  have hi := mem_sortRotations.1 (List.mem_of_getElem? hr)
  obtain ⟨A, B, hrows, htake, hA, hB⟩ := sortRotations_split hr
  have hless : ∀ j < block.length, decide ((lastByte block j).toNat < (lastByte block i).toNat) = true →
      decide (rotWord block (predIndex block j) ≤ rotWord block (predIndex block i)) = true := fun j hj hlt =>
    decide_eq_true (rotWord_pred_lt_of_lastByte_lt hi hj (of_decide_eq_true hlt)).le
  have hbefore : (A.countP fun j => decide ((lastByte block j).toNat < (lastByte block i).toNat)) +
        (A.countP fun j => decide (lastByte block j = lastByte block i)) ≤
      A.countP fun j => decide (rotWord block (predIndex block j) ≤ rotWord block (predIndex block i)) :=
    countP_add_countP_le (fun j hj => hless j (hA j hj).1)
      (fun j hj heq => decide_eq_true (rotWord_pred_le_of_le hi (hA j hj).1 (of_decide_eq_true heq) (hA j hj).2))
      fun j _ heq => decide_eq_false (by rw [of_decide_eq_true heq]; exact lt_irrefl _)
  have hbehind : (B.countP fun j => decide ((lastByte block j).toNat < (lastByte block i).toNat)) ≤
      B.countP fun j => decide (rotWord block (predIndex block j) ≤ rotWord block (predIndex block i)) :=
    List.countP_mono_left fun j hj => hless j (hB j hj).1
  rw [countP_map_rotWord, nextRow_lastColumn hr, htake, hrows, List.countP_append, List.countP_append,
    List.countP_cons_of_neg (by simp), List.countP_cons_of_pos (by simp)]
  omega

/-- The LF step goes to a row that holds the rotation before the row's own. -/
theorem getElem?_nextRow {block : List Byte} {r i : Nat} (hr : (sortRotations block)[r]? = some i) :
    ∃ j, (sortRotations block)[nextRow (lastColumn block) r]? = some j ∧
      rotation block j = rotation block (predIndex block i) := by
  have hword := getElem?_of_countP (List.pairwise_map.2 (sortRotations_pairwise_rotWord_le block))
    (by convert countP_rotWord_lt_le_nextRow hr) (by convert nextRow_lt_countP_rotWord_le hr)
  rw [List.getElem?_map, Option.map_eq_some_iff] at hword
  obtain ⟨j, hj, hrot⟩ := hword
  exact ⟨j, hj, List.map_injective_iff.2 BitVec.toNat_injective hrot⟩

/-- From a row, `k` steps give the last `k` bytes of its rotation. -/
theorem inverseWalk_lastColumn {block : List Byte} {k r i : Nat} (hk : k ≤ block.length)
    (hr : (sortRotations block)[r]? = some i) :
    inverseWalk (lastColumn block) k r = (rotation block i).drop (block.length - k) := by
  induction k generalizing r i with
  | zero => rw [inverseWalk, List.drop_eq_nil_of_le (by simp)]
  | succ k ih =>
    have hi : i < block.length := mem_sortRotations.1 (List.mem_of_getElem? hr)
    have hbyte : (lastColumn block).getD r 0 = lastByte block i := by
      simp [lastColumn, List.getD_eq_getElem?_getD, hr]
    obtain ⟨j, hj, hrot⟩ := getElem?_nextRow hr
    obtain ⟨u, hlen, hsplit, hpred⟩ := exists_rotation_split hi
    rw [inverseWalk_succ, ih (by omega) hj, hrot, hpred, hbyte, hsplit,
      show block.length - k = block.length - (k + 1) + 1 by omega, List.drop_succ_cons,
      List.drop_append_of_le_length (by omega)]

/-- Settles O25: the origin's row holds rotation 0, the block. -/
theorem inverseRecoversBlock : Obligations.InverseRecoversBlock := by
  intro block hne
  have horigin := sortRotations_originIndex (List.length_pos_of_ne_nil hne)
  rw [inverseBwt, lastColumn_length, inverseWalk_lastColumn le_rfl horigin, Nat.sub_self, List.drop_zero,
    Machine.rotation, List.drop_zero, List.take_zero, List.append_nil]

end Sys2Proof.Proofs
end
